-- ==== Sys2Proof/Word.lean ====
section
/-! DEFINITION. The word types of LatticeMico8: the 8-bit data byte (R20), the 18-bit instruction
word (R100) and the 5-bit register field (R21). -/

namespace Sys2Proof

/-- A data byte: the width of every register, constant and memory access (R20, R75). -/
abbrev Byte := BitVec 8

/-- An instruction word, bits 17 down to 0 (R8, R100). -/
abbrev Word := BitVec 18

/-- A register field of an instruction: an index 0 to 31 before the mapping of R21. -/
abbrev RegIdx := BitVec 5

end Sys2Proof
end

