-- ==== Sys2Proof/Syntax.lean ====
section
/-! DEFINITION. The instructions: one constructor of `Instr` per row of spec/opcode_table.json
(Table 7 of the manual, spec/95_test_vectors.md section 1), in the table's order. -/

namespace Sys2Proof

/-- The 53 mnemonics of the Instruction Set Reference Card. -/
inductive Op where
  | add | addc | addi | addic | and | sub | subc | subi
  | subic | cmp | cmpi | andi | or | ori | xor | xori
  | test | testi | mov | movi | nop | rol | rolc | ror
  | rorc | clrc | setc | clrz | setz | clri | seti | rcsr
  | wcsr | b | bc | bnc | bnz | bz | call | callc
  | callnc | callnz | callz | ret | iret | lsp | lspi | ssp
  | sspi | importD | importI | exportD | exportI
  deriving DecidableEq, Repr

/-- An instruction with its operands. `rd`, `rb` are register fields (R21); `c8` is the constant of
R105; `disp` is the signed displacement that the Label field spells (R106); `f` is the direct address
field SS or Port#, already zero-extended to the 8-bit page index (R107); `csr` is a CSR index held in
the word (R108). -/
inductive Instr where
  /-- ADD Rd, Rb (R132). -/
  | add (rd rb : RegIdx)
  /-- ADDC Rd, Rb (R133). -/
  | addc (rd rb : RegIdx)
  /-- ADDI Rd, C (R134). -/
  | addi (rd : RegIdx) (c8 : Byte)
  /-- ADDIC Rd, C (R135). -/
  | addic (rd : RegIdx) (c8 : Byte)
  /-- AND Rd, Rb (R151). -/
  | and (rd rb : RegIdx)
  /-- SUB Rd, Rb (R136). -/
  | sub (rd rb : RegIdx)
  /-- SUBC Rd, Rb (R137). -/
  | subc (rd rb : RegIdx)
  /-- SUBI Rd, C (R138). -/
  | subi (rd : RegIdx) (c8 : Byte)
  /-- SUBIC Rd, C (R139). -/
  | subic (rd : RegIdx) (c8 : Byte)
  /-- CMP Rd, Rb (R140). -/
  | cmp (rd rb : RegIdx)
  /-- CMPI Rd, C (R141). -/
  | cmpi (rd : RegIdx) (c8 : Byte)
  /-- ANDI Rd, C (R152). -/
  | andi (rd : RegIdx) (c8 : Byte)
  /-- OR Rd, Rb (R153). -/
  | or (rd rb : RegIdx)
  /-- ORI Rd, C (R154). -/
  | ori (rd : RegIdx) (c8 : Byte)
  /-- XOR Rd, Rb (R155). -/
  | xor (rd rb : RegIdx)
  /-- XORI Rd, C (R156). -/
  | xori (rd : RegIdx) (c8 : Byte)
  /-- TEST Rd, Rb (R157). -/
  | test (rd rb : RegIdx)
  /-- TESTI Rd, C (R158). -/
  | testi (rd : RegIdx) (c8 : Byte)
  /-- MOV Rd, Rb (R159). -/
  | mov (rd rb : RegIdx)
  /-- MOVI Rd, C (R160). -/
  | movi (rd : RegIdx) (c8 : Byte)
  /-- NOP (R161). -/
  | nop
  /-- ROL Rd, Rb (R171). -/
  | rol (rd rb : RegIdx)
  /-- ROLC Rd, Rb (R172). -/
  | rolc (rd rb : RegIdx)
  /-- ROR Rd, Rb (R173). -/
  | ror (rd rb : RegIdx)
  /-- RORC Rd, Rb (R174). -/
  | rorc (rd rb : RegIdx)
  /-- CLRC (R180). -/
  | clrc
  /-- SETC (R181). -/
  | setc
  /-- CLRZ (R182). -/
  | clrz
  /-- SETZ (R183). -/
  | setz
  /-- CLRI (R184). -/
  | clri
  /-- SETI (R185). -/
  | seti
  /-- RCSR Rd, CRb (R186). -/
  | rcsr (rd : RegIdx) (csr : Nat)
  /-- WCSR CRd, Rb (R187). -/
  | wcsr (csr : Nat) (rb : RegIdx)
  /-- B Label (R201). -/
  | b (disp : Int)
  /-- BC Label (R202). -/
  | bc (disp : Int)
  /-- BNC Label (R203). -/
  | bnc (disp : Int)
  /-- BNZ Label (R204). -/
  | bnz (disp : Int)
  /-- BZ Label (R205). -/
  | bz (disp : Int)
  /-- CALL Label (R206). -/
  | call (disp : Int)
  /-- CALLC Label (R207). -/
  | callc (disp : Int)
  /-- CALLNC Label (R208). -/
  | callnc (disp : Int)
  /-- CALLNZ Label (R209). -/
  | callnz (disp : Int)
  /-- CALLZ Label (R210). -/
  | callz (disp : Int)
  /-- RET (R211). -/
  | ret
  /-- IRET (R212). -/
  | iret
  /-- LSP Rd, SS (R232). -/
  | lsp (rd : RegIdx) (f : Byte)
  /-- LSPI Rd, Rb (R233). -/
  | lspi (rd rb : RegIdx)
  /-- SSP Rd, SS (R234). -/
  | ssp (rd : RegIdx) (f : Byte)
  /-- SSPI Rd, Rb (R235). -/
  | sspi (rd rb : RegIdx)
  /-- IMPORT Rd, Port# (R236). -/
  | importD (rd : RegIdx) (f : Byte)
  /-- IMPORTI Rd, Rb (R237). -/
  | importI (rd rb : RegIdx)
  /-- EXPORT Rd, Port# (R238). -/
  | exportD (rd : RegIdx) (f : Byte)
  /-- EXPORTI Rd, Rb (R239). -/
  | exportI (rd rb : RegIdx)
  deriving DecidableEq, Repr

end Sys2Proof
end

