-- ==== Sys2Proof/Config.lean ====
section
/-! DEFINITION. The configuration record of rules R6 and R7, the encoding parameter `ENC` of R110 and
the free values (`draw` of R10). A LatticeMico8 is fixed by its configuration; the record is held in
State so that a statement about every state holds for every configuration (log 1). -/

namespace Sys2Proof

/-- `NREGS`: 16 or 32 general-purpose registers (R20). -/
inductive RegCount where
  | r16 | r32
  deriving DecidableEq, Repr

/-- `MEM_MODE`: the address width of the scratchpad and peripheral regions (R66). -/
inductive MemMode where
  | small | medium | large
  deriving DecidableEq, Repr

/-- `STACK_DEPTH`: "designers can choose the depth to be 8, 16, or 32" (R40). -/
inductive StackDepth where
  | d8 | d16 | d32
  deriving DecidableEq, Repr

/-- `SUB_CARRY`: the polarity of the carry flag after a subtraction (R131, D5). -/
inductive SubCarry where
  | borrow | notBorrow
  deriving DecidableEq, Repr

/-- `IRQ_IE_POLICY`: how a second interrupt entry is blocked during a handler (R262, D7). -/
inductive IrqIePolicy where
  | auto | inService
  deriving DecidableEq, Repr

/-- The format of an initialisation file (R6, C11): hex is the default. -/
inductive FileFormat where
  | hex | binary
  deriving DecidableEq, Repr

/-- One range of a platform address map: addresses `base` to `base + size - 1` are the locations from
`target` on. -/
structure Window where
  base   : Nat
  size   : Nat
  target : Nat
  deriving DecidableEq, Repr

/-- A platform function `SpLocate` or `IoLocate` as plain data (R69): the default offset reading, or
an address map given range by range (every function on a finite address space is such a map). -/
inductive Locator where
  | offset
  | windows (ws : List Window)
  deriving DecidableEq, Repr

/-- A range of offsets: `size` of them from `lo` on. -/
structure Extent where
  lo   : Nat
  size : Nat
  deriving DecidableEq, Repr

/-- Where the scratchpad lies: "entirely internal to the LatticeMico8 microcontroller, entirely external to
LatticeMico8 microcontroller, or a combination of both" (R65). R6 names no parameter for the split; here
it is the list of the ranges that are internal (DESIGN CHOICE, log 43). -/
inductive SpPlace where
  | internal
  | external
  | both (inside : List Extent)
  deriving DecidableEq, Repr

/-- A storage location under one of its names: a scratchpad offset, a peripheral offset, or byte `k` (0 to 2)
of the external PROM word `a`, "part of an instruction word" (R77, R63). -/
inductive Loc where
  | sp (l : Nat)
  | io (l : Nat)
  | prom (a k : Nat)
  deriving DecidableEq, Repr

/-- One row of the opcode map (R109, R110): the instruction's `match` and `mask`, and the lowest bit of
its first and of its second operand field (0 for a field the instruction does not have). -/
structure EncRow where
  op   : Op
  pat  : Word
  mask : Word
  lo1  : Nat
  lo2  : Nat
  deriving DecidableEq, Repr

/-- The parameter `ENC` with the field widths `LABEL_W` (D4), `DIRECT_W` (D17) and the width of a CSR
index field (R108): rows for the 48 instructions whose encoding the source does not give (R110). R108 states
no width of the index fields of RCSR and WCSR; that one `csrW` serves both is the model's DESIGN CHOICE
(log 10). -/
structure Enc where
  labelW  : Nat
  directW : Nat
  csrW    : Nat
  rows    : List EncRow
  deriving DecidableEq, Repr

/-- The configuration of an instance: the parameters of R6, then those of R7. The docstrings name the
parameter. Fields that no rule lets a program observe are kept for completeness of R6. -/
structure Config where
  /-- `NREGS` -/
  nregs : RegCount
  /-- `PROM_SIZE`, in instruction words -/
  promSize : Nat
  /-- `PROM_INTERNAL` -/
  promInternal : Bool
  /-- The base address of an external PROM (R64); R6 names no parameter for it (the model's own, log 38) -/
  promBase : Nat
  /-- `MEM_MODE` -/
  memMode : MemMode
  /-- `SP_SIZE`, in bytes -/
  spSize : Nat
  /-- `SP_INTERNAL`, with the combination of both that R65 allows -/
  spPlace : SpPlace
  /-- `SP_BASE` -/
  spBase : Nat
  /-- `IO_SIZE`, in bytes -/
  ioSize : Nat
  /-- `IO_BASE` -/
  ioBase : Nat
  /-- `STACK_DEPTH` -/
  stackDepth : StackDepth
  /-- `INTERRUPTS`: the number of external request lines -/
  interrupts : Nat
  /-- `PROM_INIT`: the words an initialisation file gives an internal PROM -/
  promInit : List (Nat × Word)
  /-- `CFG_PROM_INIT_FILE_FORMAT` -/
  promInitFormat : FileFormat
  /-- `SP_INIT`: the bytes an initialisation file gives an internal scratchpad -/
  spInit : List (Nat × Byte)
  /-- `CFG_SP_INIT_FILE_FORMAT` -/
  spInitFormat : FileFormat
  /-- `ROM_EN` -/
  romEn : Bool
  /-- `ROM_BASE` -/
  romBase : Nat
  /-- `XIP` -/
  xip : Bool
  /-- `LATTICE_FAMILY`: nothing a program can observe -/
  latticeFamily : String
  /-- `RESET_PC` (D1) -/
  resetPc : Nat
  /-- `SUB_CARRY` (D5) -/
  subCarry : SubCarry
  /-- `IRQ_IE_POLICY` (D7) -/
  irqPolicy : IrqIePolicy
  /-- `PROM_BYTE_ORDER` (D9): for each instruction bit from 0 up, the byte (0 to 2) of the image that
  holds it and its bit (0 to 7) there -/
  promByteOrder : List (Nat × Nat)
  /-- `ENC`, `LABEL_W`, `DIRECT_W` (D15, D4, D17) -/
  enc : Enc
  /-- `DIRECT_PAGED` (D16) -/
  directPaged : Bool
  /-- `SpLocate` (R69) -/
  spLocate : Locator
  /-- `IoLocate` (R69) -/
  ioLocate : Locator
  /-- `ALIAS` (R77, D22): each entry lists the names of one storage location; default none -/
  aliases : List (List Loc)
  /-- The scratchpad offsets whose storage another bus master shares (R82; the model's own parameter, default
  none, log 35) -/
  spShared : List Extent
  /-- `HALT_PC` (D24, R294), where the configuration names one -/
  haltPc : Option Nat
  deriving DecidableEq, Repr

/-- `draw(1)` of R10: the n-th undetermined bit. Opaque: nothing can be proved of its value (log 39). -/
opaque Config.freeBit : Nat → Bool

/-- `draw(8)` of R10: the n-th undetermined byte. Opaque: nothing can be proved of its value (log 39). -/
opaque Config.freeByte : Nat → Byte

/-- Byte `k` of PROM word `a` where no bit of the instruction lies: the 6 unused bits of R70, which the spec
neither places nor values. Opaque, and one byte for each place since the PROM is constant (log 30). -/
opaque Config.unusedBits : Nat → Nat → Byte

end Sys2Proof
end

