-- ==== Sys2Proof/WellFormed.lean ====
section
/-! DEFINITION. What an instruction's operands must satisfy to be spelled in a word, and what R6 and R7
call a legal configuration. -/

namespace Sys2Proof

/-- The displacement fits the two's-complement Label field of `w` bits (R106). -/
def labelFits (w : Nat) (d : Int) : Bool := decide (-(2 ^ (w - 1) : Int) ≤ d ∧ d < (2 ^ (w - 1) : Int))

/-- The operands of an instruction fit the fields that `ENC` gives them: a label in `LABEL_W` bits (R106),
a direct address in `DIRECT_W` bits (R107), a CSR index in its field (R108). A register field and a
constant always fit. -/
def Instr.WellFormed (e : Enc) : Instr → Bool
  | .add _ _ | .addc _ _ | .addi _ _ | .addic _ _ | .sub _ _ | .subc _ _ | .subi _ _ | .subic _ _
  | .cmp _ _ | .cmpi _ _ | .and _ _ | .andi _ _ | .or _ _ | .ori _ _ | .xor _ _ | .xori _ _
  | .test _ _ | .testi _ _ | .mov _ _ | .movi _ _ | .nop | .rol _ _ | .rolc _ _ | .ror _ _
  | .rorc _ _ | .clrc | .setc | .clrz | .setz | .clri | .seti | .ret | .iret | .lspi _ _
  | .sspi _ _ | .importI _ _ | .exportI _ _ => true
  | .b d | .bc d | .bnc d | .bnz d | .bz d | .call d | .callc d | .callnc d | .callnz d
  | .callz d => labelFits e.labelW d
  | .lsp _ f | .ssp _ f | .importD _ f | .exportD _ f => decide (f.toNat < 2 ^ e.directW)
  | .rcsr _ n | .wcsr n _ => decide (n < 2 ^ e.csrW)

/-- The nine legal PROM sizes (R61, C1). -/
def legalPromSizes : List Nat := [256, 512, 1024, 1536, 2048, 2560, 3072, 3584, 4096]

/-- `n` is a power of two from 2^lo to 2^32. -/
def powerOfTwoFrom (lo n : Nat) : Bool := (List.range (33 - lo)).any fun k => n == 2 ^ (lo + k)

/-- A list of entries by key is in canonical form: keys strictly rising. -/
def keysRise {α : Type} : List (Nat × α) → Bool
  | [] => true
  | [_] => true
  | a :: b :: m => decide (a.1 < b.1) && keysRise (b :: m)

/-- Every name in `ALIAS` is a location of its region. -/
def Loc.within (spSize ioSize promSize : Nat) : Loc → Bool
  | .sp l => decide (l < spSize)
  | .io l => decide (l < ioSize)
  | .prom a k => decide (a < promSize) && decide (k < 3)

/-- The name is a byte of a PROM word. -/
def Loc.isPromName : Loc → Bool
  | .sp _ => false
  | .io _ => false
  | .prom _ _ => true

/-- The offset is in the range. -/
def Extent.has (e : Extent) (l : Nat) : Bool := decide (e.lo ≤ l) && decide (l < e.lo + e.size)

/-- The ranges lie inside a region. -/
def extentsWithin (size : Nat) (es : List Extent) : Bool := es.all fun e => decide (e.lo + e.size ≤ size)

/-- The ranges of a scratchpad that is partly internal lie inside it. -/
def SpPlace.within (size : Nat) : SpPlace → Bool
  | .internal => true
  | .external => true
  | .both es => extentsWithin size es

/-- An external PROM lies inside the 4 GB space (R64), three bytes a word (R63), and with `XIP` the PROM is
external and is the storage at `ROM_BASE` itself (R6, R88). -/
def Config.promPlaced (g : Config) : Bool :=
  (g.promInternal || decide (g.promBase + 3 * g.promSize ≤ 2 ^ 32))
    && (!g.xip || (!g.promInternal && g.promBase == g.romBase))

/-- `ALIAS` relates locations of the regions, each in one entry; only an external PROM can be overlapped
(R63, R77), and a location is a byte of at most one PROM word. -/
def Config.aliasesLegal (g : Config) : Bool :=
  g.aliases.all (fun c => c.all (Loc.within g.spSize g.ioSize g.promSize))
    && decide (g.aliases.flatten.Nodup)
    && g.aliases.all fun c => decide (c.countP Loc.isPromName ≤ if g.promInternal then 0 else 1)

/-- The legal values of R6 and R7, other than those of `ENC` (in Decode.lean), and the placement inside
the 4 GB space of R64. -/
def Config.legal (g : Config) : Bool :=
  legalPromSizes.contains g.promSize
    && powerOfTwoFrom 5 g.spSize
    && (g.ioSize == 0 || powerOfTwoFrom 0 g.ioSize)
    && decide (g.spBase + g.spSize ≤ 2 ^ 32)
    && decide (g.ioBase < 2 ^ 32) && decide (g.ioBase + g.ioSize ≤ 2 ^ 32)
    && decide (g.romBase < 2 ^ 32)
    && decide (g.interrupts ≤ 8)
    && decide (g.resetPc < g.promSize)
    && (g.haltPc.all fun a => decide (a < g.promSize))
    && keysRise g.promInit && (g.promInit.all fun c => decide (c.1 < g.promSize))
    && keysRise g.spInit && (g.spInit.all fun c => decide (c.1 < g.spSize))
    && (g.promByteOrder.length == 18
        && g.promByteOrder.all fun p => decide (p.1 < 3) && decide (p.2 < 8))
    && decide (g.promByteOrder.Nodup)
    && g.promPlaced && g.aliasesLegal && g.spPlace.within g.spSize && extentsWithin g.spSize g.spShared

/-- Where Lattice Mico System Builder, the tool, restricts the peripheral region: "the addresses between
0x80000000 and 0xFFFFFFFF" (R64). A restriction of the tool, not of the core. -/
def Config.builderPlacesIo (g : Config) : Bool :=
  g.ioSize == 0 || (decide (0x80000000 ≤ g.ioBase) && decide (g.ioBase + g.ioSize ≤ 0x100000000))

/-- Where the tool restricts an external PROM: "between 0x00000000 and 0x80000000" (R64). -/
def Config.builderPlacesProm (g : Config) : Bool :=
  g.promInternal || decide (g.promBase + 3 * g.promSize ≤ 0x80000000)

end Sys2Proof
end

