-- ==== Sys2Proof/Decode.lean ====
section
/-! DEFINITION. The decoder of R109 to R112 and R115, the encoder beside it, the conditions R110 puts
on `ENC`, and the candidate `ENC` of spec/93_implementation_defined.md G1 that the instance after
reset uses (log 9, log 10). Nothing here depends on the pc, on a mode or on a neighbouring word
(R111). -/

namespace Sys2Proof

/-- What an operand field of an instruction word holds (R105 to R108). -/
inductive FieldKind where
  | none | reg | const | label | direct | csr
  deriving DecidableEq, Repr

/-- The operand shape of each instruction (the operation column of Table 7, R110): the kinds of its first
and second operand. -/
def Op.kinds : Op → FieldKind × FieldKind
  | .add | .addc | .and | .sub | .subc | .cmp | .or | .xor | .test | .mov
  | .rol | .rolc | .ror | .rorc | .lspi | .sspi | .importI | .exportI => (.reg, .reg)
  | .addi | .addic | .subi | .subic | .cmpi | .andi | .ori | .xori | .testi | .movi => (.reg, .const)
  | .nop | .clrc | .setc | .clrz | .setz | .clri | .seti | .ret | .iret => (.none, .none)
  | .rcsr => (.reg, .csr)
  | .wcsr => (.csr, .reg)
  | .b | .bc | .bnc | .bnz | .bz | .call | .callc | .callnc | .callnz | .callz => (.label, .none)
  | .lsp | .ssp | .importD | .exportD => (.reg, .direct)

/-- The width of a field: 5 bits for a register (R21), 8 for a constant (R103), the parameters of `ENC`
for the others (R104, R107, R108). -/
def Enc.width (e : Enc) : FieldKind → Nat
  | .none => 0
  | .reg => 5
  | .const => 8
  | .label => e.labelW
  | .direct => e.directW
  | .csr => e.csrW

/-- The five encodings the source gives (R109). -/
def sourceRows : List EncRow :=
  [⟨.add,   0x08000, 0x3E007, 8, 3⟩,
   ⟨.addc,  0x0C000, 0x3E007, 8, 3⟩,
   ⟨.addi,  0x0A000, 0x3E000, 8, 0⟩,
   ⟨.addic, 0x0E000, 0x3E000, 8, 0⟩,
   ⟨.and,   0x14000, 0x3E007, 8, 3⟩]

/-- The whole opcode map: the five rows of R109 and the rows of `ENC` (R110). -/
def Enc.table (e : Enc) : List EncRow := sourceRows ++ e.rows

/-- A word of ones in its low `n` bits. -/
def lowMask (n : Nat) : Word := BitVec.ofNat 18 (2 ^ n - 1)

/-- The field of `n` bits whose lowest bit is bit `lo` of the word, as a number in the low bits. -/
def fieldAt (w : Word) (lo n : Nat) : Word := (w >>> lo) &&& lowMask n

/-- "A word `w` is the instruction when `w & mask = match`" (R109). -/
def EncRow.claims (r : EncRow) (w : Word) : Bool := w &&& r.mask == r.pat

/-- The instruction an `op` and its two operand fields spell: a register index, the constant as it stands
(R105), the label as a signed displacement (R106), the direct field zero-extended (R107), the CSR
index (R108). -/
def Instr.ofFields (e : Enc) (op : Op) (a b : Word) : Instr :=
  match op with
  | .add => .add (a.setWidth 5) (b.setWidth 5)
  | .addc => .addc (a.setWidth 5) (b.setWidth 5)
  | .addi => .addi (a.setWidth 5) (b.setWidth 8)
  | .addic => .addic (a.setWidth 5) (b.setWidth 8)
  | .and => .and (a.setWidth 5) (b.setWidth 5)
  | .sub => .sub (a.setWidth 5) (b.setWidth 5)
  | .subc => .subc (a.setWidth 5) (b.setWidth 5)
  | .subi => .subi (a.setWidth 5) (b.setWidth 8)
  | .subic => .subic (a.setWidth 5) (b.setWidth 8)
  | .cmp => .cmp (a.setWidth 5) (b.setWidth 5)
  | .cmpi => .cmpi (a.setWidth 5) (b.setWidth 8)
  | .andi => .andi (a.setWidth 5) (b.setWidth 8)
  | .or => .or (a.setWidth 5) (b.setWidth 5)
  | .ori => .ori (a.setWidth 5) (b.setWidth 8)
  | .xor => .xor (a.setWidth 5) (b.setWidth 5)
  | .xori => .xori (a.setWidth 5) (b.setWidth 8)
  | .test => .test (a.setWidth 5) (b.setWidth 5)
  | .testi => .testi (a.setWidth 5) (b.setWidth 8)
  | .mov => .mov (a.setWidth 5) (b.setWidth 5)
  | .movi => .movi (a.setWidth 5) (b.setWidth 8)
  | .nop => .nop
  | .rol => .rol (a.setWidth 5) (b.setWidth 5)
  | .rolc => .rolc (a.setWidth 5) (b.setWidth 5)
  | .ror => .ror (a.setWidth 5) (b.setWidth 5)
  | .rorc => .rorc (a.setWidth 5) (b.setWidth 5)
  | .clrc => .clrc
  | .setc => .setc
  | .clrz => .clrz
  | .setz => .setz
  | .clri => .clri
  | .seti => .seti
  | .rcsr => .rcsr (a.setWidth 5) b.toNat
  | .wcsr => .wcsr a.toNat (b.setWidth 5)
  | .b => .b (a.setWidth e.labelW).toInt
  | .bc => .bc (a.setWidth e.labelW).toInt
  | .bnc => .bnc (a.setWidth e.labelW).toInt
  | .bnz => .bnz (a.setWidth e.labelW).toInt
  | .bz => .bz (a.setWidth e.labelW).toInt
  | .call => .call (a.setWidth e.labelW).toInt
  | .callc => .callc (a.setWidth e.labelW).toInt
  | .callnc => .callnc (a.setWidth e.labelW).toInt
  | .callnz => .callnz (a.setWidth e.labelW).toInt
  | .callz => .callz (a.setWidth e.labelW).toInt
  | .ret => .ret
  | .iret => .iret
  | .lsp => .lsp (a.setWidth 5) (b.setWidth 8)
  | .lspi => .lspi (a.setWidth 5) (b.setWidth 5)
  | .ssp => .ssp (a.setWidth 5) (b.setWidth 8)
  | .sspi => .sspi (a.setWidth 5) (b.setWidth 5)
  | .importD => .importD (a.setWidth 5) (b.setWidth 8)
  | .importI => .importI (a.setWidth 5) (b.setWidth 5)
  | .exportD => .exportD (a.setWidth 5) (b.setWidth 8)
  | .exportI => .exportI (a.setWidth 5) (b.setWidth 5)

/-- The instruction of a row with its operand fields cut from the word (R111). -/
def EncRow.read (e : Enc) (r : EncRow) (w : Word) : Instr :=
  Instr.ofFields e r.op (fieldAt w r.lo1 (e.width r.op.kinds.1))
    (fieldAt w r.lo2 (e.width r.op.kinds.2))

/-- The word matches the NOP pattern (R111 (1), R115). -/
def Enc.spellsNop (e : Enc) (w : Word) : Bool := e.table.any fun r => r.op == .nop && r.claims w

/-- Why a word is no instruction: no row of the opcode map claims it, or more than one does (R111 (2)
asks for exactly one; an `ENC` that meets R110 leaves no second). -/
inductive DecodeError where
  | noRow
  | ambiguous
  deriving DecidableEq, Repr

/-- Decoding a word (R111): the NOP pattern first, then the one row that claims the word, otherwise the
word is no instruction (R112). -/
def decode (e : Enc) (w : Word) : Except DecodeError Instr :=
  if e.spellsNop w then .ok .nop
  else
    match e.table.filter (·.claims w) with
    | [] => .error .noRow
    | [r] => .ok (r.read e w)
    | _ :: _ :: _ => .error .ambiguous

/-! ### The encoder -/

/-- The row of the opcode map an instruction belongs to. -/
def Instr.op : Instr → Op
  | .add _ _ => .add
  | .addc _ _ => .addc
  | .addi _ _ => .addi
  | .addic _ _ => .addic
  | .and _ _ => .and
  | .sub _ _ => .sub
  | .subc _ _ => .subc
  | .subi _ _ => .subi
  | .subic _ _ => .subic
  | .cmp _ _ => .cmp
  | .cmpi _ _ => .cmpi
  | .andi _ _ => .andi
  | .or _ _ => .or
  | .ori _ _ => .ori
  | .xor _ _ => .xor
  | .xori _ _ => .xori
  | .test _ _ => .test
  | .testi _ _ => .testi
  | .mov _ _ => .mov
  | .movi _ _ => .movi
  | .nop => .nop
  | .rol _ _ => .rol
  | .rolc _ _ => .rolc
  | .ror _ _ => .ror
  | .rorc _ _ => .rorc
  | .clrc => .clrc
  | .setc => .setc
  | .clrz => .clrz
  | .setz => .setz
  | .clri => .clri
  | .seti => .seti
  | .rcsr _ _ => .rcsr
  | .wcsr _ _ => .wcsr
  | .b _ => .b
  | .bc _ => .bc
  | .bnc _ => .bnc
  | .bnz _ => .bnz
  | .bz _ => .bz
  | .call _ => .call
  | .callc _ => .callc
  | .callnc _ => .callnc
  | .callnz _ => .callnz
  | .callz _ => .callz
  | .ret => .ret
  | .iret => .iret
  | .lsp _ _ => .lsp
  | .lspi _ _ => .lspi
  | .ssp _ _ => .ssp
  | .sspi _ _ => .sspi
  | .importD _ _ => .importD
  | .importI _ _ => .importI
  | .exportD _ _ => .exportD
  | .exportI _ _ => .exportI

/-- The first operand as the number its field holds. -/
def Instr.field1 (e : Enc) : Instr → Word
  | .add rd _ | .addc rd _ | .addi rd _ | .addic rd _ | .and rd _ | .sub rd _
  | .subc rd _ | .subi rd _ | .subic rd _ | .cmp rd _ | .cmpi rd _ | .andi rd _
  | .or rd _ | .ori rd _ | .xor rd _ | .xori rd _ | .test rd _ | .testi rd _
  | .mov rd _ | .movi rd _ | .rol rd _ | .rolc rd _ | .ror rd _ | .rorc rd _
  | .rcsr rd _ | .lsp rd _ | .lspi rd _ | .ssp rd _ | .sspi rd _ | .importD rd _
  | .importI rd _ | .exportD rd _ | .exportI rd _ => rd.setWidth 18
  | .nop | .clrc | .setc | .clrz | .setz | .clri
  | .seti | .ret | .iret => 0
  | .wcsr csr _ => BitVec.ofNat 18 csr
  | .b disp | .bc disp | .bnc disp | .bnz disp | .bz disp | .call disp
  | .callc disp | .callnc disp | .callnz disp | .callz disp => (BitVec.ofInt e.labelW disp).setWidth 18

/-- The second operand as the number its field holds. -/
def Instr.field2 : Instr → Word
  | .add _ rb | .addc _ rb | .and _ rb | .sub _ rb | .subc _ rb | .cmp _ rb
  | .or _ rb | .xor _ rb | .test _ rb | .mov _ rb | .rol _ rb | .rolc _ rb
  | .ror _ rb | .rorc _ rb | .wcsr _ rb | .lspi _ rb | .sspi _ rb | .importI _ rb
  | .exportI _ rb => rb.setWidth 18
  | .addi _ c8 | .addic _ c8 | .subi _ c8 | .subic _ c8 | .cmpi _ c8 | .andi _ c8
  | .ori _ c8 | .xori _ c8 | .testi _ c8 | .movi _ c8 => c8.setWidth 18
  | .nop | .clrc | .setc | .clrz | .setz | .clri
  | .seti | .b _ | .bc _ | .bnc _ | .bnz _ | .bz _
  | .call _ | .callc _ | .callnc _ | .callnz _ | .callz _ | .ret
  | .iret => 0
  | .rcsr _ csr => BitVec.ofNat 18 csr
  | .lsp _ f | .ssp _ f | .importD _ f | .exportD _ f => f.setWidth 18

/-- The word of a row with its operand fields set and every bit that neither the pattern nor a field
fixes at 0. -/
def EncRow.place (r : EncRow) (a b : Word) : Word := r.pat ||| (a <<< r.lo1) ||| (b <<< r.lo2)

/-- The word of an instruction, by its row of the opcode map; none where the map has no row for it. -/
def encode (e : Enc) (i : Instr) : Option Word :=
  (e.table.find? fun r => r.op == i.op).map fun r => r.place (i.field1 e) i.field2

/-! ### What R110 asks of `ENC` -/

/-- The bits a field of `n` bits at `lo` occupies. -/
def fieldMask (lo n : Nat) : Word := lowMask n <<< lo

/-- No word matches both rows: some bit both masks hold differs. -/
def EncRow.apart (r q : EncRow) : Bool := (r.pat ^^^ q.pat) &&& (r.mask &&& q.mask) != 0

/-- The position of the operand fields is the format's where R110 names one: Register-Register (R102),
Register-Immediate (R103), Immediate (R104). -/
def EncRow.formatOk (r : EncRow) : Bool :=
  match r.op.kinds with
  | (.reg, .reg) => r.lo1 == 8 && r.lo2 == 3
  | (.reg, .const) => r.lo1 == 8 && r.lo2 == 0
  | (.label, _) => r.lo1 == 0
  | _ => true

/-- A row is a `match` within its `mask`, with its operand fields inside the 18 bits, outside the mask and
apart from each other. -/
def EncRow.wf (e : Enc) (r : EncRow) : Bool :=
  let n1 := e.width r.op.kinds.1
  let n2 := e.width r.op.kinds.2
  r.pat &&& r.mask == r.pat
    && r.formatOk
    && decide (r.lo1 + n1 ≤ 18) && decide (r.lo2 + n2 ≤ 18)
    && fieldMask r.lo1 n1 &&& r.mask == 0
    && fieldMask r.lo2 n2 &&& r.mask == 0
    && fieldMask r.lo1 n1 &&& fieldMask r.lo2 n2 == 0

/-- No two rows match one word, NOP's row excepted (R110). -/
def rowsApart : List EncRow → Bool
  | [] => true
  | r :: rs => (rs.all fun q => r.op == .nop || q.op == .nop || r.apart q) && rowsApart rs

/-- The 53 instructions, in the order of spec/opcode_table.json. -/
def Op.all : List Op :=
  [.add, .addc, .addi, .addic, .and, .sub, .subc, .subi, .subic,
   .cmp, .cmpi, .andi, .or, .ori, .xor, .xori, .test, .testi,
   .mov, .movi, .nop, .rol, .rolc, .ror, .rorc, .clrc, .setc,
   .clrz, .setz, .clri, .seti, .rcsr, .wcsr, .b, .bc, .bnc,
   .bnz, .bz, .call, .callc, .callnc, .callnz, .callz, .ret, .iret,
   .lsp, .lspi, .ssp, .sspi, .importD, .importI, .exportD, .exportI]

/-- `ENC` is a table as R110 describes it: one row for each of the 48 instructions (with R109's five, one
for each of the 53), each row well-formed, no word matching two instructions but for NOP; and the field
widths are widths R104, R107 and R108 admit (a CSR field that can hold the index 2). -/
def Enc.wf (e : Enc) : Bool :=
  decide (1 ≤ e.labelW ∧ e.labelW ≤ 17) && decide (e.directW ≤ 8) && decide (2 ≤ e.csrW)
    && (Op.all.all fun o => (e.table.filter fun r => r.op == o).length == 1)
    && (e.table.all fun r => r.wf e)
    && rowsApart e.table

/-- The instruction changes nothing but the pc, which it advances: a move of a register to itself (the
mapping of R21 included), or a jump to the next instruction. -/
def Instr.changesOnlyPc (n : RegCount) : Instr → Bool
  | .mov rd rb =>
    match n with
    | .r32 => rd == rb
    | .r16 => rd.toNat % 16 == rb.toNat % 16
  | .b d | .bc d | .bnc d | .bnz d | .bz d => d == 1
  | .nop => true
  | _ => false

/-- The words that agree with `p` wherever `m` holds a bit, for `p` within `m`: one for each setting of the
other bits among the lowest `n`. -/
def agreeing (m p : Word) : Nat → List Word
  | 0 => [p]
  | n + 1 =>
    let ws := agreeing m p n
    if m.getLsbD n then ws else ws ++ ws.map fun w => w ||| BitVec.twoPow 18 n

/-- The words that both rows claim, where the rows are not apart. -/
def EncRow.common (r q : EncRow) : List Word := agreeing (r.mask ||| q.mask) (r.pat ||| q.pat) 18

/-- The exception R110 allows: NOP's pattern may coincide with a pattern of an instruction that changes
nothing but the pc. For every row of NOP and every other row, each word that both claim is one whose
execution under the other row changes nothing but the pc. -/
def Enc.nopHarmless (e : Enc) (n : RegCount) : Bool :=
  e.table.all fun r => r.op != .nop || e.table.all fun q =>
    q.op == .nop || r.apart q || (r.common q).all fun w => (q.read e w).changesOnlyPc n

/-- A configuration R6, R7 and R110 admit. -/
def Config.wf (g : Config) : Bool := g.legal && g.enc.wf && g.enc.nopHarmless g.nregs

/-! ### The candidate `ENC` of the instance after reset -/

/-- The candidate patterns of G1 for 46 instructions, "[from general knowledge, not in source]"
(PRESUMED, log 9), and patterns of the model's own for RCSR and WCSR, for which the spec has no candidate
at all (DESIGN CHOICE, log 10). -/
def candidateRows : List EncRow :=
  [⟨.sub, 0x00000, 0x3E007, 8, 3⟩,
   ⟨.subc, 0x04000, 0x3E007, 8, 3⟩,
   ⟨.subi, 0x02000, 0x3E000, 8, 0⟩,
   ⟨.subic, 0x06000, 0x3E000, 8, 0⟩,
   ⟨.cmp, 0x20000, 0x3E007, 8, 3⟩,
   ⟨.cmpi, 0x22000, 0x3E000, 8, 0⟩,
   ⟨.andi, 0x16000, 0x3E000, 8, 0⟩,
   ⟨.or, 0x18000, 0x3E007, 8, 3⟩,
   ⟨.ori, 0x1A000, 0x3E000, 8, 0⟩,
   ⟨.xor, 0x1C000, 0x3E007, 8, 3⟩,
   ⟨.xori, 0x1E000, 0x3E000, 8, 0⟩,
   ⟨.test, 0x24000, 0x3E007, 8, 3⟩,
   ⟨.testi, 0x26000, 0x3E000, 8, 0⟩,
   ⟨.mov, 0x10000, 0x3E007, 8, 3⟩,
   ⟨.movi, 0x12000, 0x3E000, 8, 0⟩,
   ⟨.nop, 0x10000, 0x3FFFF, 0, 0⟩,
   ⟨.rol, 0x28001, 0x3E007, 8, 3⟩,
   ⟨.rolc, 0x28003, 0x3E007, 8, 3⟩,
   ⟨.ror, 0x28000, 0x3E007, 8, 3⟩,
   ⟨.rorc, 0x28002, 0x3E007, 8, 3⟩,
   ⟨.clrc, 0x2C000, 0x3FFFF, 0, 0⟩,
   ⟨.setc, 0x2C001, 0x3FFFF, 0, 0⟩,
   ⟨.clrz, 0x2C002, 0x3FFFF, 0, 0⟩,
   ⟨.setz, 0x2C003, 0x3FFFF, 0, 0⟩,
   ⟨.clri, 0x2C004, 0x3FFFF, 0, 0⟩,
   ⟨.seti, 0x2C005, 0x3FFFF, 0, 0⟩,
   ⟨.rcsr, 0x2A000, 0x3E007, 8, 3⟩,
   ⟨.wcsr, 0x2A001, 0x3E007, 8, 3⟩,
   ⟨.b, 0x36000, 0x3E000, 0, 0⟩,
   ⟨.bc, 0x34000, 0x3F000, 0, 0⟩,
   ⟨.bnc, 0x35000, 0x3F000, 0, 0⟩,
   ⟨.bnz, 0x33000, 0x3F000, 0, 0⟩,
   ⟨.bz, 0x32000, 0x3F000, 0, 0⟩,
   ⟨.call, 0x3E000, 0x3E000, 0, 0⟩,
   ⟨.callc, 0x3C000, 0x3F000, 0, 0⟩,
   ⟨.callnc, 0x3D000, 0x3F000, 0, 0⟩,
   ⟨.callnz, 0x3B000, 0x3F000, 0, 0⟩,
   ⟨.callz, 0x3A000, 0x3F000, 0, 0⟩,
   ⟨.ret, 0x38000, 0x3FFFF, 0, 0⟩,
   ⟨.iret, 0x39000, 0x3FFFF, 0, 0⟩,
   ⟨.lsp, 0x30005, 0x3E007, 8, 3⟩,
   ⟨.lspi, 0x30007, 0x3E007, 8, 3⟩,
   ⟨.ssp, 0x30004, 0x3E007, 8, 3⟩,
   ⟨.sspi, 0x30006, 0x3E007, 8, 3⟩,
   ⟨.importD, 0x30001, 0x3E007, 8, 3⟩,
   ⟨.importI, 0x30003, 0x3E007, 8, 3⟩,
   ⟨.exportD, 0x30000, 0x3E007, 8, 3⟩,
   ⟨.exportI, 0x30002, 0x3E007, 8, 3⟩]

/-- The candidate `ENC`: `LABEL_W` = 12 and `DIRECT_W` = 5 are the candidates of D4 and D17; a CSR index in
a 5-bit register position is the case R108 speaks of (log 10, log 11). -/
def candidateEnc : Enc := { labelW := 12, directW := 5, csrW := 5, rows := candidateRows }

/-- What the decoder reads, under the candidate `ENC`, from an instruction of `nbits` bits whose bits are
`w`: a word of 18 bits, so bits 18 and up must be 0 (R100). -/
def decodeTableWord (nbits w : Nat) : Option Instr :=
  let v := w % 2 ^ nbits
  if v < 2 ^ 18 then (decode candidateEnc (BitVec.ofNat 18 v)).toOption else none

end Sys2Proof
end

