-- ==== Sys2Proof/Machine/Preset.lean ====
section
/-! DEFINITION. The configuration of the instance that State.reset is the reset state of. Every value the
spec leaves to the designer is the model's choice (log 1), every other configuration is reached by
the statements over all states. -/

namespace Sys2Proof.Machine

/-- One legal configuration: the defaults of R6 where the manual states one (medium mode, internal PROM and
scratchpad, call stack of 16, 8 interrupts, no power-up copy), the candidates and recommendations of R7
and spec/92_eei_decisions.md (`RESET_PC` 0, `LABEL_W` 12, `DIRECT_W` 5, `SUB_CARRY` borrow, `DIRECT_PAGED`
true, `ALIAS` empty, the offset reading of `SpLocate` and `IoLocate`), and DESIGN CHOICE values for the
rest (log 1, log 2, log 24, log 31). -/
def preset : Config where
  nregs := .r32
  promSize := 4096
  promInternal := true
  promBase := 0
  memMode := .medium
  spSize := 65536
  spPlace := .internal
  spBase := 0
  ioSize := 65536
  ioBase := 0x80000000
  stackDepth := .d16
  interrupts := 8
  promInit := []
  promInitFormat := .hex
  spInit := []
  spInitFormat := .hex
  romEn := false
  romBase := 0
  xip := false
  latticeFamily := ""
  resetPc := 0
  subCarry := .borrow
  irqPolicy := .auto
  promByteOrder :=
    [(0, 0), (0, 1), (0, 2), (0, 3), (0, 4), (0, 5), (0, 6), (0, 7),
     (1, 0), (1, 1), (1, 2), (1, 3), (1, 4), (1, 5), (1, 6), (1, 7), (2, 0), (2, 1)]
  enc := candidateEnc
  directPaged := true
  spLocate := .offset
  ioLocate := .offset
  aliases := []
  spShared := []
  haltPc := none

end Sys2Proof.Machine
end

