-- ==== Sys2Proof/Machine/Storage.lean ====
section
/-! DEFINITION. Where storage lies, before any state: the platform functions (R69), the names of a location
(R77), the split of the scratchpad (R65), the bytes of an external PROM word (R70), sparse storage by
key, and where initial bytes are kept (R50). -/

namespace Sys2Proof

/-- The location of a region of `size` bytes that an address reaches, none where it is unmapped (R69). -/
def Locator.locate (m : Locator) (size a : Nat) : Option Nat :=
  match m with
  | .offset => if a < size then some a else none
  | .windows ws =>
    match ws.find? fun w => decide (w.base ≤ a) && decide (a < w.base + w.size) with
    | none => none
    | some w =>
      let l := w.target + (a - w.base)
      if l < size then some l else none

/-- `SpLocate` (R69). -/
def Config.locateSp (g : Config) (a : Nat) : Option Nat := g.spLocate.locate g.spSize a

/-- `IoLocate` (R69). -/
def Config.locateIo (g : Config) (a : Nat) : Option Nat := g.ioLocate.locate g.ioSize a

/-- All names of the storage location that one name names (R77): its entry in `ALIAS`, or it alone. -/
def Config.names (g : Config) (l : Loc) : List Loc :=
  match g.aliases.find? (·.contains l) with
  | some ls => ls
  | none => [l]

/-- The scratchpad offset under which a storage location's byte is kept: the first scratchpad name it has
(R77; log 30). None for a location that is no scratchpad byte. -/
def Config.spKey (g : Config) (l : Loc) : Option Nat :=
  (g.names l).findSome? fun
    | .sp k => some k
    | .io _ => none
    | .prom _ _ => none

/-- The offset under which the byte at scratchpad offset `l` is kept: `l` itself where `ALIAS` does not name
it (R77; log 30). -/
def Config.spCell (g : Config) (l : Nat) : Nat := (g.spKey (.sp l)).getD l

/-- `ALIAS` relates the location to a PROM word (R85). -/
def Config.isProm (g : Config) (l : Loc) : Bool := (g.names l).any Loc.isPromName

/-- The PROM word and the byte of it that the location is, if it is one (R77). -/
def Config.promName (g : Config) (l : Loc) : Option (Nat × Nat) :=
  (g.names l).findSome? fun
    | .sp _ => none
    | .io _ => none
    | .prom a k => some (a, k)

/-- The location is storage that another bus master shares (R82). -/
def Config.isShared (g : Config) (l : Loc) : Bool :=
  (g.names l).any fun
    | .sp k => g.spShared.any (·.has k)
    | .io _ => false
    | .prom _ _ => false

/-- The scratchpad offset is inside the microcontroller (R65). -/
def Config.spIsInternal (g : Config) (l : Nat) : Bool :=
  match g.spPlace with
  | .internal => true
  | .external => false
  | .both es => es.any (·.has l)

/-- Byte `k` of PROM word `a`, which holds `w`: each instruction bit at its place by `PROM_BYTE_ORDER` (R70),
and bits the spec leaves open at the unused places (log 30). -/
def Config.promByte (g : Config) (a k : Nat) (w : Word) : Byte :=
  BitVec.ofFnLE fun j : Fin 8 =>
    match g.promByteOrder.idxOf? (k, j.val) with
    | some i => w.getLsbD i
    | none => (Config.unusedBits a k).getLsbD j.val

end Sys2Proof

namespace Sys2Proof.Machine

/-! ### Sparse storage by address -/

/-- What a key holds, none where nothing is listed. -/
def Cells.read {α : Type} : List (Nat × α) → Nat → Option α
  | [], _ => none
  | (k, v) :: m, a => if k = a then some v else Cells.read m a

/-- The storage with a key's value replaced or added, in rising order of keys. -/
def Cells.write {α : Type} : List (Nat × α) → Nat → α → List (Nat × α)
  | [], a, v => [(a, v)]
  | (k, u) :: m, a, v =>
    if a < k then (a, v) :: (k, u) :: m
    else if a = k then (a, v) :: m
    else (k, u) :: Cells.write m a v

/-- The canonical form of storage: keys strictly rising. An unlisted key holds no value, so no entry can
equal what an unlisted one reads as (log 7). -/
def Memory.wf {α : Type} (m : List (Nat × α)) : Bool := keysRise m

/-! ### Initial contents -/

/-- Initial scratchpad bytes, each kept where a read of its offset looks for it (R50, R77). Where `ALIAS` gives
one location two offsets and both have a byte, the later of the list stands; a location that is a PROM
byte keeps the PROM's contents (DESIGN CHOICE, log 30). -/
def spStorage (g : Config) (bytes : List (Nat × Byte)) : List (Nat × Byte) :=
  bytes.foldl
    (fun m c => if g.isProm (.sp c.1) then m else Cells.write m (g.spCell c.1) c.2) []

/-- The scratchpad after reset with no image: `SP_INIT` gives the internal bytes (R50). -/
def initialSp (g : Config) : List (Nat × Byte) :=
  spStorage g (g.spInit.filter fun c => g.spIsInternal c.1)

end Sys2Proof.Machine
end

