-- ==== Sys2Proof/Machine/State.lean ====
section
/-! DEFINITION. The state of the machine (spec/10_state.md), the reasons a step can stop (R251) and the
state after reset (R50, R290). State is plain data and holds the core's state, the inputs and outputs
at its boundary (R46, R47, R76) and the configuration record (R6, R7). -/

namespace Sys2Proof.Machine

/-- An entry of the hardware call stack: "a triple `(addr, c, z)`" (R40). -/
structure Frame where
  addr : Nat
  c    : Bool
  z    : Bool
  deriving DecidableEq, Repr

/-- What the environment supplies for one step: the request lines seen at its start, 1 = asserted (R255),
and whether an entry that is due is deferred at this boundary (R257). -/
structure Tick where
  lines : Byte
  defer : Bool
  deriving DecidableEq, Repr

/-- A peripheral access: the formed address `ea`, as in `IoWrite(ea, x[Rd])` of R238 and `IoRead(addr)` of D23,
and the location `l = IoLocate(ea)` it reaches, as in `IoRead(l)` and `IoWrite(l, v)` of R72 and R73. They
are one number under the offset reading. That one event carries both is the model's DESIGN CHOICE
(log 27). -/
inductive IoEvent where
  | read  (ea l : Nat)
  | write (ea l : Nat) (v : Byte)
  deriving DecidableEq, Repr

/-- The two data spaces (R60). -/
inductive Space where
  | sp | io
  deriving DecidableEq, Repr

/-- Why the machine stops: the model faults of R251, each standing for behaviour the source does not
define, and one of the model's own. All are safe: nothing is claimed of the machine past one. -/
inductive Fault where
  /-- Raised by any instruction whose next pc `t` is outside the PROM (R27). Safe. -/
  | pcOutOfRange (t : Int)
  /-- Raised by the step when the fetched word is no instruction (R112). Safe. -/
  | undefinedInstruction (w : Word)
  /-- Raised by RCSR and WCSR for a CSR index other than 0, 1, 2 (R37). Safe. -/
  | reservedCsr (n : Nat)
  /-- Raised by a call that is taken and by interrupt entry when the stack is full (R43). Safe. -/
  | callStackOverflow
  /-- Raised by RET and IRET when the stack is empty (R43). Safe. -/
  | callStackUnderflow
  /-- Raised by the eight memory instructions when no location answers the address (R74). Safe. -/
  | unmappedAccess (space : Space) (addr : Nat)
  /-- Raised by LSP and LSPI for a byte that has no initial value and was never written (R72), a byte of a PROM
  word without contents among them (log 30). Safe. -/
  | uninitialisedRead (addr : Nat)
  /-- Raised by SSP, SSPI, EXPORT and EXPORTI when the location is aliased to a PROM word (R85). Safe. -/
  | writeToProm
  /-- Raised by the step when the PROM word at the pc has been given no contents (log 8). Safe. -/
  | unprogrammedWord (a : Nat)
  deriving DecidableEq, Repr

/-- Why a meaning is not given. -/
inductive Refusal where
  /-- Raised by `exec` for an instruction that has no meaning yet; no arm raises it. Safe. -/
  | notModelled (mnemonic : String)
  deriving DecidableEq, Repr

/-- The machine's state. The comments name the rule that gives each field. -/
structure State where
  /-- The configuration record (R6, R7); no step changes it. -/
  cfg : Config
  /-- The general-purpose registers (R20). -/
  regs : Vector Byte 32
  /-- The PROM index of the instruction being executed (R25). -/
  pc : Nat
  /-- The carry flag (R28). -/
  c : Bool
  /-- The zero flag (R28). -/
  z : Bool
  /-- The interrupt pending CSR (R33). -/
  ip : Byte
  /-- The interrupt mask CSR (R34). -/
  im : Byte
  /-- The interrupt enable flag, bit 0 of the IE CSR (R35). -/
  ie : Bool
  /-- The hidden in-service bit (R46). -/
  isr : Bool
  /-- The call stack, last pushed entry first (R40). -/
  stack : List Frame
  /-- The scratchpad bytes that have a value, by offset (R45, R65). -/
  sp : List Host.Cell
  /-- The PROM words that have contents, by index (R45, R62). -/
  prom : List (Nat × Word)
  /-- The levels of the request lines as last seen, 1 = asserted (R46, R255). -/
  lines : Byte
  /-- The environment's inputs for the coming steps (R255, R257). The model's own field (log 25). -/
  ticks : List Tick
  /-- The bytes the devices and other masters will answer to coming reads (R76, R82). The model's own field
  (log 27, log 35). -/
  answers : List Byte
  /-- The peripheral accesses made, in program order (R76). -/
  events : List IoEvent
  /-- How many undetermined values have been drawn (R10). The model's own field (log 39). -/
  draws : Nat
  deriving DecidableEq, Repr

/-- The machine right after reset, for a configuration: IP, IM, IE and ISR are 0 and the call stack is empty
(R50); an internal PROM and the internal scratchpad bytes hold their initialisation files (R50); the pc is `RESET_PC`
(R291). The registers and the flags, for which the spec states no value, are 0 (log 3, log 4), and the
environment is quiet (log 25). -/
def State.ofConfig (g : Config) : State where
  cfg := g
  regs := Vector.replicate 32 0
  pc := g.resetPc
  c := false
  z := false
  ip := 0
  im := 0
  ie := false
  isr := false
  stack := []
  sp := initialSp g
  prom := if g.promInternal then g.promInit else []
  lines := 0
  ticks := []
  answers := []
  events := []
  draws := 0

/-- The machine right after reset, in the configuration `preset` (log 1). -/
def State.reset : State := State.ofConfig preset

end Sys2Proof.Machine
end

