-- ==== Sys2Proof/Machine/Flags.lean ====
section
/-! DEFINITION. The arithmetic laws and every flag computation of spec/40_arithmetic.md, 41_logic_move.md
and 42_rotate.md. Sums and differences are taken over the integers and then cut back to 8 bits (R9). -/

namespace Sys2Proof.Machine

/-- The 8-bit result of an addition, a subtraction or a rotate, with the bit that goes to the carry
(the carry out, the borrow, the bit shifted out). -/
structure AluResult where
  r     : Byte
  carry : Bool
  deriving DecidableEq, Repr

/-- The addition law (R130): `s = a + b + cin`, the low 8 bits, and bit 8 of the 9-bit sum. -/
def add8 (a b : Byte) (cin : Bool) : AluResult :=
  let s := a.toNat + b.toNat + cin.toNat
  { r := BitVec.ofNat 8 s, carry := decide (256 ≤ s) }

/-- The subtraction law (R131): `d = a - b - bin` over the integers, the result modulo 256, and the
borrow. -/
def sub8 (a b : Byte) (bin : Bool) : AluResult :=
  let d : Int := (a.toNat : Int) - b.toNat - bin.toNat
  { r := BitVec.ofInt 8 d, carry := decide (d < 0) }

/-- The carry flag after a subtraction, by `SUB_CARRY` (R131, D5; log 16). -/
def carryOfBorrow (p : SubCarry) (borrow : Bool) : Bool :=
  match p with
  | .borrow => borrow
  | .notBorrow => !borrow

/-- "The zero flag is set to 1 if all the bits of the result are 0" (R130, R150; for the instructions whose
description is lost by the spec's analogy D28, log 32). -/
def zeroOf (r : Byte) : Bool := r == 0

/-- The 8-bit left rotation of R171: `{ b[6:0], b[7] }` (the spec's reading D6, log 17). -/
def rotateLeft (b : Byte) : Byte := b.extractLsb' 0 7 ++ b.extractLsb' 7 1

/-- The 8-bit right rotation of R173: `{ b[0], b[7:1] }`. -/
def rotateRight (b : Byte) : Byte := b.extractLsb' 0 1 ++ b.extractLsb' 1 7

/-- The left rotation through the carry of R172: the result `{ b[6:0], cin }`, and `b[7]` to the carry. -/
def rotateLeftCarry (b : Byte) (cin : Bool) : AluResult :=
  { r := b.extractLsb' 0 7 ++ BitVec.ofBool cin, carry := b.getLsbD 7 }

/-- The right rotation through the carry of R174: the result `{ cin, b[7:1] }`, and `b[0]` to the carry. -/
def rotateRightCarry (b : Byte) (cin : Bool) : AluResult :=
  { r := BitVec.ofBool cin ++ b.extractLsb' 1 7, carry := b.getLsbD 0 }

end Sys2Proof.Machine
end

