-- ==== Sys2Proof/Machine/Ops.lean ====
section
/-! DEFINITION. The named operations over the machine's state: registers and flags (R21, R28), the pc
(R26, R27), the call stack (R41 to R43), undetermined values (R10), CSRs (R33 to R37), the memory
accesses of R72 and R73, sampling the request lines (R255), taking an interrupt (R258) and returning
from one (R212), and fetching a word (R62). Meanings are written over these. -/

namespace Sys2Proof

/-! ### What the configuration fixes -/

/-- The number of general-purpose registers (R20). -/
def RegCount.toNat : RegCount → Nat
  | .r16 => 16
  | .r32 => 32

/-- The number of call-stack entries (R40). -/
def StackDepth.toNat : StackDepth → Nat
  | .d8 => 8
  | .d16 => 16
  | .d32 => 32

/-- The physical register a register field names: itself with 32 registers, its index modulo 16 with 16
(R21). -/
def Config.phys (g : Config) (r : RegIdx) : Fin 32 :=
  match g.nregs with
  | .r32 => ⟨r.toNat, r.isLt⟩
  | .r16 => ⟨r.toNat % 16, Nat.lt_of_lt_of_le (Nat.mod_lt _ (by decide)) (by decide)⟩

/-- The bits of IP and IM that belong to a configured line: bits 0 to `INTERRUPTS` - 1 (R36, R252). -/
def Config.lineMask (g : Config) : Byte := BitVec.ofNat 8 (2 ^ g.interrupts - 1)

end Sys2Proof

namespace Sys2Proof.Machine

/-- The outcome of a meaning. -/
abbrev Out := Host.Outcome State Fault Refusal

/-! ### Registers, flags and the other fields -/

/-- `x[i]` (R10, R21). -/
def State.reg (s : State) (r : RegIdx) : Byte := s.regs[(s.cfg.phys r).val]

/-- `x[i] <- v` (R10, R21). -/
def State.setReg (s : State) (r : RegIdx) (v : Byte) : State :=
  { s with regs := s.regs.set (s.cfg.phys r).val v }

/-- `C <- b`. -/
def State.setC (s : State) (b : Bool) : State := { s with c := b }

/-- `Z <- b`. -/
def State.setZ (s : State) (b : Bool) : State := { s with z := b }

/-- The pc becomes `a`. -/
def State.setPc (s : State) (a : Nat) : State := { s with pc := a }

/-- `IP <- v`. -/
def State.setIp (s : State) (v : Byte) : State := { s with ip := v }

/-- `IM <- v`. -/
def State.setIm (s : State) (v : Byte) : State := { s with im := v }

/-- `IE <- b`. -/
def State.setIe (s : State) (b : Bool) : State := { s with ie := b }

/-- `ISR <- b` (R46). -/
def State.setIsr (s : State) (b : Bool) : State := { s with isr := b }

/-- The call stack becomes `k`. -/
def State.setStack (s : State) (k : List Frame) : State := { s with stack := k }

/-- The scratchpad storage becomes `m`. -/
def State.setSp (s : State) (m : List Host.Cell) : State := { s with sp := m }

/-- The PROM contents become `m`; used only to load a program, never by an instruction (R47). -/
def State.setProm (s : State) (m : List (Nat × Word)) : State := { s with prom := m }

/-- A peripheral access is recorded, after those before it (R76). -/
def State.record (s : State) (e : IoEvent) : State := { s with events := s.events ++ [e] }

/-- The bytes devices will answer become `l`. -/
def State.setAnswers (s : State) (l : List Byte) : State := { s with answers := l }

/-- `n` undetermined values have been drawn (R10). -/
def State.drawn (s : State) (n : Nat) : State := { s with draws := s.draws + n }

/-! ### The program counter -/

/-- The next pc is `t`, where `t` is a word of the PROM; otherwise the step has no successor (R27). -/
def State.goto (s : State) (t : Int) : Out :=
  if 0 ≤ t ∧ t < (s.cfg.promSize : Int) then .next (s.setPc t.toNat) else .fault (.pcOutOfRange t)

/-- `pc <- pc + 1` (R26). -/
def State.advance (s : State) : Out := s.goto (s.pc + 1)

/-- A conditional branch: `pc + disp` when taken (R200), otherwise the next instruction. -/
def State.branch (s : State) (taken : Bool) (disp : Int) : Out :=
  if taken then s.goto (s.pc + disp) else s.advance

/-! ### The call stack -/

/-- `push(a, c, z)` (R41, R43). -/
def State.push (s : State) (f : Frame) : Except Fault State :=
  if s.stack.length < s.cfg.stackDepth.toNat then .ok (s.setStack (f :: s.stack))
  else .error .callStackOverflow

/-- `pop()` (R42, R43): the entry and the state without it. -/
def State.pop (s : State) : Except Fault (Frame × State) :=
  match s.stack with
  | [] => .error .callStackUnderflow
  | f :: k => .ok (f, s.setStack k)

/-- What a call pushes: the address of the next instruction, with undetermined flag slots (R41, R206, D12;
log 22). -/
def State.callFrame (s : State) : Frame :=
  { addr := s.pc + 1, c := Config.freeBit s.draws, z := Config.freeBit (s.draws + 1) }

/-- A call that is made if `taken` (R206 to R210): `push(pc + 1, draw(1), draw(1))` and `pc + disp`. -/
def State.call (s : State) (taken : Bool) (disp : Int) : Out :=
  if taken then
    match s.push s.callFrame with
    | .error e => .fault e
    | .ok t => (t.drawn 2).goto (s.pc + disp)
  else s.advance

/-- Return from a procedure (R211): the entry's flags are discarded. -/
def State.returnFromCall (s : State) : Out :=
  match s.pop with
  | .error e => .fault e
  | .ok (f, t) => t.goto f.addr

/-! ### Interrupts -/

/-- The environment's input for this step: the head of `ticks`; with none left the lines stay as they are
and no entry is deferred (log 25). -/
def State.tick (s : State) : Tick := s.ticks.head?.getD { lines := s.lines, defer := false }

/-- Sampling at the start of a step: `IP <- IP | lines` for the configured lines (R255). -/
def State.sample (s : State) : State :=
  { s with
    lines := s.tick.lines
    ticks := s.ticks.tail
    ip := s.ip ||| (s.tick.lines &&& s.cfg.lineMask) }

/-- The interrupt condition (R256, R262). -/
def State.interruptDue (s : State) : Bool :=
  s.ie && s.ip &&& s.im != 0 && !(s.cfg.irqPolicy == .inService && s.isr)

/-- At this boundary an interrupt is taken: the condition holds after sampling and the environment does not
defer the entry (R257). -/
def State.takesInterrupt (s : State) : Bool := s.sample.interruptDue && !s.tick.defer

/-- What entry does to IE or ISR (R258, R262). -/
def State.blockEntry (s : State) : State :=
  match s.cfg.irqPolicy with
  | .auto => s.setIe false
  | .inService => s.setIsr true

/-- What IRET does to IE or ISR (R212, R262). -/
def State.unblockEntry (s : State) : State :=
  match s.cfg.irqPolicy with
  | .auto => s.setIe true
  | .inService => s.setIsr false

/-- Interrupt entry, the machine's only exception (R258): the pc and the flags go to the call stack, the pc
to the interrupt vector 0, and further entries are blocked. -/
def State.takeInterrupt (s : State) : Out :=
  match s.push { addr := s.pc, c := s.c, z := s.z } with
  | .error e => .fault e
  | .ok t => .next (t.blockEntry.setPc 0)

/-- Return from an interrupt (R212): the pc and both flags from the call stack, and entries unblocked. -/
def State.returnFromInterrupt (s : State) : Out :=
  match s.pop with
  | .error e => .fault e
  | .ok (f, t) => ((t.setC f.c).setZ f.z).unblockEntry.goto f.addr

/-! ### Control and status registers -/

/-- A CSR's 8 bits as RCSR reads them: the defined bits, and an undetermined bit wherever `mask` is 0 (R36,
D19; log 20). A mask of ones leaves nothing undetermined. -/
def State.csrBits (s : State) (mask v : Byte) : Byte :=
  if mask = 255#8 then v else (v &&& mask) ||| (Config.freeByte s.draws &&& ~~~mask)

/-- `CSR(n)` as RCSR reads it (R32, R186); none for an index that names no register (R37). -/
def State.readCsr (s : State) (n : Nat) : Option Byte :=
  match n with
  | 0 => some (s.csrBits s.cfg.lineMask s.ip)
  | 1 => some (s.csrBits s.cfg.lineMask s.im)
  | 2 => some (s.csrBits 1#8 ((BitVec.ofBool s.ie).setWidth 8))
  | _ => none

/-- `CSR(n) <- v` as WCSR writes it (R33 to R37, R187): write-one-to-clear for IP, the configured bits for
IM, bit 0 for IE. None for an index that names no register. -/
def State.writeCsr (s : State) (n : Nat) (v : Byte) : Option State :=
  match n with
  | 0 => some (s.setIp (s.ip &&& ~~~v))
  | 1 => some (s.setIm (v &&& s.cfg.lineMask))
  | 2 => some (s.setIe (v.getLsbD 0))
  | _ => none

/-! ### Memory -/

/-- The byte that a read of a location is sure to find: a byte of a PROM word where `ALIAS` makes it one,
otherwise the stored scratchpad byte under any of its names (R77; log 30). None where nothing is stored,
where a device answers, and in storage that another master shares (R82). -/
def State.held (s : State) (l : Loc) : Option Byte :=
  if s.cfg.isShared l then none
  else
    match s.cfg.promName l with
    | some (a, k) => (Cells.read s.prom a).map (s.cfg.promByte a k)
    | none => (s.cfg.spKey l).bind (Cells.read s.sp)

/-- The byte that a scratchpad read at an address is sure to give, if there is one. -/
def State.spByte (s : State) (a : Nat) : Option Byte := (s.cfg.locateSp a).bind fun l => s.held (.sp l)

/-- The byte a peripheral answers (R72, R76), or another master's storage (R82: "like a peripheral"): the
environment's next answer, or an undetermined byte where it gives none (log 27, log 35). -/
def State.answer (s : State) : Byte × State :=
  match s.answers with
  | [] => (Config.freeByte s.draws, s.drawn 1)
  | v :: l => (v, s.setAnswers l)

/-- `MemRead(SP, addr, 1)` (R72): the stored byte; in storage that another master shares, any byte (R82). -/
def State.readSp (s : State) (a : Nat) : Except Fault (Byte × State) :=
  match s.cfg.locateSp a with
  | none => .error (.unmappedAccess .sp a)
  | some l =>
    match s.held (.sp l) with
    | some v => .ok (v, s)
    | none => if s.cfg.isShared (.sp l) then .ok s.answer else .error (.uninitialisedRead a)

/-- `MemWrite(SP, addr, 1, v)` (R73, R85). -/
def State.writeSp (s : State) (a : Nat) (v : Byte) : Except Fault State :=
  match s.cfg.locateSp a with
  | none => .error (.unmappedAccess .sp a)
  | some l =>
    if s.cfg.isProm (.sp l) then .error .writeToProm
    else .ok (s.setSp (Cells.write s.sp (s.cfg.spCell l) v))

/-- `MemRead(IO, addr, 1)` (R72): the access is an event, with the formed address (D23) and the location it reaches
(log 27); a port that is also a scratchpad or PROM byte reads
what is stored there (R77; log 30), any other reads what the device answers. -/
def State.readIo (s : State) (a : Nat) : Except Fault (Byte × State) :=
  match s.cfg.locateIo a with
  | none => .error (.unmappedAccess .io a)
  | some l =>
    match s.held (.io l) with
    | some v => .ok (v, s.record (.read a l))
    | none => .ok (s.answer.1, s.answer.2.record (.read a l))

/-- `MemWrite(IO, addr, 1, v)` (R73, R85): the access is an event, with the formed address (R238, D23)
and the location it reaches (log 27); a port that is also a scratchpad byte is
written as such (R77; log 30). -/
def State.writeIo (s : State) (a : Nat) (v : Byte) : Except Fault State :=
  match s.cfg.locateIo a with
  | none => .error (.unmappedAccess .io a)
  | some l =>
    if s.cfg.isProm (.io l) then .error .writeToProm
    else
      match s.cfg.spKey (.io l) with
      | none => .ok (s.record (.write a l v))
      | some k => .ok ((s.setSp (Cells.write s.sp k v)).record (.write a l v))

/-! ### Fetching and loading -/

/-- `Fetch(pc)` (R62); a word nothing has programmed faults (log 8). -/
def State.fetch (s : State) : Except Fault Word :=
  if s.pc < s.cfg.promSize then
    match Cells.read s.prom s.pc with
    | none => .error (.unprogrammedWord s.pc)
    | some w => .ok w
  else .error (.pcOutOfRange s.pc)

/-- A word is loaded into the PROM word at the pc, and an entry that would be taken at this boundary is
deferred, so that the next step runs the word (log 36). -/
def State.loadWordAtPc (s : State) (w : Word) : State :=
  let t := s.setProm (Cells.write s.prom s.pc w)
  if t.takesInterrupt then { t with ticks := { t.tick with defer := true } :: t.ticks.tail } else t

end Sys2Proof.Machine
end

