-- ==== Sys2Proof/Machine/Operands.lean ====
section
/-! DEFINITION. The operand forms: the page pointer and the address it forms (R66, R67), the direct and
indirect address forms (R230, R231), and the accesses and register operations that several
instructions share. -/

namespace Sys2Proof.Machine

/-- The page pointer concatenated above a page index (R67), as a 32-bit address whose bits above the
mode's width are 0. The page-pointer registers are read when the instruction executes. -/
def State.paged (s : State) (idx : Byte) : BitVec 32 :=
  match s.cfg.memMode with
  | .small => idx.setWidth 32
  | .medium => (s.reg 13 ++ idx).setWidth 32
  | .large => s.reg 15 ++ s.reg 14 ++ s.reg 13 ++ idx

/-- The address of a direct form (R230): paged or in page 0, by `DIRECT_PAGED` (D16; log 31). -/
def State.directAddr (s : State) (f : Byte) : Nat :=
  if s.cfg.directPaged then (s.paged f).toNat else f.toNat

/-- The address of an indirect form (R231): the page index is the register's contents. -/
def State.indirectAddr (s : State) (rb : RegIdx) : Nat := (s.paged (s.reg rb)).toNat

/-! ### Shared shapes of the meanings -/

/-- A result goes to `Rd`, its carry and zero to the flags, and the pc advances. -/
def State.writeAlu (s : State) (rd : RegIdx) (r : Byte) (carry : Bool) : Out :=
  (((s.setReg rd r).setC carry).setZ (zeroOf r)).advance

/-- A result goes to `Rd`, its zero to Z, C is unchanged, and the pc advances (R150). -/
def State.writeLogic (s : State) (rd : RegIdx) (r : Byte) : Out :=
  ((s.setReg rd r).setZ (zeroOf r)).advance

/-- A result is discarded, its carry and zero go to the flags, and the pc advances (R140). -/
def State.compare (s : State) (r : Byte) (carry : Bool) : Out :=
  ((s.setC carry).setZ (zeroOf r)).advance

/-- An addition with `Rd` as first addend and destination (R130). -/
def State.addTo (s : State) (rd : RegIdx) (b : Byte) (cin : Bool) : Out :=
  let a := add8 (s.reg rd) b cin
  s.writeAlu rd a.r a.carry

/-- A subtraction with `Rd` as minuend and destination (R131). -/
def State.subFrom (s : State) (rd : RegIdx) (b : Byte) (bin : Bool) : Out :=
  let a := sub8 (s.reg rd) b bin
  s.writeAlu rd a.r (carryOfBorrow s.cfg.subCarry a.carry)

/-- A subtraction made for its flags alone (R140, R141). -/
def State.compareWith (s : State) (rd : RegIdx) (b : Byte) : Out :=
  let a := sub8 (s.reg rd) b false
  s.compare a.r (carryOfBorrow s.cfg.subCarry a.carry)

/-- An AND made for the zero flag alone (R157, R158). -/
def State.testWith (s : State) (rd : RegIdx) (b : Byte) : Out :=
  (s.setZ (zeroOf (s.reg rd &&& b))).advance

/-- `Rd` is loaded from the scratchpad (R232, R233). -/
def State.loadSp (s : State) (rd : RegIdx) (ea : Nat) : Out :=
  match s.readSp ea with
  | .error e => .fault e
  | .ok (v, t) => (t.setReg rd v).advance

/-- `Rd` is stored to the scratchpad (R234, R235). -/
def State.storeSp (s : State) (rd : RegIdx) (ea : Nat) : Out :=
  match s.writeSp ea (s.reg rd) with
  | .error e => .fault e
  | .ok t => t.advance

/-- `Rd` is read from a port (R236, R237). -/
def State.loadIo (s : State) (rd : RegIdx) (ea : Nat) : Out :=
  match s.readIo ea with
  | .error e => .fault e
  | .ok (v, t) => (t.setReg rd v).advance

/-- `Rd` is written to a port (R238, R239). -/
def State.storeIo (s : State) (rd : RegIdx) (ea : Nat) : Out :=
  match s.writeIo ea (s.reg rd) with
  | .error e => .fault e
  | .ok t => t.advance

end Sys2Proof.Machine
end

