-- ==== Sys2Proof/Machine/Arithmetic.lean ====
section
/-! DEFINITION. Additions, subtractions and comparisons (spec/40_arithmetic.md). -/

namespace Sys2Proof.Machine

/-- ADD Rd, Rb (R132). -/
def execAdd (rd rb : RegIdx) (s : State) : Out := s.addTo rd (s.reg rb) false

/-- ADDC Rd, Rb (R133). -/
def execAddc (rd rb : RegIdx) (s : State) : Out := s.addTo rd (s.reg rb) s.c

/-- ADDI Rd, C (R134). -/
def execAddi (rd : RegIdx) (c8 : Byte) (s : State) : Out := s.addTo rd c8 false

/-- ADDIC Rd, C (R135). -/
def execAddic (rd : RegIdx) (c8 : Byte) (s : State) : Out := s.addTo rd c8 s.c

/-- SUB Rd, Rb (R136). -/
def execSub (rd rb : RegIdx) (s : State) : Out := s.subFrom rd (s.reg rb) false

/-- SUBC Rd, Rb (R137). -/
def execSubc (rd rb : RegIdx) (s : State) : Out := s.subFrom rd (s.reg rb) s.c

/-- SUBI Rd, C (R138). -/
def execSubi (rd : RegIdx) (c8 : Byte) (s : State) : Out := s.subFrom rd c8 false

/-- SUBIC Rd, C (R139). -/
def execSubic (rd : RegIdx) (c8 : Byte) (s : State) : Out := s.subFrom rd c8 s.c

/-- CMP Rd, Rb (R140). -/
def execCmp (rd rb : RegIdx) (s : State) : Out := s.compareWith rd (s.reg rb)

/-- CMPI Rd, C (R141). -/
def execCmpi (rd : RegIdx) (c8 : Byte) (s : State) : Out := s.compareWith rd c8

end Sys2Proof.Machine
end

