-- ==== Sys2Proof/Machine/Control.lean ====
section
/-! DEFINITION. Branches, calls and returns (spec/44_branch_call.md). -/

namespace Sys2Proof.Machine

/-- B Label (R201). -/
def execB (disp : Int) (s : State) : Out := s.branch true disp

/-- BC Label (R202). -/
def execBc (disp : Int) (s : State) : Out := s.branch s.c disp

/-- BNC Label (R203). -/
def execBnc (disp : Int) (s : State) : Out := s.branch (!s.c) disp

/-- BNZ Label (R204). -/
def execBnz (disp : Int) (s : State) : Out := s.branch (!s.z) disp

/-- BZ Label (R205). -/
def execBz (disp : Int) (s : State) : Out := s.branch s.z disp

/-- CALL Label (R206). -/
def execCall (disp : Int) (s : State) : Out := s.call true disp

/-- CALLC Label (R207). -/
def execCallc (disp : Int) (s : State) : Out := s.call s.c disp

/-- CALLNC Label (R208). -/
def execCallnc (disp : Int) (s : State) : Out := s.call (!s.c) disp

/-- CALLNZ Label (R209). -/
def execCallnz (disp : Int) (s : State) : Out := s.call (!s.z) disp

/-- CALLZ Label (R210). -/
def execCallz (disp : Int) (s : State) : Out := s.call s.z disp

/-- RET (R211). -/
def execRet (s : State) : Out := s.returnFromCall

/-- IRET (R212). Its effect on IE or ISR is by `IRQ_IE_POLICY` (D7; log 24). -/
def execIret (s : State) : Out := s.returnFromInterrupt

end Sys2Proof.Machine
end

