-- ==== Sys2Proof/Machine/FlagCsr.lean ====
section
/-! DEFINITION. Flag and control-register instructions (spec/43_flag_csr.md). None is privileged (R265). -/

namespace Sys2Proof.Machine

/-- CLRC (R180). -/
def execClrc (s : State) : Out := (s.setC false).advance

/-- SETC (R181). -/
def execSetc (s : State) : Out := (s.setC true).advance

/-- CLRZ (R182). -/
def execClrz (s : State) : Out := (s.setZ false).advance

/-- SETZ (R183). -/
def execSetz (s : State) : Out := (s.setZ true).advance

/-- CLRI (R184). -/
def execClri (s : State) : Out := (s.setIe false).advance

/-- SETI (R185). IE becomes 1: the spec's reading D33 (log 18). -/
def execSeti (s : State) : Out := (s.setIe true).advance

/-- RCSR Rd, CRb (R186). Undefined bits are undetermined (D19; log 20). -/
def execRcsr (rd : RegIdx) (csr : Nat) (s : State) : Out :=
  match s.readCsr csr with
  | none => .fault (.reservedCsr csr)
  | some v => ((s.setReg rd v).drawn 1).advance

/-- WCSR CRd, Rb (R187). Z is undetermined (D20; log 19). -/
def execWcsr (csr : Nat) (rb : RegIdx) (s : State) : Out :=
  match s.writeCsr csr (s.reg rb) with
  | none => .fault (.reservedCsr csr)
  | some t => ((t.setZ (Config.freeBit s.draws)).drawn 1).advance

end Sys2Proof.Machine
end

