-- ==== Sys2Proof/Machine/Logic.lean ====
section
/-! DEFINITION. Bitwise logic, tests, moves and NOP (spec/41_logic_move.md). C is unchanged by all of them. -/

namespace Sys2Proof.Machine

/-- AND Rd, Rb (R151). -/
def execAnd (rd rb : RegIdx) (s : State) : Out := s.writeLogic rd (s.reg rd &&& s.reg rb)

/-- ANDI Rd, C (R152). -/
def execAndi (rd : RegIdx) (c8 : Byte) (s : State) : Out := s.writeLogic rd (s.reg rd &&& c8)

/-- OR Rd, Rb (R153). -/
def execOr (rd rb : RegIdx) (s : State) : Out := s.writeLogic rd (s.reg rd ||| s.reg rb)

/-- ORI Rd, C (R154). -/
def execOri (rd : RegIdx) (c8 : Byte) (s : State) : Out := s.writeLogic rd (s.reg rd ||| c8)

/-- XOR Rd, Rb (R155). -/
def execXor (rd rb : RegIdx) (s : State) : Out := s.writeLogic rd (s.reg rd ^^^ s.reg rb)

/-- XORI Rd, C (R156). -/
def execXori (rd : RegIdx) (c8 : Byte) (s : State) : Out := s.writeLogic rd (s.reg rd ^^^ c8)

/-- TEST Rd, Rb (R157). -/
def execTest (rd rb : RegIdx) (s : State) : Out := s.testWith rd (s.reg rb)

/-- TESTI Rd, C (R158). -/
def execTesti (rd : RegIdx) (c8 : Byte) (s : State) : Out := s.testWith rd c8

/-- MOV Rd, Rb (R159). -/
def execMov (rd rb : RegIdx) (s : State) : Out := (s.setReg rd (s.reg rb)).advance

/-- MOVI Rd, C (R160). -/
def execMovi (rd : RegIdx) (c8 : Byte) (s : State) : Out := (s.setReg rd c8).advance

/-- NOP (R161). -/
def execNop (s : State) : Out := s.advance

end Sys2Proof.Machine
end

