-- ==== Sys2Proof/Machine/MemoryIo.lean ====
section
/-! DEFINITION. Scratchpad and peripheral accesses (spec/45_memory_io.md). No flag is changed (R240). -/

namespace Sys2Proof.Machine

/-- LSP Rd, SS (R232). -/
def execLsp (rd : RegIdx) (f : Byte) (s : State) : Out := s.loadSp rd (s.directAddr f)

/-- LSPI Rd, Rb (R233). -/
def execLspi (rd rb : RegIdx) (s : State) : Out := s.loadSp rd (s.indirectAddr rb)

/-- SSP Rd, SS (R234). `Rd` is the register stored. -/
def execSsp (rd : RegIdx) (f : Byte) (s : State) : Out := s.storeSp rd (s.directAddr f)

/-- SSPI Rd, Rb (R235). `Rd` is the register stored. -/
def execSspi (rd rb : RegIdx) (s : State) : Out := s.storeSp rd (s.indirectAddr rb)

/-- IMPORT Rd, Port# (R236). -/
def execImportD (rd : RegIdx) (f : Byte) (s : State) : Out := s.loadIo rd (s.directAddr f)

/-- IMPORTI Rd, Rb (R237). -/
def execImportI (rd rb : RegIdx) (s : State) : Out := s.loadIo rd (s.indirectAddr rb)

/-- EXPORT Rd, Port# (R238). `Rd` is the register written out. -/
def execExportD (rd : RegIdx) (f : Byte) (s : State) : Out := s.storeIo rd (s.directAddr f)

/-- EXPORTI Rd, Rb (R239). `Rd` is the register written out. -/
def execExportI (rd rb : RegIdx) (s : State) : Out := s.storeIo rd (s.indirectAddr rb)

end Sys2Proof.Machine
end

