-- ==== Sys2Proof/Machine/Rotate.lean ====
section
/-! DEFINITION. Rotates by one position (spec/42_rotate.md). The operand is `Rb`, the destination `Rd` (R170). -/

namespace Sys2Proof.Machine

/-- ROL Rd, Rb (R171). `Rb[7]` fills bit 0: the spec's reading D6 (log 17). -/
def execRol (rd rb : RegIdx) (s : State) : Out := s.writeLogic rd (rotateLeft (s.reg rb))

/-- ROLC Rd, Rb (R172). -/
def execRolc (rd rb : RegIdx) (s : State) : Out :=
  let a := rotateLeftCarry (s.reg rb) s.c
  s.writeAlu rd a.r a.carry

/-- ROR Rd, Rb (R173). -/
def execRor (rd rb : RegIdx) (s : State) : Out := s.writeLogic rd (rotateRight (s.reg rb))

/-- RORC Rd, Rb (R174). -/
def execRorc (rd rb : RegIdx) (s : State) : Out :=
  let a := rotateRightCarry (s.reg rb) s.c
  s.writeAlu rd a.r a.carry

end Sys2Proof.Machine
end

