-- ==== Sys2Proof/Machine/Dispatch.lean ====
section
/-! DEFINITION. One arm per constructor of `Instr`: the instruction's own meaning. -/

namespace Sys2Proof.Machine

/-- The meaning of an instruction in a state: its one rule of spec/40 to spec/45 (R12). -/
def exec (i : Instr) (s : State) : Host.Outcome State Fault Refusal :=
  match i with
  | .add rd rb => Sys2Proof.Machine.execAdd rd rb s
  | .addc rd rb => Sys2Proof.Machine.execAddc rd rb s
  | .addi rd c8 => Sys2Proof.Machine.execAddi rd c8 s
  | .addic rd c8 => Sys2Proof.Machine.execAddic rd c8 s
  | .and rd rb => Sys2Proof.Machine.execAnd rd rb s
  | .sub rd rb => Sys2Proof.Machine.execSub rd rb s
  | .subc rd rb => Sys2Proof.Machine.execSubc rd rb s
  | .subi rd c8 => Sys2Proof.Machine.execSubi rd c8 s
  | .subic rd c8 => Sys2Proof.Machine.execSubic rd c8 s
  | .cmp rd rb => Sys2Proof.Machine.execCmp rd rb s
  | .cmpi rd c8 => Sys2Proof.Machine.execCmpi rd c8 s
  | .andi rd c8 => Sys2Proof.Machine.execAndi rd c8 s
  | .or rd rb => Sys2Proof.Machine.execOr rd rb s
  | .ori rd c8 => Sys2Proof.Machine.execOri rd c8 s
  | .xor rd rb => Sys2Proof.Machine.execXor rd rb s
  | .xori rd c8 => Sys2Proof.Machine.execXori rd c8 s
  | .test rd rb => Sys2Proof.Machine.execTest rd rb s
  | .testi rd c8 => Sys2Proof.Machine.execTesti rd c8 s
  | .mov rd rb => Sys2Proof.Machine.execMov rd rb s
  | .movi rd c8 => Sys2Proof.Machine.execMovi rd c8 s
  | .nop => Sys2Proof.Machine.execNop s
  | .rol rd rb => Sys2Proof.Machine.execRol rd rb s
  | .rolc rd rb => Sys2Proof.Machine.execRolc rd rb s
  | .ror rd rb => Sys2Proof.Machine.execRor rd rb s
  | .rorc rd rb => Sys2Proof.Machine.execRorc rd rb s
  | .clrc => Sys2Proof.Machine.execClrc s
  | .setc => Sys2Proof.Machine.execSetc s
  | .clrz => Sys2Proof.Machine.execClrz s
  | .setz => Sys2Proof.Machine.execSetz s
  | .clri => Sys2Proof.Machine.execClri s
  | .seti => Sys2Proof.Machine.execSeti s
  | .rcsr rd csr => Sys2Proof.Machine.execRcsr rd csr s
  | .wcsr csr rb => Sys2Proof.Machine.execWcsr csr rb s
  | .b disp => Sys2Proof.Machine.execB disp s
  | .bc disp => Sys2Proof.Machine.execBc disp s
  | .bnc disp => Sys2Proof.Machine.execBnc disp s
  | .bnz disp => Sys2Proof.Machine.execBnz disp s
  | .bz disp => Sys2Proof.Machine.execBz disp s
  | .call disp => Sys2Proof.Machine.execCall disp s
  | .callc disp => Sys2Proof.Machine.execCallc disp s
  | .callnc disp => Sys2Proof.Machine.execCallnc disp s
  | .callnz disp => Sys2Proof.Machine.execCallnz disp s
  | .callz disp => Sys2Proof.Machine.execCallz disp s
  | .ret => Sys2Proof.Machine.execRet s
  | .iret => Sys2Proof.Machine.execIret s
  | .lsp rd f => Sys2Proof.Machine.execLsp rd f s
  | .lspi rd rb => Sys2Proof.Machine.execLspi rd rb s
  | .ssp rd f => Sys2Proof.Machine.execSsp rd f s
  | .sspi rd rb => Sys2Proof.Machine.execSspi rd rb s
  | .importD rd f => Sys2Proof.Machine.execImportD rd f s
  | .importI rd rb => Sys2Proof.Machine.execImportI rd rb s
  | .exportD rd f => Sys2Proof.Machine.execExportD rd f s
  | .exportI rd rb => Sys2Proof.Machine.execExportI rd rb s

end Sys2Proof.Machine
end

