-- ==== Sys2Proof/Machine/Step.lean ====
section
/-! DEFINITION. The step of R12: sample the request lines, take an interrupt if one is due and not
deferred, otherwise fetch, decode and run one instruction. -/

namespace Sys2Proof.Machine

/-- One step of the machine (R12). -/
def step (s : State) : Host.Outcome State Fault Refusal :=
  if s.takesInterrupt then s.sample.takeInterrupt
  else
    match s.sample.fetch with
    | .error e => .fault e
    | .ok w =>
      match decode s.cfg.enc w with
      | .error _ => .fault (.undefinedInstruction w)
      | .ok i => exec i s.sample

/-- The state with an instruction word stored where the next step fetches: the low 18 bits of `w`, at the PROM
word of the pc. An interrupt that would be taken at this boundary is deferred (log 36). -/
def State.withFetchWord (s : State) (nbits w : Nat) : State :=
  s.loadWordAtPc (BitVec.ofNat 18 (w % 2 ^ nbits))

end Sys2Proof.Machine
end

