-- ==== Sys2Proof/Machine/Boot.lean ====
section
/-! DEFINITION. The initial state when the PROM and the scratchpad come from images in non-volatile storage
(R88, R293): the state after any copy. The copy itself, in time, is not described by the spec. -/

namespace Sys2Proof.Machine

/-- One bit of an instruction word from its three image bytes, none where a byte is missing; `place` is the
bit's byte and bit (`PROM_BYTE_ORDER`, R70). -/
def imageBit (rom : List Host.Cell) (base : Nat) (place : Nat × Nat) : Option Bool :=
  (Cells.read rom (base + place.1)).map (·.getLsbD place.2)

/-- Bits from the lowest up, as a number; none where one is missing. -/
def bitsToNat : List (Option Bool) → Option Nat
  | [] => some 0
  | none :: _ => none
  | some b :: bs => (bitsToNat bs).map fun n => b.toNat + 2 * n

/-- The instruction word at index `a` of the PROM image, three bytes a word from `ROM_BASE` (R88). -/
def imageWord (g : Config) (rom : List Host.Cell) (a : Nat) : Option Word :=
  (bitsToNat (g.promByteOrder.map (imageBit rom (g.romBase + 3 * a)))).map (BitVec.ofNat 18)

/-- The words of the PROM image that the storage holds. -/
def promImage (g : Config) (rom : List Host.Cell) : List (Nat × Word) :=
  (List.range g.promSize).filterMap fun a => (imageWord g rom a).map fun w => (a, w)

/-- The bytes of the scratchpad image, from `ROM_BASE` + `PROM_SIZE` * 3 (R88), each kept where a read of its
offset looks for it. -/
def spImage (g : Config) (rom : List Host.Cell) : List Host.Cell :=
  let base := g.romBase + g.promSize * 3
  spStorage g (rom.filterMap fun c =>
    if base ≤ c.1 ∧ c.1 < base + g.spSize then some (c.1 - base, c.2) else none)

/-- The reset state with the images of `rom` in place: the PROM's with `ROM_EN` or `XIP`, the scratchpad's
with `ROM_EN` (R50, R88). Where an initialisation file is given as well the spec does not say which contents
stand: the image's alone do, and PROM_INIT or SP_INIT is dropped whole, so a word or byte that the image
lacks has no contents (DESIGN CHOICE, log 37). -/
def State.booted (g : Config) (rom : List Host.Cell) : State :=
  let s := State.ofConfig g
  let p := if g.romEn || g.xip then s.setProm (promImage g rom) else s
  if g.romEn then p.setSp (spImage g rom) else p

end Sys2Proof.Machine
end

