-- ==== Sys2Proof/Safety.lean ====
section
/-! DEFINITION. What counts as a safe run and as the end of a run, and the invariant of the machine, in the
terms the statements use. -/

namespace Sys2Proof.Machine

/-- A run of any length from the state meets no fault and no refusal: "every claim proved of a program
includes 'no fault is reached'" (R251). -/
def SafeRun (s : State) : Prop := ∀ n, ∃ t, Host.Core.run Sys2Proof.core n s = .next t

/-- The states some run from a state passes through. -/
def Reaches (s t : State) : Prop := ∃ n, Host.Core.run Sys2Proof.core n s = .next t

/-- The instruction the next step runs if it takes no interrupt: the word at the pc, decoded. -/
def State.nextInstr (s : State) : Option Instr :=
  match s.fetch with
  | .error _ => none
  | .ok w => (decode s.cfg.enc w).toOption

/-- No interrupt can be taken from here on while the program leaves IE, IM and IP alone: IE is 0, or no
pending or coming request is enabled in IM (R294). -/
def State.interruptsQuiet (s : State) : Bool :=
  !s.ie || (s.ip &&& s.im == 0 && s.lines &&& s.cfg.lineMask &&& s.im == 0
    && s.ticks.all fun t => t.lines &&& s.cfg.lineMask &&& s.im == 0)

/-- "A run has ended when `pc = HALT_PC`, the word there decodes as `B` with displacement 0, and no interrupt
can be taken" (R294). -/
def State.ended (s : State) : Bool :=
  s.cfg.haltPc == some s.pc && s.nextInstr == some (.b 0) && s.interruptsQuiet

/-- The entries of the call stack name PROM words, or the index just past the last (R206). -/
def State.stackWf (s : State) : Bool :=
  decide (s.stack.length ≤ s.cfg.stackDepth.toNat)
    && s.stack.all fun f => decide (f.addr ≤ s.cfg.promSize)

/-- Storage is in canonical form and lists only locations of its region (R45, R61, R65). -/
def State.storageWf (s : State) : Bool :=
  Memory.wf s.sp && (s.sp.all fun c => decide (c.1 < s.cfg.spSize))
    && Memory.wf s.prom && (s.prom.all fun c => decide (c.1 < s.cfg.promSize))

/-- The CSRs hold no bit of an absent line (R36), and the in-service bit is used under `in_service` only
(R46). -/
def State.csrWf (s : State) : Bool :=
  s.ip &&& ~~~s.cfg.lineMask == 0 && s.im &&& ~~~s.cfg.lineMask == 0
    && (s.cfg.irqPolicy == .inService || !s.isr)

/-- With 16 registers the upper half of the register file does not exist: it stays as reset leaves it (R20,
R21; log 41). -/
def State.regsWf (s : State) : Bool :=
  s.cfg.nregs == .r32 || (s.regs.toList.drop 16).all (· == 0)

/-- The invariant of the machine: a legal configuration, a pc inside the PROM (R25), and every part of the
state in its own form. -/
def State.wf (s : State) : Bool :=
  s.cfg.wf && decide (s.pc < s.cfg.promSize) && s.stackWf && s.storageWf && s.csrWf && s.regsWf

end Sys2Proof.Machine
end

