-- ==== Sys2Proof/Certificates/Slice0/Obligations.lean ====
section
/-! DEFINITION. The statements for the provers. All are about every state, and so about every configuration
(the record is a field of the state, log 1); none rests on a value of a free value or of an environment
input. "Its register" stands for the physical register a field names (R21). -/

open Sys2Proof Sys2Proof.Machine

namespace Sys2Proof.Claims

/-- The next instruction's index is a word of the PROM (R27 does not apply to falling through). -/
def Falls (s : State) : Prop := s.pc + 1 < s.cfg.promSize

/-- The state that differs from `s` in the register of `rd`, the two flags and the pc, which advances. -/
def aluNext (s : State) (rd : RegIdx) (r : Byte) (c z : Bool) : State :=
  { s with regs := s.regs.set (s.cfg.phys rd).val r, c := c, z := z, pc := s.pc + 1 }

/-- The next state of an addition whose exact sum is `n` (R130): the sum modulo 256, the ninth bit, and
whether the eight bits are 0. -/
def sumNext (s : State) (rd : RegIdx) (n : Nat) : State :=
  aluNext s rd (BitVec.ofNat 8 n) (decide (256 ≤ n)) (decide (n % 256 = 0))

/-- The carry flag a subtraction leaves, by `SUB_CARRY` (R131). -/
def carryAfterSub (s : State) (borrow : Bool) : Bool :=
  if s.cfg.subCarry = .borrow then borrow else !borrow

/-- The next state of a subtraction of `b` and the bit `bin` from the register of `rd` (R131). -/
def diffNext (s : State) (rd : RegIdx) (b : Byte) (bin : Bool) : State :=
  let r := s.reg rd - b - (BitVec.ofBool bin).setWidth 8
  aluNext s rd r (carryAfterSub s (decide ((s.reg rd).toNat < b.toNat + bin.toNat))) (decide (r = 0))

/-- The next state of a comparison with `b`: the flags of the subtraction, no register (R140). -/
def compareNext (s : State) (rd : RegIdx) (b : Byte) : State :=
  { s with
    c := carryAfterSub s (decide ((s.reg rd).toNat < b.toNat))
    z := decide (s.reg rd = b)
    pc := s.pc + 1 }

/-- The next state of a logic instruction with result `r` (R150): C unchanged. -/
def logicNext (s : State) (rd : RegIdx) (r : Byte) : State := aluNext s rd r s.c (decide (r = 0))

/-- The next state of a test with result `r` (R157): no register, C unchanged. -/
def testNext (s : State) (r : Byte) : State := { s with z := decide (r = 0), pc := s.pc + 1 }

/-- The next state of a jump inside the PROM to `t`. -/
def jumpNext (s : State) (t : Int) : State := { s with pc := t.toNat }

/-- `t` is an index of a PROM word (R25). -/
def InProm (s : State) (t : Int) : Prop := 0 ≤ t ∧ t < (s.cfg.promSize : Int)

/-- The next state of a call that is taken: an entry with the next instruction's address and some flag
slots on the call stack (R206). -/
def callNext (s : State) (d : Int) (c z : Bool) : State :=
  { s with
    stack := { addr := s.pc + 1, c := c, z := z } :: s.stack
    pc := (s.pc + d).toNat
    draws := s.draws + 2 }

/-- The call stack has room for one more entry (R43). -/
def HasRoom (s : State) : Prop := s.stack.length < s.cfg.stackDepth.toNat

/-- The next state of a read that is not stored in this machine: a byte goes to the register of `rd`, the
environment's next answer is used up, and `n` undetermined values are drawn. -/
def answeredNext (s : State) (rd : RegIdx) (v : Byte) (n : Nat) : State :=
  { aluNext s rd v s.c s.z with answers := s.answers.tail, draws := s.draws + n }

/-- The byte is the environment's next answer, where it gives one; otherwise it may be any (D23). -/
def Answers (s : State) (v : Byte) : Prop := ∀ a as, s.answers = a :: as → v = a

/-- The scratchpad bytes at every address but those of the storage cell `k` read as before. -/
def KeepsOtherBytes (s t : State) (k : Nat) : Prop :=
  ∀ a l, s.cfg.locateSp a = some l → s.cfg.spCell l ≠ k → t.spByte a = s.spByte a

/-- The instruction sets the pc to something else than the next index in this state: a branch or a call that
is taken, RET, IRET (R26). -/
def transfers (s : State) : Instr → Bool
  | .b _ | .call _ | .ret | .iret => true
  | .bc _ | .callc _ => s.c
  | .bnc _ | .callnc _ => !s.c
  | .bz _ | .callz _ => s.z
  | .bnz _ | .callnz _ => !s.z
  | _ => false

/-- The fault of a result, if it is one. -/
def faultOf {α : Type} : Except Fault α → Option Fault
  | .error e => some e
  | .ok _ => none

/-- The fault that an instruction's operand reads and memory access meet, which comes before PcOutOfRange in
the order of R251. -/
def operandFault (s : State) : Instr → Option Fault
  | .rcsr _ n | .wcsr n _ => if 3 ≤ n then some (.reservedCsr n) else none
  | .lsp _ f => faultOf (s.readSp (s.directAddr f))
  | .lspi _ rb => faultOf (s.readSp (s.indirectAddr rb))
  | .ssp rd f => faultOf (s.writeSp (s.directAddr f) (s.reg rd))
  | .sspi rd rb => faultOf (s.writeSp (s.indirectAddr rb) (s.reg rd))
  | .importD _ f => faultOf (s.readIo (s.directAddr f))
  | .importI _ rb => faultOf (s.readIo (s.indirectAddr rb))
  | .exportD rd f => faultOf (s.writeIo (s.directAddr f) (s.reg rd))
  | .exportI rd rb => faultOf (s.writeIo (s.indirectAddr rb) (s.reg rd))
  | _ => none

/-- The instructions one after another; stops at the first fault or refusal. -/
def execs : List Instr → State → Out
  | [], s => .next s
  | i :: is, s =>
    match exec i s with
    | .next t => execs is t
    | .fault e => .fault e
    | .refused r => .refused r

/-- The instructions the table of R29 marks as writing C. -/
def writesCarry : Instr → Bool
  | .add .. | .addc .. | .addi .. | .addic .. | .sub .. | .subc .. | .subi .. | .subic .. | .cmp ..
  | .cmpi .. | .rolc .. | .rorc .. | .clrc | .setc | .iret => true
  | _ => false

/-- The instructions the table of R29 marks as writing Z, WCSR among them. -/
def writesZero : Instr → Bool
  | .add .. | .addc .. | .addi .. | .addic .. | .sub .. | .subc .. | .subi .. | .subic .. | .cmp ..
  | .cmpi .. | .and .. | .andi .. | .or .. | .ori .. | .xor .. | .xori .. | .test .. | .testi ..
  | .rol .. | .ror .. | .rolc .. | .rorc .. | .clrz | .setz | .iret | .wcsr .. => true
  | _ => false

/-- The destination register of the instructions R22 lists as writing one. -/
def destination : Instr → Option RegIdx
  | .add rd _ | .addc rd _ | .addi rd _ | .addic rd _ | .sub rd _ | .subc rd _ | .subi rd _
  | .subic rd _ | .and rd _ | .andi rd _ | .or rd _ | .ori rd _ | .xor rd _ | .xori rd _ | .mov rd _
  | .movi rd _ | .rol rd _ | .rolc rd _ | .ror rd _ | .rorc rd _ | .lsp rd _ | .lspi rd _
  | .importD rd _ | .importI rd _ | .rcsr rd _ => some rd
  | _ => none

/-- The instructions that may store to the scratchpad: SSP and SSPI, and EXPORT and EXPORTI where a port
is aliased to a scratchpad byte (R77, R240). -/
def mayStore : Instr → Bool
  | .ssp .. | .sspi .. | .exportD .. | .exportI .. => true
  | _ => false

/-- The instructions that access the peripheral space (R60). -/
def accessesIo : Instr → Bool
  | .importD .. | .importI .. | .exportD .. | .exportI .. => true
  | _ => false

/-- Calls. -/
def isCall : Instr → Bool
  | .call _ | .callc _ | .callnc _ | .callnz _ | .callz _ => true
  | _ => false

end Sys2Proof.Claims

open Sys2Proof.Claims

/-! ### Arithmetic -/

/-- R130: ADD, ADDC, ADDI and ADDIC complete, with the exact sum cut to 8 bits, its ninth bit in C, and Z
for the eight bits of this result alone; nothing else changes but the pc. -/
def Obligations.AdditionsGiveSumCarryAndZero : Prop :=
  ∀ (s : State) (rd rb : RegIdx) (c8 : Byte), Falls s →
    exec (.add rd rb) s = .next (sumNext s rd ((s.reg rd).toNat + (s.reg rb).toNat)) ∧
    exec (.addc rd rb) s =
      .next (sumNext s rd ((s.reg rd).toNat + (s.reg rb).toNat + s.c.toNat)) ∧
    exec (.addi rd c8) s = .next (sumNext s rd ((s.reg rd).toNat + c8.toNat)) ∧
    exec (.addic rd c8) s = .next (sumNext s rd ((s.reg rd).toNat + c8.toNat + s.c.toNat))

/-- SUB, SUBC, SUBI and SUBIC complete: the difference modulo 256, C from the borrow by `SUB_CARRY`, Z from
the result; nothing else changes but the pc. The polarity and the zero rule are the spec's own choices
D5 and D28 (log 16, log 32). -/
def Obligations.SubtractionsGiveDifferenceBorrowAndZero : Prop :=
  ∀ (s : State) (rd rb : RegIdx) (c8 : Byte), Falls s →
    exec (.sub rd rb) s = .next (diffNext s rd (s.reg rb) false) ∧
    exec (.subc rd rb) s = .next (diffNext s rd (s.reg rb) s.c) ∧
    exec (.subi rd c8) s = .next (diffNext s rd c8 false) ∧
    exec (.subic rd c8) s = .next (diffNext s rd c8 s.c)

/-- CMP and CMPI complete and write the flags alone: Z exactly when the two are equal, C by `SUB_CARRY`
from the unsigned comparison. Rests on D5 and D28 (log 16, log 32). -/
def Obligations.ComparesSetFlagsAsUnsignedOrder : Prop :=
  ∀ (s : State) (rd rb : RegIdx) (c8 : Byte), Falls s →
    exec (.cmp rd rb) s = .next (compareNext s rd (s.reg rb)) ∧
    exec (.cmpi rd c8) s = .next (compareNext s rd c8)

/-- A 16-bit addition is ADD on the low bytes and ADDC on the high bytes (R142: "Wider arithmetic is composed
from ADD/ADDC and SUB/SUBC chains through the carry flag"): both complete, the two destination
registers hold the 16-bit sum, and C its carry out. The low destination may be neither register of the
high addition. -/
def Obligations.AddThenAddcIsSixteenBitSum : Prop :=
  ∀ (s : State) (lo lo2 hi hi2 : RegIdx), s.pc + 2 < s.cfg.promSize →
    s.cfg.phys lo ≠ s.cfg.phys hi → s.cfg.phys lo ≠ s.cfg.phys hi2 →
    ∃ t, execs [.add lo lo2, .addc hi hi2] s = .next t ∧
      t.reg hi ++ t.reg lo = (s.reg hi ++ s.reg lo) + (s.reg hi2 ++ s.reg lo2) ∧
      t.c = decide (2 ^ 16 ≤ (s.reg hi ++ s.reg lo).toNat + (s.reg hi2 ++ s.reg lo2).toNat) ∧
      t.pc = s.pc + 2

/-- With `SUB_CARRY` = borrow, a 16-bit subtraction is SUB on the low bytes and SUBC on the high bytes (R131,
D5; log 16): the two destinations hold the 16-bit difference and C its borrow. -/
def Obligations.SubThenSubcIsSixteenBitDifference : Prop :=
  ∀ (s : State) (lo lo2 hi hi2 : RegIdx), s.pc + 2 < s.cfg.promSize → s.cfg.subCarry = .borrow →
    s.cfg.phys lo ≠ s.cfg.phys hi → s.cfg.phys lo ≠ s.cfg.phys hi2 →
    ∃ t, execs [.sub lo lo2, .subc hi hi2] s = .next t ∧
      t.reg hi ++ t.reg lo = (s.reg hi ++ s.reg lo) - (s.reg hi2 ++ s.reg lo2) ∧
      t.c = decide ((s.reg hi ++ s.reg lo).toNat < (s.reg hi2 ++ s.reg lo2).toNat) ∧
      t.pc = s.pc + 2

/-! ### Logic, test, move, NOP -/

/-- AND, ANDI, OR, ORI, XOR and XORI complete: the bitwise result, Z from it, C unchanged; nothing else
changes but the pc. The zero rule of all but AND is the spec's analogy D28 (log 32). -/
def Obligations.LogicWritesResultAndZero : Prop :=
  ∀ (s : State) (rd rb : RegIdx) (c8 : Byte), Falls s →
    exec (.and rd rb) s = .next (logicNext s rd (s.reg rd &&& s.reg rb)) ∧
    exec (.andi rd c8) s = .next (logicNext s rd (s.reg rd &&& c8)) ∧
    exec (.or rd rb) s = .next (logicNext s rd (s.reg rd ||| s.reg rb)) ∧
    exec (.ori rd c8) s = .next (logicNext s rd (s.reg rd ||| c8)) ∧
    exec (.xor rd rb) s = .next (logicNext s rd (s.reg rd ^^^ s.reg rb)) ∧
    exec (.xori rd c8) s = .next (logicNext s rd (s.reg rd ^^^ c8))

/-- TEST and TESTI complete and write Z alone, from the AND. The zero rule is D28 (log 32). -/
def Obligations.TestsWriteZeroAlone : Prop :=
  ∀ (s : State) (rd rb : RegIdx) (c8 : Byte), Falls s →
    exec (.test rd rb) s = .next (testNext s (s.reg rd &&& s.reg rb)) ∧
    exec (.testi rd c8) s = .next (testNext s (s.reg rd &&& c8))

/-- R159, R160: MOV and MOVI complete, copy to the register of `Rd`, and write no flag. -/
def Obligations.MovesCopyAndWriteNoFlag : Prop :=
  ∀ (s : State) (rd rb : RegIdx) (c8 : Byte), Falls s →
    exec (.mov rd rb) s = .next (aluNext s rd (s.reg rb) s.c s.z) ∧
    exec (.movi rd c8) s = .next (aluNext s rd c8 s.c s.z)

/-- R161: NOP completes and changes nothing but the pc. -/
def Obligations.NopOnlyAdvances : Prop :=
  ∀ s : State, Falls s → exec .nop s = .next { s with pc := s.pc + 1 }

/-! ### Rotates -/

/-- ROL and ROR complete with the operand of `Rb` rotated by one, Z from the result, C unchanged. ROL's low
bit is the spec's reading D6 (log 17), the zero rule D28 (log 32). -/
def Obligations.RotatesMoveOneBit : Prop :=
  ∀ (s : State) (rd rb : RegIdx), Falls s →
    exec (.rol rd rb) s = .next (logicNext s rd ((s.reg rb).rotateLeft 1)) ∧
    exec (.ror rd rb) s = .next (logicNext s rd ((s.reg rb).rotateRight 1))

/-- ROLC and RORC complete and are the rotations by one of the nine bits of the carry and the operand: to the
left with the carry as the top bit, to the right with the carry as the bottom bit. The zero rule is D28
(log 32). -/
def Obligations.CarryRotatesAreNineBitRotations : Prop :=
  ∀ (s : State) (rd rb : RegIdx), Falls s →
    (∃ r c, exec (.rolc rd rb) s = .next (aluNext s rd r c (decide (r = 0))) ∧
      BitVec.ofBool c ++ r = (BitVec.ofBool s.c ++ s.reg rb).rotateLeft 1) ∧
    (∃ r c, exec (.rorc rd rb) s = .next (aluNext s rd r c (decide (r = 0))) ∧
      r ++ BitVec.ofBool c = (s.reg rb ++ BitVec.ofBool s.c).rotateRight 1)

/-- R171 to R173: ROR undoes ROL; eight ROLs of a register onto itself restore it, and nine ROLCs (or RORCs)
restore it and the carry. ROL's low bit is the spec's reading D6 (log 17). -/
def Obligations.RotatesComeFullCircle : Prop :=
  ∀ (s : State) (r q : RegIdx), s.pc + 9 < s.cfg.promSize →
    (∃ t, execs [.rol q r, .ror q q] s = .next t ∧ t.reg q = s.reg r) ∧
    (∃ t, execs (List.replicate 8 (.rol r r)) s = .next t ∧ t.reg r = s.reg r) ∧
    (∃ t, execs (List.replicate 9 (.rolc r r)) s = .next t ∧ t.reg r = s.reg r ∧ t.c = s.c) ∧
    (∃ t, execs (List.replicate 9 (.rorc r r)) s = .next t ∧ t.reg r = s.reg r ∧ t.c = s.c)

/-! ### Flags and control registers -/

/-- R180 to R183: CLRC, SETC, CLRZ and SETZ complete and change one flag and the pc. -/
def Obligations.FlagInstructionsSetOneFlag : Prop :=
  ∀ s : State, Falls s →
    exec .clrc s = .next { s with c := false, pc := s.pc + 1 } ∧
    exec .setc s = .next { s with c := true, pc := s.pc + 1 } ∧
    exec .clrz s = .next { s with z := false, pc := s.pc + 1 } ∧
    exec .setz s = .next { s with z := true, pc := s.pc + 1 }

/-- CLRI and SETI complete and change IE and the pc. That SETI sets IE is the spec's reading D33 of a
misprint (log 18). -/
def Obligations.CliSetiWriteInterruptEnable : Prop :=
  ∀ s : State, Falls s →
    exec .clri s = .next { s with ie := false, pc := s.pc + 1 } ∧
    exec .seti s = .next { s with ie := true, pc := s.pc + 1 }

/-- RCSR completes for the indices 0, 1, 2: every defined bit of the CSR goes to the register of `Rd`, no
flag and no CSR changes; with 8 lines IP and IM read whole. The undefined bits are any value (D19, log
20): the statement says nothing of them. -/
def Obligations.RcsrReadsDefinedBits : Prop :=
  ∀ (s : State) (rd : RegIdx), Falls s → ∀ n < 3, ∃ v : Byte,
    exec (.rcsr rd n) s = .next { aluNext s rd v s.c s.z with draws := s.draws + 1 } ∧
    (n = 0 → v &&& s.cfg.lineMask = s.ip &&& s.cfg.lineMask ∧ (s.cfg.interrupts = 8 → v = s.ip)) ∧
    (n = 1 → v &&& s.cfg.lineMask = s.im &&& s.cfg.lineMask ∧ (s.cfg.interrupts = 8 → v = s.im)) ∧
    (n = 2 → v.getLsbD 0 = s.ie)

/-- WCSR completes for the indices 0, 1, 2: a 1 clears an IP bit and a 0 leaves it; IM takes the bits of the
configured lines; IE takes bit 0. C and every register are unchanged; Z is any value (D20, log 19). -/
def Obligations.WcsrWritesOneRegister : Prop :=
  ∀ (s : State) (rb : RegIdx), Falls s → ∃ z : Bool,
    exec (.wcsr 0 rb) s =
      .next { s with ip := s.ip &&& ~~~(s.reg rb), z := z, pc := s.pc + 1, draws := s.draws + 1 } ∧
    exec (.wcsr 1 rb) s =
      .next { s with
        im := s.reg rb &&& s.cfg.lineMask, z := z, pc := s.pc + 1, draws := s.draws + 1 } ∧
    exec (.wcsr 2 rb) s =
      .next { s with ie := (s.reg rb).getLsbD 0, z := z, pc := s.pc + 1, draws := s.draws + 1 }

/-- RCSR and WCSR stop on an index that names no CSR. The fault is the spec's own choice D18 (log 21). -/
def Obligations.ReservedCsrIndexFaults : Prop :=
  ∀ (s : State) (r : RegIdx) (n : Nat), 3 ≤ n →
    exec (.rcsr r n) s = .fault (.reservedCsr n) ∧ exec (.wcsr n r) s = .fault (.reservedCsr n)

/-- R33, R254: no instruction but WCSR to index 0 changes IP, and no step clears a pending bit but by it. That
a pending bit stays until then, and does not fall with its line, is the spec's own choice D29 (log 26). -/
def Obligations.PendingBitsClearedOnlyByWcsr : Prop :=
  (∀ (i : Instr) (s t : State), exec i s = .next t → (∀ rb, i ≠ .wcsr 0 rb) → t.ip = s.ip) ∧
  (∀ s t : State, step s = .next t → t.ip &&& s.ip ≠ s.ip →
    s.takesInterrupt = false ∧ ∃ w rb, s.sample.fetch = .ok w ∧
      decode s.cfg.enc w = .ok (.wcsr 0 rb))

/-- R34, R35: IM is written by WCSR to index 1 alone; IE by CLRI, SETI, WCSR to index 2 and IRET alone; ISR
(R46) by IRET alone, and only under `in_service`. Interrupt entry is not an instruction. -/
def Obligations.MaskAndEnableWritersAreThese : Prop :=
  ∀ (i : Instr) (s t : State), exec i s = .next t →
    ((∀ rb, i ≠ .wcsr 1 rb) → t.im = s.im) ∧
    (i ≠ .clri → i ≠ .seti → (∀ rb, i ≠ .wcsr 2 rb) → i ≠ .iret → t.ie = s.ie) ∧
    (i ≠ .iret ∨ s.cfg.irqPolicy = .auto → t.isr = s.isr)

/-! ### Control transfer -/

/-- B, and BC, BNC, BNZ, BZ when their condition holds, complete at `pc + disp` where that is a PROM word;
nothing but the pc changes. That the sum is over the integers is D3 and D4 (log 12, log 15). -/
def Obligations.TakenBranchesGoToTarget : Prop :=
  ∀ (s : State) (d : Int), InProm s (s.pc + d) →
    exec (.b d) s = .next (jumpNext s (s.pc + d)) ∧
    (s.c = true → exec (.bc d) s = .next (jumpNext s (s.pc + d))) ∧
    (s.c = false → exec (.bnc d) s = .next (jumpNext s (s.pc + d))) ∧
    (s.z = false → exec (.bnz d) s = .next (jumpNext s (s.pc + d))) ∧
    (s.z = true → exec (.bz d) s = .next (jumpNext s (s.pc + d)))

/-- The conditional branches and calls, when their condition does not hold, complete at the next instruction
and change nothing but the pc: a call that is not taken pushes nothing (R202 to R205, R207 to R210). -/
def Obligations.UntakenBranchesAndCallsFallThrough : Prop :=
  ∀ (s : State) (d : Int), Falls s →
    (s.c = false → exec (.bc d) s = .next { s with pc := s.pc + 1 } ∧
      exec (.callc d) s = .next { s with pc := s.pc + 1 }) ∧
    (s.c = true → exec (.bnc d) s = .next { s with pc := s.pc + 1 } ∧
      exec (.callnc d) s = .next { s with pc := s.pc + 1 }) ∧
    (s.z = true → exec (.bnz d) s = .next { s with pc := s.pc + 1 } ∧
      exec (.callnz d) s = .next { s with pc := s.pc + 1 }) ∧
    (s.z = false → exec (.bz d) s = .next { s with pc := s.pc + 1 } ∧
      exec (.callz d) s = .next { s with pc := s.pc + 1 })

/-- CALL, and the conditional calls when their condition holds, complete where the stack has room and the
target is a PROM word: the address of the next instruction is pushed, with some flag slots (any value,
D12, log 22), and the flags do not change. -/
def Obligations.TakenCallsPushReturnAddress : Prop :=
  ∀ (s : State) (d : Int), HasRoom s → InProm s (s.pc + d) → ∃ c z : Bool,
    exec (.call d) s = .next (callNext s d c z) ∧
    (s.c = true → exec (.callc d) s = .next (callNext s d c z)) ∧
    (s.c = false → exec (.callnc d) s = .next (callNext s d c z)) ∧
    (s.z = false → exec (.callnz d) s = .next (callNext s d c z)) ∧
    (s.z = true → exec (.callz d) s = .next (callNext s d c z))

/-- A taken call, and an interrupt entry, on a full stack stop with CallStackOverflow, whatever the target.
The fault is the spec's own choice D11 (log 23). -/
def Obligations.FullStackFaults : Prop :=
  ∀ (s : State) (d : Int), ¬HasRoom s →
    exec (.call d) s = .fault .callStackOverflow ∧
    (s.c = true → exec (.callc d) s = .fault .callStackOverflow) ∧
    (s.c = false → exec (.callnc d) s = .fault .callStackOverflow) ∧
    (s.z = false → exec (.callnz d) s = .fault .callStackOverflow) ∧
    (s.z = true → exec (.callz d) s = .fault .callStackOverflow) ∧
    (s.takesInterrupt = true → step s = .fault .callStackOverflow)

/-- RET completes at the address of the first entry of the stack, which it removes; the flags of the entry
are discarded and C and Z do not change (R42, R211). The stack's faults are D11 (log 23). -/
def Obligations.RetContinuesAtTopOfStack : Prop :=
  ∀ (s : State) (f : Frame) (k : List Frame), s.stack = f :: k → f.addr < s.cfg.promSize →
    exec .ret s = .next { s with stack := k, pc := f.addr }

/-- IRET completes at the address of the first entry, restores C and Z from it, and unblocks interrupt entry:
IE becomes 1 under `auto`, ISR becomes 0 under `in_service`. The policy is the open point D7 (log 24);
both values are covered. -/
def Obligations.IretRestoresPcFlagsAndUnblocks : Prop :=
  ∀ (s : State) (f : Frame) (k : List Frame), s.stack = f :: k → f.addr < s.cfg.promSize →
    (s.cfg.irqPolicy = .auto →
      exec .iret s =
        .next { s with stack := k, pc := f.addr, c := f.c, z := f.z, ie := true }) ∧
    (s.cfg.irqPolicy = .inService →
      exec .iret s =
        .next { s with stack := k, pc := f.addr, c := f.c, z := f.z, isr := false })

/-- RET and IRET stop on an empty stack (the spec's own choice D11, log 23), and with PcOutOfRange on an entry
whose address is past the PROM (D3, log 15). -/
def Obligations.ReturnsFaultWithoutAPlaceToGo : Prop :=
  ∀ s : State,
    (s.stack = [] → exec .ret s = .fault .callStackUnderflow ∧
      exec .iret s = .fault .callStackUnderflow) ∧
    (∀ (f : Frame) (k : List Frame), s.stack = f :: k → s.cfg.promSize ≤ f.addr →
      exec .ret s = .fault (.pcOutOfRange f.addr) ∧
      exec .iret s = .fault (.pcOutOfRange f.addr))

/-- A taken branch, and a taken call on a stack with room, whose target is outside the PROM stop with
PcOutOfRange; so does, at the last PROM word, every instruction that falls through, untaken branches and
calls included, unless an operand read or its memory access faults before (the order of R251): no
wrap-around. The spec's own choice D3 (log 15). -/
def Obligations.LeavingPromFaults : Prop :=
  (∀ (s : State) (d : Int), ¬InProm s (s.pc + d) →
    exec (.b d) s = .fault (.pcOutOfRange (s.pc + d)) ∧
    (s.c = true → exec (.bc d) s = .fault (.pcOutOfRange (s.pc + d))) ∧
    (s.c = false → exec (.bnc d) s = .fault (.pcOutOfRange (s.pc + d))) ∧
    (s.z = false → exec (.bnz d) s = .fault (.pcOutOfRange (s.pc + d))) ∧
    (s.z = true → exec (.bz d) s = .fault (.pcOutOfRange (s.pc + d))) ∧
    (HasRoom s → exec (.call d) s = .fault (.pcOutOfRange (s.pc + d)) ∧
      (s.c = true → exec (.callc d) s = .fault (.pcOutOfRange (s.pc + d))) ∧
      (s.c = false → exec (.callnc d) s = .fault (.pcOutOfRange (s.pc + d))) ∧
      (s.z = false → exec (.callnz d) s = .fault (.pcOutOfRange (s.pc + d))) ∧
      (s.z = true → exec (.callz d) s = .fault (.pcOutOfRange (s.pc + d))))) ∧
  (∀ (s : State) (i : Instr), s.pc + 1 = s.cfg.promSize → transfers s i = false →
    exec i s = .fault ((operandFault s i).getD (.pcOutOfRange s.cfg.promSize)))

/-! ### Scratchpad and peripherals -/

/-- R66, R67, R231: the address of an indirect form, as a number, in each memory mode. -/
def Obligations.IndirectAddressByMemoryMode : Prop :=
  ∀ (s : State) (rb : RegIdx),
    (s.cfg.memMode = .small → s.indirectAddr rb = (s.reg rb).toNat) ∧
    (s.cfg.memMode = .medium → s.indirectAddr rb = 256 * (s.reg 13).toNat + (s.reg rb).toNat) ∧
    (s.cfg.memMode = .large → s.indirectAddr rb =
      16777216 * (s.reg 15).toNat + 65536 * (s.reg 14).toNat + 256 * (s.reg 13).toNat
        + (s.reg rb).toNat)

/-- R230: the address of a direct form: page 0 with `DIRECT_PAGED` false and in small mode, otherwise the
page pointer above the field. `DIRECT_PAGED` is the open point D16 (log 31); both values are covered. -/
def Obligations.DirectAddressByPagingAndMode : Prop :=
  ∀ (s : State) (f : Byte),
    (s.cfg.directPaged = false ∨ s.cfg.memMode = .small → s.directAddr f = f.toNat) ∧
    (s.cfg.directPaged = true → s.cfg.memMode = .medium →
      s.directAddr f = 256 * (s.reg 13).toNat + f.toNat) ∧
    (s.cfg.directPaged = true → s.cfg.memMode = .large → s.directAddr f =
      16777216 * (s.reg 15).toNat + 65536 * (s.reg 14).toNat + 256 * (s.reg 13).toNat + f.toNat)

/-- LSP and LSPI complete where the addressed location holds a byte (a stored scratchpad byte, or a byte of a
PROM word by overlap): it goes to the register of `Rd`; no flag and no memory changes. That a load of an
overlapped location gives the byte of the PROM word is the model's reading of R77 (log 30), which R240
does not say. In storage that another master shares they complete with any byte, as a peripheral's (R82,
D27; log 35). -/
def Obligations.ScratchpadLoadsComplete : Prop :=
  ∀ (s : State) (rd rb : RegIdx) (f : Byte), Falls s →
    (∀ v, s.spByte (s.directAddr f) = some v →
      exec (.lsp rd f) s = .next (aluNext s rd v s.c s.z)) ∧
    (∀ v, s.spByte (s.indirectAddr rb) = some v →
      exec (.lspi rd rb) s = .next (aluNext s rd v s.c s.z)) ∧
    ∃ v n, Answers s v ∧ ∀ l, s.cfg.isShared (.sp l) = true →
      (s.cfg.locateSp (s.directAddr f) = some l →
        exec (.lsp rd f) s = .next (answeredNext s rd v n)) ∧
      (s.cfg.locateSp (s.indirectAddr rb) = some l →
        exec (.lspi rd rb) s = .next (answeredNext s rd v n))

/-- SSP and SSPI complete where the address has a location that is not aliased to a PROM word: the address
then gives the byte stored (unless another master shares the storage, R82, log 35), every other scratchpad cell
reads as before, and nothing else changes but the pc. -/
def Obligations.ScratchpadStoresComplete : Prop :=
  ∀ (s : State) (rd rb : RegIdx) (f : Byte) (l : Nat), Falls s → s.cfg.isProm (.sp l) = false →
    (s.cfg.locateSp (s.directAddr f) = some l →
      ∃ t, exec (.ssp rd f) s = .next t ∧
        (s.cfg.isShared (.sp l) = false → t.spByte (s.directAddr f) = some (s.reg rd)) ∧
        KeepsOtherBytes s t (s.cfg.spCell l) ∧ t = { s with sp := t.sp, pc := s.pc + 1 }) ∧
    (s.cfg.locateSp (s.indirectAddr rb) = some l →
      ∃ t, exec (.sspi rd rb) s = .next t ∧
        (s.cfg.isShared (.sp l) = false → t.spByte (s.indirectAddr rb) = some (s.reg rd)) ∧
        KeepsOtherBytes s t (s.cfg.spCell l) ∧ t = { s with sp := t.sp, pc := s.pc + 1 })

/-- With no overlap and the offset reading of `SpLocate` (the spec's defaults, D22; log 29, log 30), SSPI
changes the byte at one address only: every other address reads as before. -/
def Obligations.StoreLeavesOtherAddresses : Prop :=
  ∀ (s t : State) (rd rb : RegIdx), s.cfg.spLocate = .offset → s.cfg.aliases = [] →
    exec (.sspi rd rb) s = .next t →
    (s.cfg.isShared (.sp (s.indirectAddr rb)) = false →
      t.spByte (s.indirectAddr rb) = some (s.reg rd)) ∧
      ∀ a, a ≠ s.indirectAddr rb → t.spByte a = s.spByte a

/-- R72, R73, R82: a byte stored by SSPI where no other master shares the storage is what LSPI through the same
index register then loads, wherever the load's destination is, even the index register or a page
pointer. -/
def Obligations.StoreThenLoadReturnsByte : Prop :=
  ∀ (s : State) (ra rb rd : RegIdx) (l : Nat), s.pc + 2 < s.cfg.promSize →
    s.cfg.locateSp (s.indirectAddr rb) = some l → s.cfg.isProm (.sp l) = false →
    s.cfg.isShared (.sp l) = false →
    ∃ t, execs [.sspi ra rb, .lspi rd rb] s = .next t ∧ t.reg rd = s.reg ra ∧
      (∀ r, s.cfg.phys r ≠ s.cfg.phys rd → t.reg r = s.reg r) ∧ t.c = s.c ∧ t.z = s.z

/-- IMPORT and IMPORTI complete where the address has a location, and record the access after those before it.
Where the location holds a byte by overlap, a stored scratchpad byte or a byte of a PROM word, that byte
goes to the register of `Rd`. Otherwise some byte does, the environment's next answer where it gives one
and any value where it does not (D23, log 27): from a device, from an overlapped location without a
value, and from storage that another master shares. Nothing else changes but the pc and, in the second
case, the environment's inputs. The model's own readings in this are that an overlapped port gives the
byte held, a PROM or an initial byte included, and answers as a device where it holds none (R77, log 30);
that shared storage answers from the same inputs (R82, D27, log 35); and that one event has both the
formed address (D23) and the location reached (R72) (log 27). -/
def Obligations.PortReadsComplete : Prop :=
  ∀ (s : State) (rd rb : RegIdx) (f : Byte) (l : Nat), Falls s →
    (∀ v, s.held (.io l) = some v →
      (s.cfg.locateIo (s.directAddr f) = some l → exec (.importD rd f) s =
        .next { aluNext s rd v s.c s.z with events := s.events ++ [.read (s.directAddr f) l] }) ∧
      (s.cfg.locateIo (s.indirectAddr rb) = some l → exec (.importI rd rb) s =
        .next { aluNext s rd v s.c s.z with events := s.events ++ [.read (s.indirectAddr rb) l] })) ∧
    (s.held (.io l) = none → ∃ v n, Answers s v ∧
      (s.cfg.locateIo (s.directAddr f) = some l → exec (.importD rd f) s =
        .next { answeredNext s rd v n with events := s.events ++ [.read (s.directAddr f) l] }) ∧
      (s.cfg.locateIo (s.indirectAddr rb) = some l → exec (.importI rd rb) s =
        .next { answeredNext s rd v n with events := s.events ++ [.read (s.indirectAddr rb) l] }))

/-- EXPORT and EXPORTI complete where the address has a location that is neither a PROM word nor a scratchpad
byte as well: the access is recorded with the byte of `Rd`, and nothing else changes but the pc. The
record has the formed address (R238) and the location reached (R73); that one event has both is the
model's form (log 27). -/
def Obligations.PortWritesComplete : Prop :=
  ∀ (s : State) (rd rb : RegIdx) (f : Byte) (l : Nat), Falls s → s.cfg.isProm (.io l) = false →
    s.cfg.spKey (.io l) = none →
    (s.cfg.locateIo (s.directAddr f) = some l →
      exec (.exportD rd f) s =
        .next { s with events := s.events ++ [.write (s.directAddr f) l (s.reg rd)], pc := s.pc + 1 }) ∧
    (s.cfg.locateIo (s.indirectAddr rb) = some l →
      exec (.exportI rd rb) s =
        .next { s with events := s.events ++ [.write (s.indirectAddr rb) l (s.reg rd)], pc := s.pc + 1 })

/-- Where `ALIAS` names a scratchpad byte `k` and a port `l` as one location that is no PROM word, the port
instructions complete on that byte (R77): EXPORT and EXPORTI record the access and store the byte, which
a scratchpad read of `k` then gives (unless another master shares it, R82, log 35), every other cell reading as
before; IMPORT and IMPORTI record the access and load what a scratchpad read of `k` gives. That an
aliased port reads as storage is the model's reading of R77 (log 30), that one event has
both the formed address and the location reached its form (log 27). -/
def Obligations.AliasedPortsReachTheByte : Prop :=
  ∀ (s : State) (ls : List Loc) (k l a : Nat) (rd rb : RegIdx) (f v : Byte), Falls s →
    s.cfg.legal = true → ls ∈ s.cfg.aliases → .sp k ∈ ls → .io l ∈ ls → (∀ p j, .prom p j ∉ ls) →
    s.cfg.locateSp a = some k →
    (s.cfg.locateIo (s.directAddr f) = some l →
      (∃ t, exec (.exportD rd f) s = .next t ∧
        (s.cfg.isShared (.sp k) = false → t.spByte a = some (s.reg rd)) ∧
        KeepsOtherBytes s t (s.cfg.spCell k) ∧
        t = { s with sp := t.sp, events := s.events ++ [.write (s.directAddr f) l (s.reg rd)], pc := s.pc + 1 }) ∧
      (s.spByte a = some v → exec (.importD rd f) s =
        .next { aluNext s rd v s.c s.z with events := s.events ++ [.read (s.directAddr f) l] })) ∧
    (s.cfg.locateIo (s.indirectAddr rb) = some l →
      (∃ t, exec (.exportI rd rb) s = .next t ∧
        (s.cfg.isShared (.sp k) = false → t.spByte a = some (s.reg rd)) ∧
        KeepsOtherBytes s t (s.cfg.spCell k) ∧
        t = { s with sp := t.sp, events := s.events ++ [.write (s.indirectAddr rb) l (s.reg rd)], pc := s.pc + 1 }) ∧
      (s.spByte a = some v → exec (.importI rd rb) s =
        .next { aluNext s rd v s.c s.z with events := s.events ++ [.read (s.indirectAddr rb) l] }))

/-- Where `ALIAS` makes a location byte `k` of the external PROM word `a`, which holds `w`, the loads of it
complete, under its scratchpad and under its port names, with one byte that has each bit of `w` at its
place by `PROM_BYTE_ORDER` (R70, R77). That such loads reach the PROM's word is the model's reading of
R77, and the unused bits are any value (log 30); that the event of a port read has both the formed
address and the location reached is its form (log 27). -/
def Obligations.OverlappedPromByteIsPartOfItsWord : Prop :=
  ∀ (s : State) (ls : List Loc) (l a k : Nat) (w : Word) (rd rb : RegIdx) (f : Byte), Falls s →
    s.cfg.legal = true → ls ∈ s.cfg.aliases → .prom a k ∈ ls → Cells.read s.prom a = some w →
    s.cfg.isShared (.prom a k) = false →
    ∃ v : Byte, (∀ i j, s.cfg.promByteOrder[i]? = some (k, j) → v.getLsbD j = w.getLsbD i) ∧
      (.sp l ∈ ls →
        (s.cfg.locateSp (s.directAddr f) = some l →
          exec (.lsp rd f) s = .next (aluNext s rd v s.c s.z)) ∧
        (s.cfg.locateSp (s.indirectAddr rb) = some l →
          exec (.lspi rd rb) s = .next (aluNext s rd v s.c s.z))) ∧
      (.io l ∈ ls →
        (s.cfg.locateIo (s.directAddr f) = some l → exec (.importD rd f) s =
          .next { aluNext s rd v s.c s.z with events := s.events ++ [.read (s.directAddr f) l] }) ∧
        (s.cfg.locateIo (s.indirectAddr rb) = some l → exec (.importI rd rb) s =
          .next { aluNext s rd v s.c s.z with events := s.events ++ [.read (s.indirectAddr rb) l] }))

/-- An access that no location answers stops with UnmappedAccess: all eight memory instructions, in both
forms. The fault is the spec's own choice D21 (log 28). -/
def Obligations.UnmappedAccessFaults : Prop :=
  ∀ (s : State) (rd rb : RegIdx) (f : Byte),
    (s.cfg.locateSp (s.directAddr f) = none →
      exec (.lsp rd f) s = .fault (.unmappedAccess .sp (s.directAddr f)) ∧
      exec (.ssp rd f) s = .fault (.unmappedAccess .sp (s.directAddr f))) ∧
    (s.cfg.locateSp (s.indirectAddr rb) = none →
      exec (.lspi rd rb) s = .fault (.unmappedAccess .sp (s.indirectAddr rb)) ∧
      exec (.sspi rd rb) s = .fault (.unmappedAccess .sp (s.indirectAddr rb))) ∧
    (s.cfg.locateIo (s.directAddr f) = none →
      exec (.importD rd f) s = .fault (.unmappedAccess .io (s.directAddr f)) ∧
      exec (.exportD rd f) s = .fault (.unmappedAccess .io (s.directAddr f))) ∧
    (s.cfg.locateIo (s.indirectAddr rb) = none →
      exec (.importI rd rb) s = .fault (.unmappedAccess .io (s.indirectAddr rb)) ∧
      exec (.exportI rd rb) s = .fault (.unmappedAccess .io (s.indirectAddr rb)))

/-- A store to a location that `ALIAS` relates to a PROM word stops with WriteToProm, and a load of a
scratchpad byte that has no value, in storage no other master shares, with UninitialisedRead. The
faults are the spec's own choices D10 and D13 (log 30, log 7). -/
def Obligations.PromStoreAndEmptyByteFault : Prop :=
  ∀ (s : State) (rd rb : RegIdx) (f : Byte) (l : Nat),
    (s.cfg.isProm (.sp l) = true → s.cfg.locateSp (s.directAddr f) = some l →
      exec (.ssp rd f) s = .fault .writeToProm) ∧
    (s.cfg.isProm (.sp l) = true → s.cfg.locateSp (s.indirectAddr rb) = some l →
      exec (.sspi rd rb) s = .fault .writeToProm) ∧
    (s.cfg.isProm (.io l) = true → s.cfg.locateIo (s.directAddr f) = some l →
      exec (.exportD rd f) s = .fault .writeToProm) ∧
    (s.cfg.isProm (.io l) = true → s.cfg.locateIo (s.indirectAddr rb) = some l →
      exec (.exportI rd rb) s = .fault .writeToProm) ∧
    (s.cfg.locateSp (s.directAddr f) = some l → s.held (.sp l) = none →
      s.cfg.isShared (.sp l) = false →
      exec (.lsp rd f) s = .fault (.uninitialisedRead (s.directAddr f))) ∧
    (s.cfg.locateSp (s.indirectAddr rb) = some l → s.held (.sp l) = none →
      s.cfg.isShared (.sp l) = false →
      exec (.lspi rd rb) s = .fault (.uninitialisedRead (s.indirectAddr rb)))

/-! ### Registers -/

/-- R21: a write to a register field is read back through every field that names the same physical register
and through no other; with 16 registers "any opcode reference to R16 to R31 maps to R0 to R15
respectively", with 32 every field names its own. -/
def Obligations.RegisterFieldsMapAsConfigured : Prop :=
  ∀ (s : State) (r q : RegIdx) (v : Byte),
    (s.cfg.nregs = .r16 →
      (s.setReg r v).reg q = if r.toNat % 16 = q.toNat % 16 then v else s.reg q) ∧
    (s.cfg.nregs = .r32 → (s.setReg r v).reg q = if r = q then v else s.reg q)

/-! ### Interrupts and the step -/

/-- An interrupt is taken at a boundary exactly when IE is 1, a pending bit (sampled at this boundary) is
enabled in IM, ISR is 0 under `in_service`, and the environment does not defer it (R256, R257). That a
deferral is the environment's input is the model's form of D8 (log 25). -/
def Obligations.InterruptTakenExactlyWhenDueAndNotDeferred : Prop :=
  ∀ s : State, s.takesInterrupt = true ↔
    s.ie = true ∧ (s.ip ||| (s.tick.lines &&& s.cfg.lineMask)) &&& s.im ≠ 0 ∧
      ¬(s.cfg.irqPolicy = .inService ∧ s.isr = true) ∧ s.tick.defer = false

/-- Taking an interrupt where the stack has room: the pc of the instruction that would have run and both
flags go to the stack, the pc to 0, IE becomes 0 (`auto`) or ISR 1 (`in_service`); IP holds the sampled
lines; no register, flag, mask or memory changes. The policy is D7 (log 24); both values are covered. That
entry leaves the scratchpad alone is the spec's own choice D26 (log 34), that the lines are sampled
before it D29 (log 26). -/
def Obligations.InterruptEntrySavesPcAndFlags : Prop :=
  ∀ s : State, s.takesInterrupt = true → HasRoom s →
    (s.cfg.irqPolicy = .auto → step s = .next { s with
      stack := { addr := s.pc, c := s.c, z := s.z } :: s.stack
      pc := 0
      ie := false
      ip := s.ip ||| (s.tick.lines &&& s.cfg.lineMask)
      lines := s.tick.lines
      ticks := s.ticks.tail }) ∧
    (s.cfg.irqPolicy = .inService → step s = .next { s with
      stack := { addr := s.pc, c := s.c, z := s.z } :: s.stack
      pc := 0
      isr := true
      ip := s.ip ||| (s.tick.lines &&& s.cfg.lineMask)
      lines := s.tick.lines
      ticks := s.ticks.tail })

/-- R12: where no interrupt is taken and the word at the pc decodes to `i`, the step is `exec i` at the state
with the request lines sampled: IP with the asserted lines set, and the environment's inputs moved on. -/
def Obligations.StepRunsDecodedInstruction : Prop :=
  ∀ (s : State) (w : Word) (i : Instr), s.takesInterrupt = false → s.pc < s.cfg.promSize →
    Cells.read s.prom s.pc = some w → decode s.cfg.enc w = .ok i →
    step s = exec i { s with
      ip := s.ip ||| (s.tick.lines &&& s.cfg.lineMask)
      lines := s.tick.lines
      ticks := s.ticks.tail }

/-- R111, R112: where no interrupt is taken, a word that does not decode stops the step with
UndefinedInstruction, never as the nearest instruction. The fault is the spec's own choice D14 (log 14).
A word of the PROM that nothing has programmed stops it under a name of the model's own (log 8). -/
def Obligations.UndefinedWordFaults : Prop :=
  ∀ (s : State) (w : Word) (e : DecodeError), s.takesInterrupt = false → s.pc < s.cfg.promSize →
    (Cells.read s.prom s.pc = some w → decode s.cfg.enc w = .error e →
      step s = .fault (.undefinedInstruction w)) ∧
    (Cells.read s.prom s.pc = none → step s = .fault (.unprogrammedWord s.pc))

/-- An interrupt cannot be deferred for ever (R257): every step uses up one of the environment's deferrals,
and with none left a due interrupt is taken. The finite list is the model's form of weak fairness
(log 25). -/
def Obligations.DeferralsRunOut : Prop :=
  (∀ s t : State, step s = .next t → t.ticks = s.ticks.tail) ∧
  (∀ s : State, s.ticks = [] → s.sample.interruptDue = true → s.takesInterrupt = true)

/-- R260: from an interrupt entry, a handler's IRET that runs with the stack as the entry left it resumes the
interrupted program: pc, C, Z and the stack are as they were, and entries are possible again (IE 1 under
`auto`, ISR 0 under `in_service`). Stated for any state `h` the handler reaches with the same stack and
configuration. -/
def Obligations.IretAfterEntryResumesProgram : Prop :=
  ∀ s t h : State, s.pc < s.cfg.promSize → s.takesInterrupt = true → step s = .next t →
    h.stack = t.stack → h.cfg = t.cfg →
    ∃ u, exec .iret h = .next u ∧ u.pc = s.pc ∧ u.c = s.c ∧ u.z = s.z ∧ u.stack = s.stack ∧
      u.ie = (if s.cfg.irqPolicy = .auto then true else h.ie) ∧
      u.isr = (if s.cfg.irqPolicy = .inService then false else h.isr)

/-- R262: under `in_service`, while ISR is 1 no interrupt is taken, and a step that leaves ISR 0 ran IRET: no
other instruction can cause a second entry. The policy is D7 (log 24). -/
def Obligations.InServiceBlocksEntryUntilIret : Prop :=
  ∀ s t : State, s.cfg.irqPolicy = .inService → s.isr = true → step s = .next t →
    s.takesInterrupt = false ∧
      (t.isr = true ∨ ∃ w, s.sample.fetch = .ok w ∧ decode s.cfg.enc w = .ok .iret)

/-! ### Whole-machine rules -/

/-- R29: no instruction outside the table's rows for C changes C, none outside its rows for Z changes Z, and
interrupt entry changes neither. -/
def Obligations.FlagWritersAreThoseOfTheTable : Prop :=
  (∀ (i : Instr) (s t : State), exec i s = .next t →
    (writesCarry i = false → t.c = s.c) ∧ (writesZero i = false → t.z = s.z)) ∧
  (∀ s t : State, s.takesInterrupt = true → step s = .next t → t.c = s.c ∧ t.z = s.z)

/-- R22: an instruction changes no register but its destination, the instructions without one and interrupt
entry change none. -/
def Obligations.RegisterWritersAreThoseListed : Prop :=
  (∀ (i : Instr) (s t : State), exec i s = .next t → ∀ q : RegIdx,
    (∀ rd, destination i = some rd → s.cfg.phys rd ≠ s.cfg.phys q) → t.reg q = s.reg q) ∧
  (∀ s t : State, s.takesInterrupt = true → step s = .next t → t.regs = s.regs)

/-- R40 to R42: of the instructions only calls push and only RET and IRET pop. A call leaves the stack alone or
pushes one entry with the address of the next instruction; RET and IRET remove the first entry; no other
instruction changes the stack. Interrupt entry pushes one entry with the pc and both flags (R41, R258),
and on a full stack it has no next state. -/
def Obligations.StackChangesOnlyByCallsAndReturns : Prop :=
  (∀ (i : Instr) (s t : State), exec i s = .next t →
    (isCall i = true → t.stack = s.stack ∨
      ∃ c z : Bool, t.stack = { addr := s.pc + 1, c := c, z := z } :: s.stack) ∧
    (i = .ret ∨ i = .iret → ∃ f, s.stack = f :: t.stack ∧ t.pc = f.addr) ∧
    (isCall i = false → i ≠ .ret → i ≠ .iret → t.stack = s.stack)) ∧
  (∀ s t : State, s.takesInterrupt = true → step s = .next t →
    HasRoom s ∧ t.stack = { addr := s.pc, c := s.c, z := s.z } :: s.stack)

/-- R60, R240: an instruction that is no store, and interrupt entry, leave every scratchpad byte alone, and no
step touches the PROM (R47, R85) or the configuration. That entry keeps the scratchpad is the spec's own
choice D26 beside R258 (log 34), that the PROM is constant even where it is overlapped D10 (log 30). -/
def Obligations.NonStoresKeepMemoryAndProm : Prop :=
  (∀ (i : Instr) (s t : State), exec i s = .next t → mayStore i = false →
    t.spByte = s.spByte) ∧
  (∀ s t : State, s.takesInterrupt = true → step s = .next t → t.spByte = s.spByte) ∧
  (∀ s t : State, step s = .next t → t.prom = s.prom ∧ t.cfg = s.cfg)

/-- R75, R76: a step never drops, merges or reorders the recorded peripheral accesses: it appends exactly one
if it runs a peripheral instruction, and none otherwise. -/
def Obligations.EventsGrowOneAccessAtATime : Prop :=
  (∀ (i : Instr) (s t : State), exec i s = .next t →
    (accessesIo i = true → ∃ e, t.events = s.events ++ [e]) ∧
    (accessesIo i = false → t.events = s.events)) ∧
  (∀ s t : State, s.takesInterrupt = true → step s = .next t → t.events = s.events)

/-- R294: at the end of a run every later step leaves the state unchanged except for the sampling of the
request lines, and the run stays ended. The end of a run is the spec's own convention D24 (log 40). -/
def Obligations.EndedRunStaysEnded : Prop :=
  ∀ s : State, s.ended = true →
    step s = .next { s with
      ip := s.ip ||| (s.tick.lines &&& s.cfg.lineMask)
      lines := s.tick.lines
      ticks := s.ticks.tail } ∧
    ∀ t, step s = .next t → t.ended = true

/-! ### Encoding -/

/-- R109: under every `ENC` that meets R110, each word whose fixed bits are those of ADD, ADDC, ADDI, ADDIC or
AND decodes to that instruction with its operand fields, and no other word decodes to that instruction
with any operands. -/
def Obligations.SourceEncodingsDecode : Prop :=
  ∀ (e : Enc) (n : RegCount) (w : Word), e.wf = true → e.nopHarmless n = true →
    ((w &&& 0x3E007#18 = 0x08000#18 →
        decode e w = .ok (.add (w.extractLsb' 8 5) (w.extractLsb' 3 5))) ∧
      ((∃ a b, decode e w = .ok (.add a b)) → w &&& 0x3E007#18 = 0x08000#18)) ∧
    ((w &&& 0x3E007#18 = 0x0C000#18 →
        decode e w = .ok (.addc (w.extractLsb' 8 5) (w.extractLsb' 3 5))) ∧
      ((∃ a b, decode e w = .ok (.addc a b)) → w &&& 0x3E007#18 = 0x0C000#18)) ∧
    ((w &&& 0x3E000#18 = 0x0A000#18 →
        decode e w = .ok (.addi (w.extractLsb' 8 5) (w.extractLsb' 0 8))) ∧
      ((∃ a b, decode e w = .ok (.addi a b)) → w &&& 0x3E000#18 = 0x0A000#18)) ∧
    ((w &&& 0x3E000#18 = 0x0E000#18 →
        decode e w = .ok (.addic (w.extractLsb' 8 5) (w.extractLsb' 0 8))) ∧
      ((∃ a b, decode e w = .ok (.addic a b)) → w &&& 0x3E000#18 = 0x0E000#18)) ∧
    ((w &&& 0x3E007#18 = 0x14000#18 →
        decode e w = .ok (.and (w.extractLsb' 8 5) (w.extractLsb' 3 5))) ∧
      ((∃ a b, decode e w = .ok (.and a b)) → w &&& 0x3E007#18 = 0x14000#18))

/-- Decode and encode agree, under every `ENC` that meets R110: every well-formed instruction, with every
operand value its fields admit, has a word, and the word decodes to the instruction, unless the word is
NOP's, which decodes to NOP (R111, R115); and under R110's condition on NOP the word is NOP's only if the
instruction changes nothing but the pc. -/
def Obligations.DecodeOfEncodeIsTheInstruction : Prop :=
  ∀ (e : Enc) (i : Instr), e.wf = true → i.WellFormed e = true →
    ∃ w, encode e i = some w ∧
      decode e w = .ok (if e.spellsNop w = true then .nop else i) ∧
      ∀ n, e.nopHarmless n = true → e.spellsNop w = true → i.changesOnlyPc n = true

/-- Under every `ENC` that meets R110, no word is claimed by two instructions (the ambiguity of R111 (2) does
not arise), and what a word decodes to is well-formed. -/
def Obligations.DecodingIsUnambiguousAndWellFormed : Prop :=
  ∀ (e : Enc) (w : Word), e.wf = true →
    decode e w ≠ .error .ambiguous ∧ ∀ i, decode e w = .ok i → i.WellFormed e = true

/-- The candidate `ENC` of the instance after reset meets R110 (a fact about the model's choice, log 9 and log
10), and a few words of R109 and of G1 decode as they are listed there. -/
def Obligations.CandidateMapIsAdmissible : Prop :=
  candidateEnc.wf = true ∧ candidateEnc.nopHarmless .r32 = true ∧
    candidateEnc.nopHarmless .r16 = true ∧
    decode candidateEnc 0x08110 = .ok (.add 1 2) ∧
    decode candidateEnc 0x0E20F = .ok (.addic 2 0x0F) ∧
    decode candidateEnc 0x33FFE = .ok (.bnz (-2)) ∧
    decode candidateEnc 0x10000 = .ok .nop ∧
    decode candidateEnc 0x08111 = .error .noRow

/-! ### Reset and the invariant -/

/-- R33, R34, R35, R50: after reset, in every configuration, IP, IM and IE are 0; the call stack is empty and
ISR is 0 (the spec's own choices D13 and D7; log 5, log 6). -/
def Obligations.ResetClearsControlRegisters : Prop :=
  ∀ g : Config, (State.ofConfig g).ip = 0 ∧ (State.ofConfig g).im = 0 ∧
    (State.ofConfig g).ie = false ∧ (State.ofConfig g).isr = false ∧
    (State.ofConfig g).stack = [] ∧ (State.ofConfig g).pc = g.resetPc

/-- The initial state of every configuration that R6, R7 and R110 admit meets the invariant: the reset state
from initialisation files, and the one with boot images in place, whatever the storage holds (R50, R88,
R293). So does State.reset (a fact about the instance the model chose, log 1). -/
def Obligations.ResetMeetsInvariant : Prop :=
  (∀ g : Config, g.wf = true → (State.ofConfig g).wf = true ∧
    ∀ rom, (State.booted g rom).wf = true) ∧ State.reset.wf = true

/-- Every step keeps the invariant, from every state that meets it: the configuration stays legal, the pc
inside the PROM (R25), the call stack within its depth with addresses up to the PROM's end (R40), both
storages in canonical form and inside their regions (R45), IP and IM without bits of absent lines (R36),
ISR clear under `auto` (R46), and no register beyond a 16-register file written (R21). -/
def Obligations.StepKeepsInvariant : Prop :=
  ∀ s t : State, s.wf = true → step s = .next t → t.wf = true
end

