-- ==== Sys2Proof/Laws/State.lean ====
section
/-! SUPPORT. One lemma per field per named update of State: what the update writes, and that it leaves
every other field alone. -/

namespace Sys2Proof.Machine

variable (s : State)

@[simp] theorem State.setReg_cfg (r : RegIdx) (v : Byte) : (s.setReg r v).cfg = s.cfg := rfl
@[simp] theorem State.setReg_regs (r : RegIdx) (v : Byte) :
    (s.setReg r v).regs = s.regs.set (s.cfg.phys r).val v := rfl
@[simp] theorem State.setReg_pc (r : RegIdx) (v : Byte) : (s.setReg r v).pc = s.pc := rfl
@[simp] theorem State.setReg_c (r : RegIdx) (v : Byte) : (s.setReg r v).c = s.c := rfl
@[simp] theorem State.setReg_z (r : RegIdx) (v : Byte) : (s.setReg r v).z = s.z := rfl
@[simp] theorem State.setReg_ip (r : RegIdx) (v : Byte) : (s.setReg r v).ip = s.ip := rfl
@[simp] theorem State.setReg_im (r : RegIdx) (v : Byte) : (s.setReg r v).im = s.im := rfl
@[simp] theorem State.setReg_ie (r : RegIdx) (v : Byte) : (s.setReg r v).ie = s.ie := rfl
@[simp] theorem State.setReg_isr (r : RegIdx) (v : Byte) : (s.setReg r v).isr = s.isr := rfl
@[simp] theorem State.setReg_stack (r : RegIdx) (v : Byte) : (s.setReg r v).stack = s.stack := rfl
@[simp] theorem State.setReg_sp (r : RegIdx) (v : Byte) : (s.setReg r v).sp = s.sp := rfl
@[simp] theorem State.setReg_prom (r : RegIdx) (v : Byte) : (s.setReg r v).prom = s.prom := rfl
@[simp] theorem State.setReg_lines (r : RegIdx) (v : Byte) : (s.setReg r v).lines = s.lines := rfl
@[simp] theorem State.setReg_ticks (r : RegIdx) (v : Byte) : (s.setReg r v).ticks = s.ticks := rfl
@[simp] theorem State.setReg_answers (r : RegIdx) (v : Byte) :
    (s.setReg r v).answers = s.answers := rfl
@[simp] theorem State.setReg_events (r : RegIdx) (v : Byte) :
    (s.setReg r v).events = s.events := rfl
@[simp] theorem State.setReg_draws (r : RegIdx) (v : Byte) : (s.setReg r v).draws = s.draws := rfl

@[simp] theorem State.setC_cfg (b : Bool) : (s.setC b).cfg = s.cfg := rfl
@[simp] theorem State.setC_regs (b : Bool) : (s.setC b).regs = s.regs := rfl
@[simp] theorem State.setC_pc (b : Bool) : (s.setC b).pc = s.pc := rfl
@[simp] theorem State.setC_c (b : Bool) : (s.setC b).c = b := rfl
@[simp] theorem State.setC_z (b : Bool) : (s.setC b).z = s.z := rfl
@[simp] theorem State.setC_ip (b : Bool) : (s.setC b).ip = s.ip := rfl
@[simp] theorem State.setC_im (b : Bool) : (s.setC b).im = s.im := rfl
@[simp] theorem State.setC_ie (b : Bool) : (s.setC b).ie = s.ie := rfl
@[simp] theorem State.setC_isr (b : Bool) : (s.setC b).isr = s.isr := rfl
@[simp] theorem State.setC_stack (b : Bool) : (s.setC b).stack = s.stack := rfl
@[simp] theorem State.setC_sp (b : Bool) : (s.setC b).sp = s.sp := rfl
@[simp] theorem State.setC_prom (b : Bool) : (s.setC b).prom = s.prom := rfl
@[simp] theorem State.setC_lines (b : Bool) : (s.setC b).lines = s.lines := rfl
@[simp] theorem State.setC_ticks (b : Bool) : (s.setC b).ticks = s.ticks := rfl
@[simp] theorem State.setC_answers (b : Bool) : (s.setC b).answers = s.answers := rfl
@[simp] theorem State.setC_events (b : Bool) : (s.setC b).events = s.events := rfl
@[simp] theorem State.setC_draws (b : Bool) : (s.setC b).draws = s.draws := rfl

@[simp] theorem State.setZ_cfg (b : Bool) : (s.setZ b).cfg = s.cfg := rfl
@[simp] theorem State.setZ_regs (b : Bool) : (s.setZ b).regs = s.regs := rfl
@[simp] theorem State.setZ_pc (b : Bool) : (s.setZ b).pc = s.pc := rfl
@[simp] theorem State.setZ_c (b : Bool) : (s.setZ b).c = s.c := rfl
@[simp] theorem State.setZ_z (b : Bool) : (s.setZ b).z = b := rfl
@[simp] theorem State.setZ_ip (b : Bool) : (s.setZ b).ip = s.ip := rfl
@[simp] theorem State.setZ_im (b : Bool) : (s.setZ b).im = s.im := rfl
@[simp] theorem State.setZ_ie (b : Bool) : (s.setZ b).ie = s.ie := rfl
@[simp] theorem State.setZ_isr (b : Bool) : (s.setZ b).isr = s.isr := rfl
@[simp] theorem State.setZ_stack (b : Bool) : (s.setZ b).stack = s.stack := rfl
@[simp] theorem State.setZ_sp (b : Bool) : (s.setZ b).sp = s.sp := rfl
@[simp] theorem State.setZ_prom (b : Bool) : (s.setZ b).prom = s.prom := rfl
@[simp] theorem State.setZ_lines (b : Bool) : (s.setZ b).lines = s.lines := rfl
@[simp] theorem State.setZ_ticks (b : Bool) : (s.setZ b).ticks = s.ticks := rfl
@[simp] theorem State.setZ_answers (b : Bool) : (s.setZ b).answers = s.answers := rfl
@[simp] theorem State.setZ_events (b : Bool) : (s.setZ b).events = s.events := rfl
@[simp] theorem State.setZ_draws (b : Bool) : (s.setZ b).draws = s.draws := rfl

@[simp] theorem State.setPc_cfg (a : Nat) : (s.setPc a).cfg = s.cfg := rfl
@[simp] theorem State.setPc_regs (a : Nat) : (s.setPc a).regs = s.regs := rfl
@[simp] theorem State.setPc_pc (a : Nat) : (s.setPc a).pc = a := rfl
@[simp] theorem State.setPc_c (a : Nat) : (s.setPc a).c = s.c := rfl
@[simp] theorem State.setPc_z (a : Nat) : (s.setPc a).z = s.z := rfl
@[simp] theorem State.setPc_ip (a : Nat) : (s.setPc a).ip = s.ip := rfl
@[simp] theorem State.setPc_im (a : Nat) : (s.setPc a).im = s.im := rfl
@[simp] theorem State.setPc_ie (a : Nat) : (s.setPc a).ie = s.ie := rfl
@[simp] theorem State.setPc_isr (a : Nat) : (s.setPc a).isr = s.isr := rfl
@[simp] theorem State.setPc_stack (a : Nat) : (s.setPc a).stack = s.stack := rfl
@[simp] theorem State.setPc_sp (a : Nat) : (s.setPc a).sp = s.sp := rfl
@[simp] theorem State.setPc_prom (a : Nat) : (s.setPc a).prom = s.prom := rfl
@[simp] theorem State.setPc_lines (a : Nat) : (s.setPc a).lines = s.lines := rfl
@[simp] theorem State.setPc_ticks (a : Nat) : (s.setPc a).ticks = s.ticks := rfl
@[simp] theorem State.setPc_answers (a : Nat) : (s.setPc a).answers = s.answers := rfl
@[simp] theorem State.setPc_events (a : Nat) : (s.setPc a).events = s.events := rfl
@[simp] theorem State.setPc_draws (a : Nat) : (s.setPc a).draws = s.draws := rfl

@[simp] theorem State.setIp_cfg (v : Byte) : (s.setIp v).cfg = s.cfg := rfl
@[simp] theorem State.setIp_regs (v : Byte) : (s.setIp v).regs = s.regs := rfl
@[simp] theorem State.setIp_pc (v : Byte) : (s.setIp v).pc = s.pc := rfl
@[simp] theorem State.setIp_c (v : Byte) : (s.setIp v).c = s.c := rfl
@[simp] theorem State.setIp_z (v : Byte) : (s.setIp v).z = s.z := rfl
@[simp] theorem State.setIp_ip (v : Byte) : (s.setIp v).ip = v := rfl
@[simp] theorem State.setIp_im (v : Byte) : (s.setIp v).im = s.im := rfl
@[simp] theorem State.setIp_ie (v : Byte) : (s.setIp v).ie = s.ie := rfl
@[simp] theorem State.setIp_isr (v : Byte) : (s.setIp v).isr = s.isr := rfl
@[simp] theorem State.setIp_stack (v : Byte) : (s.setIp v).stack = s.stack := rfl
@[simp] theorem State.setIp_sp (v : Byte) : (s.setIp v).sp = s.sp := rfl
@[simp] theorem State.setIp_prom (v : Byte) : (s.setIp v).prom = s.prom := rfl
@[simp] theorem State.setIp_lines (v : Byte) : (s.setIp v).lines = s.lines := rfl
@[simp] theorem State.setIp_ticks (v : Byte) : (s.setIp v).ticks = s.ticks := rfl
@[simp] theorem State.setIp_answers (v : Byte) : (s.setIp v).answers = s.answers := rfl
@[simp] theorem State.setIp_events (v : Byte) : (s.setIp v).events = s.events := rfl
@[simp] theorem State.setIp_draws (v : Byte) : (s.setIp v).draws = s.draws := rfl

@[simp] theorem State.setIm_cfg (v : Byte) : (s.setIm v).cfg = s.cfg := rfl
@[simp] theorem State.setIm_regs (v : Byte) : (s.setIm v).regs = s.regs := rfl
@[simp] theorem State.setIm_pc (v : Byte) : (s.setIm v).pc = s.pc := rfl
@[simp] theorem State.setIm_c (v : Byte) : (s.setIm v).c = s.c := rfl
@[simp] theorem State.setIm_z (v : Byte) : (s.setIm v).z = s.z := rfl
@[simp] theorem State.setIm_ip (v : Byte) : (s.setIm v).ip = s.ip := rfl
@[simp] theorem State.setIm_im (v : Byte) : (s.setIm v).im = v := rfl
@[simp] theorem State.setIm_ie (v : Byte) : (s.setIm v).ie = s.ie := rfl
@[simp] theorem State.setIm_isr (v : Byte) : (s.setIm v).isr = s.isr := rfl
@[simp] theorem State.setIm_stack (v : Byte) : (s.setIm v).stack = s.stack := rfl
@[simp] theorem State.setIm_sp (v : Byte) : (s.setIm v).sp = s.sp := rfl
@[simp] theorem State.setIm_prom (v : Byte) : (s.setIm v).prom = s.prom := rfl
@[simp] theorem State.setIm_lines (v : Byte) : (s.setIm v).lines = s.lines := rfl
@[simp] theorem State.setIm_ticks (v : Byte) : (s.setIm v).ticks = s.ticks := rfl
@[simp] theorem State.setIm_answers (v : Byte) : (s.setIm v).answers = s.answers := rfl
@[simp] theorem State.setIm_events (v : Byte) : (s.setIm v).events = s.events := rfl
@[simp] theorem State.setIm_draws (v : Byte) : (s.setIm v).draws = s.draws := rfl

@[simp] theorem State.setIe_cfg (b : Bool) : (s.setIe b).cfg = s.cfg := rfl
@[simp] theorem State.setIe_regs (b : Bool) : (s.setIe b).regs = s.regs := rfl
@[simp] theorem State.setIe_pc (b : Bool) : (s.setIe b).pc = s.pc := rfl
@[simp] theorem State.setIe_c (b : Bool) : (s.setIe b).c = s.c := rfl
@[simp] theorem State.setIe_z (b : Bool) : (s.setIe b).z = s.z := rfl
@[simp] theorem State.setIe_ip (b : Bool) : (s.setIe b).ip = s.ip := rfl
@[simp] theorem State.setIe_im (b : Bool) : (s.setIe b).im = s.im := rfl
@[simp] theorem State.setIe_ie (b : Bool) : (s.setIe b).ie = b := rfl
@[simp] theorem State.setIe_isr (b : Bool) : (s.setIe b).isr = s.isr := rfl
@[simp] theorem State.setIe_stack (b : Bool) : (s.setIe b).stack = s.stack := rfl
@[simp] theorem State.setIe_sp (b : Bool) : (s.setIe b).sp = s.sp := rfl
@[simp] theorem State.setIe_prom (b : Bool) : (s.setIe b).prom = s.prom := rfl
@[simp] theorem State.setIe_lines (b : Bool) : (s.setIe b).lines = s.lines := rfl
@[simp] theorem State.setIe_ticks (b : Bool) : (s.setIe b).ticks = s.ticks := rfl
@[simp] theorem State.setIe_answers (b : Bool) : (s.setIe b).answers = s.answers := rfl
@[simp] theorem State.setIe_events (b : Bool) : (s.setIe b).events = s.events := rfl
@[simp] theorem State.setIe_draws (b : Bool) : (s.setIe b).draws = s.draws := rfl

@[simp] theorem State.setIsr_cfg (b : Bool) : (s.setIsr b).cfg = s.cfg := rfl
@[simp] theorem State.setIsr_regs (b : Bool) : (s.setIsr b).regs = s.regs := rfl
@[simp] theorem State.setIsr_pc (b : Bool) : (s.setIsr b).pc = s.pc := rfl
@[simp] theorem State.setIsr_c (b : Bool) : (s.setIsr b).c = s.c := rfl
@[simp] theorem State.setIsr_z (b : Bool) : (s.setIsr b).z = s.z := rfl
@[simp] theorem State.setIsr_ip (b : Bool) : (s.setIsr b).ip = s.ip := rfl
@[simp] theorem State.setIsr_im (b : Bool) : (s.setIsr b).im = s.im := rfl
@[simp] theorem State.setIsr_ie (b : Bool) : (s.setIsr b).ie = s.ie := rfl
@[simp] theorem State.setIsr_isr (b : Bool) : (s.setIsr b).isr = b := rfl
@[simp] theorem State.setIsr_stack (b : Bool) : (s.setIsr b).stack = s.stack := rfl
@[simp] theorem State.setIsr_sp (b : Bool) : (s.setIsr b).sp = s.sp := rfl
@[simp] theorem State.setIsr_prom (b : Bool) : (s.setIsr b).prom = s.prom := rfl
@[simp] theorem State.setIsr_lines (b : Bool) : (s.setIsr b).lines = s.lines := rfl
@[simp] theorem State.setIsr_ticks (b : Bool) : (s.setIsr b).ticks = s.ticks := rfl
@[simp] theorem State.setIsr_answers (b : Bool) : (s.setIsr b).answers = s.answers := rfl
@[simp] theorem State.setIsr_events (b : Bool) : (s.setIsr b).events = s.events := rfl
@[simp] theorem State.setIsr_draws (b : Bool) : (s.setIsr b).draws = s.draws := rfl

@[simp] theorem State.setStack_cfg (k : List Frame) : (s.setStack k).cfg = s.cfg := rfl
@[simp] theorem State.setStack_regs (k : List Frame) : (s.setStack k).regs = s.regs := rfl
@[simp] theorem State.setStack_pc (k : List Frame) : (s.setStack k).pc = s.pc := rfl
@[simp] theorem State.setStack_c (k : List Frame) : (s.setStack k).c = s.c := rfl
@[simp] theorem State.setStack_z (k : List Frame) : (s.setStack k).z = s.z := rfl
@[simp] theorem State.setStack_ip (k : List Frame) : (s.setStack k).ip = s.ip := rfl
@[simp] theorem State.setStack_im (k : List Frame) : (s.setStack k).im = s.im := rfl
@[simp] theorem State.setStack_ie (k : List Frame) : (s.setStack k).ie = s.ie := rfl
@[simp] theorem State.setStack_isr (k : List Frame) : (s.setStack k).isr = s.isr := rfl
@[simp] theorem State.setStack_stack (k : List Frame) : (s.setStack k).stack = k := rfl
@[simp] theorem State.setStack_sp (k : List Frame) : (s.setStack k).sp = s.sp := rfl
@[simp] theorem State.setStack_prom (k : List Frame) : (s.setStack k).prom = s.prom := rfl
@[simp] theorem State.setStack_lines (k : List Frame) : (s.setStack k).lines = s.lines := rfl
@[simp] theorem State.setStack_ticks (k : List Frame) : (s.setStack k).ticks = s.ticks := rfl
@[simp] theorem State.setStack_answers (k : List Frame) : (s.setStack k).answers = s.answers := rfl
@[simp] theorem State.setStack_events (k : List Frame) : (s.setStack k).events = s.events := rfl
@[simp] theorem State.setStack_draws (k : List Frame) : (s.setStack k).draws = s.draws := rfl

@[simp] theorem State.setSp_cfg (m : List Host.Cell) : (s.setSp m).cfg = s.cfg := rfl
@[simp] theorem State.setSp_regs (m : List Host.Cell) : (s.setSp m).regs = s.regs := rfl
@[simp] theorem State.setSp_pc (m : List Host.Cell) : (s.setSp m).pc = s.pc := rfl
@[simp] theorem State.setSp_c (m : List Host.Cell) : (s.setSp m).c = s.c := rfl
@[simp] theorem State.setSp_z (m : List Host.Cell) : (s.setSp m).z = s.z := rfl
@[simp] theorem State.setSp_ip (m : List Host.Cell) : (s.setSp m).ip = s.ip := rfl
@[simp] theorem State.setSp_im (m : List Host.Cell) : (s.setSp m).im = s.im := rfl
@[simp] theorem State.setSp_ie (m : List Host.Cell) : (s.setSp m).ie = s.ie := rfl
@[simp] theorem State.setSp_isr (m : List Host.Cell) : (s.setSp m).isr = s.isr := rfl
@[simp] theorem State.setSp_stack (m : List Host.Cell) : (s.setSp m).stack = s.stack := rfl
@[simp] theorem State.setSp_sp (m : List Host.Cell) : (s.setSp m).sp = m := rfl
@[simp] theorem State.setSp_prom (m : List Host.Cell) : (s.setSp m).prom = s.prom := rfl
@[simp] theorem State.setSp_lines (m : List Host.Cell) : (s.setSp m).lines = s.lines := rfl
@[simp] theorem State.setSp_ticks (m : List Host.Cell) : (s.setSp m).ticks = s.ticks := rfl
@[simp] theorem State.setSp_answers (m : List Host.Cell) : (s.setSp m).answers = s.answers := rfl
@[simp] theorem State.setSp_events (m : List Host.Cell) : (s.setSp m).events = s.events := rfl
@[simp] theorem State.setSp_draws (m : List Host.Cell) : (s.setSp m).draws = s.draws := rfl

@[simp] theorem State.setProm_cfg (m : List (Nat × Word)) : (s.setProm m).cfg = s.cfg := rfl
@[simp] theorem State.setProm_regs (m : List (Nat × Word)) : (s.setProm m).regs = s.regs := rfl
@[simp] theorem State.setProm_pc (m : List (Nat × Word)) : (s.setProm m).pc = s.pc := rfl
@[simp] theorem State.setProm_c (m : List (Nat × Word)) : (s.setProm m).c = s.c := rfl
@[simp] theorem State.setProm_z (m : List (Nat × Word)) : (s.setProm m).z = s.z := rfl
@[simp] theorem State.setProm_ip (m : List (Nat × Word)) : (s.setProm m).ip = s.ip := rfl
@[simp] theorem State.setProm_im (m : List (Nat × Word)) : (s.setProm m).im = s.im := rfl
@[simp] theorem State.setProm_ie (m : List (Nat × Word)) : (s.setProm m).ie = s.ie := rfl
@[simp] theorem State.setProm_isr (m : List (Nat × Word)) : (s.setProm m).isr = s.isr := rfl
@[simp] theorem State.setProm_stack (m : List (Nat × Word)) : (s.setProm m).stack = s.stack := rfl
@[simp] theorem State.setProm_sp (m : List (Nat × Word)) : (s.setProm m).sp = s.sp := rfl
@[simp] theorem State.setProm_prom (m : List (Nat × Word)) : (s.setProm m).prom = m := rfl
@[simp] theorem State.setProm_lines (m : List (Nat × Word)) : (s.setProm m).lines = s.lines := rfl
@[simp] theorem State.setProm_ticks (m : List (Nat × Word)) : (s.setProm m).ticks = s.ticks := rfl
@[simp] theorem State.setProm_answers (m : List (Nat × Word)) :
    (s.setProm m).answers = s.answers := rfl
@[simp] theorem State.setProm_events (m : List (Nat × Word)) :
    (s.setProm m).events = s.events := rfl
@[simp] theorem State.setProm_draws (m : List (Nat × Word)) : (s.setProm m).draws = s.draws := rfl

@[simp] theorem State.record_cfg (e : IoEvent) : (s.record e).cfg = s.cfg := rfl
@[simp] theorem State.record_regs (e : IoEvent) : (s.record e).regs = s.regs := rfl
@[simp] theorem State.record_pc (e : IoEvent) : (s.record e).pc = s.pc := rfl
@[simp] theorem State.record_c (e : IoEvent) : (s.record e).c = s.c := rfl
@[simp] theorem State.record_z (e : IoEvent) : (s.record e).z = s.z := rfl
@[simp] theorem State.record_ip (e : IoEvent) : (s.record e).ip = s.ip := rfl
@[simp] theorem State.record_im (e : IoEvent) : (s.record e).im = s.im := rfl
@[simp] theorem State.record_ie (e : IoEvent) : (s.record e).ie = s.ie := rfl
@[simp] theorem State.record_isr (e : IoEvent) : (s.record e).isr = s.isr := rfl
@[simp] theorem State.record_stack (e : IoEvent) : (s.record e).stack = s.stack := rfl
@[simp] theorem State.record_sp (e : IoEvent) : (s.record e).sp = s.sp := rfl
@[simp] theorem State.record_prom (e : IoEvent) : (s.record e).prom = s.prom := rfl
@[simp] theorem State.record_lines (e : IoEvent) : (s.record e).lines = s.lines := rfl
@[simp] theorem State.record_ticks (e : IoEvent) : (s.record e).ticks = s.ticks := rfl
@[simp] theorem State.record_answers (e : IoEvent) : (s.record e).answers = s.answers := rfl
@[simp] theorem State.record_events (e : IoEvent) : (s.record e).events = s.events ++ [e] := rfl
@[simp] theorem State.record_draws (e : IoEvent) : (s.record e).draws = s.draws := rfl

@[simp] theorem State.setAnswers_cfg (l : List Byte) : (s.setAnswers l).cfg = s.cfg := rfl
@[simp] theorem State.setAnswers_regs (l : List Byte) : (s.setAnswers l).regs = s.regs := rfl
@[simp] theorem State.setAnswers_pc (l : List Byte) : (s.setAnswers l).pc = s.pc := rfl
@[simp] theorem State.setAnswers_c (l : List Byte) : (s.setAnswers l).c = s.c := rfl
@[simp] theorem State.setAnswers_z (l : List Byte) : (s.setAnswers l).z = s.z := rfl
@[simp] theorem State.setAnswers_ip (l : List Byte) : (s.setAnswers l).ip = s.ip := rfl
@[simp] theorem State.setAnswers_im (l : List Byte) : (s.setAnswers l).im = s.im := rfl
@[simp] theorem State.setAnswers_ie (l : List Byte) : (s.setAnswers l).ie = s.ie := rfl
@[simp] theorem State.setAnswers_isr (l : List Byte) : (s.setAnswers l).isr = s.isr := rfl
@[simp] theorem State.setAnswers_stack (l : List Byte) : (s.setAnswers l).stack = s.stack := rfl
@[simp] theorem State.setAnswers_sp (l : List Byte) : (s.setAnswers l).sp = s.sp := rfl
@[simp] theorem State.setAnswers_prom (l : List Byte) : (s.setAnswers l).prom = s.prom := rfl
@[simp] theorem State.setAnswers_lines (l : List Byte) : (s.setAnswers l).lines = s.lines := rfl
@[simp] theorem State.setAnswers_ticks (l : List Byte) : (s.setAnswers l).ticks = s.ticks := rfl
@[simp] theorem State.setAnswers_answers (l : List Byte) : (s.setAnswers l).answers = l := rfl
@[simp] theorem State.setAnswers_events (l : List Byte) : (s.setAnswers l).events = s.events := rfl
@[simp] theorem State.setAnswers_draws (l : List Byte) : (s.setAnswers l).draws = s.draws := rfl

@[simp] theorem State.drawn_cfg (n : Nat) : (s.drawn n).cfg = s.cfg := rfl
@[simp] theorem State.drawn_regs (n : Nat) : (s.drawn n).regs = s.regs := rfl
@[simp] theorem State.drawn_pc (n : Nat) : (s.drawn n).pc = s.pc := rfl
@[simp] theorem State.drawn_c (n : Nat) : (s.drawn n).c = s.c := rfl
@[simp] theorem State.drawn_z (n : Nat) : (s.drawn n).z = s.z := rfl
@[simp] theorem State.drawn_ip (n : Nat) : (s.drawn n).ip = s.ip := rfl
@[simp] theorem State.drawn_im (n : Nat) : (s.drawn n).im = s.im := rfl
@[simp] theorem State.drawn_ie (n : Nat) : (s.drawn n).ie = s.ie := rfl
@[simp] theorem State.drawn_isr (n : Nat) : (s.drawn n).isr = s.isr := rfl
@[simp] theorem State.drawn_stack (n : Nat) : (s.drawn n).stack = s.stack := rfl
@[simp] theorem State.drawn_sp (n : Nat) : (s.drawn n).sp = s.sp := rfl
@[simp] theorem State.drawn_prom (n : Nat) : (s.drawn n).prom = s.prom := rfl
@[simp] theorem State.drawn_lines (n : Nat) : (s.drawn n).lines = s.lines := rfl
@[simp] theorem State.drawn_ticks (n : Nat) : (s.drawn n).ticks = s.ticks := rfl
@[simp] theorem State.drawn_answers (n : Nat) : (s.drawn n).answers = s.answers := rfl
@[simp] theorem State.drawn_events (n : Nat) : (s.drawn n).events = s.events := rfl
@[simp] theorem State.drawn_draws (n : Nat) : (s.drawn n).draws = s.draws + n := rfl

@[simp] theorem State.sample_cfg : s.sample.cfg = s.cfg := rfl
@[simp] theorem State.sample_regs : s.sample.regs = s.regs := rfl
@[simp] theorem State.sample_pc : s.sample.pc = s.pc := rfl
@[simp] theorem State.sample_c : s.sample.c = s.c := rfl
@[simp] theorem State.sample_z : s.sample.z = s.z := rfl
@[simp] theorem State.sample_ip : s.sample.ip = s.ip ||| (s.tick.lines &&& s.cfg.lineMask) := rfl
@[simp] theorem State.sample_im : s.sample.im = s.im := rfl
@[simp] theorem State.sample_ie : s.sample.ie = s.ie := rfl
@[simp] theorem State.sample_isr : s.sample.isr = s.isr := rfl
@[simp] theorem State.sample_stack : s.sample.stack = s.stack := rfl
@[simp] theorem State.sample_sp : s.sample.sp = s.sp := rfl
@[simp] theorem State.sample_prom : s.sample.prom = s.prom := rfl
@[simp] theorem State.sample_lines : s.sample.lines = s.tick.lines := rfl
@[simp] theorem State.sample_ticks : s.sample.ticks = s.ticks.tail := rfl
@[simp] theorem State.sample_answers : s.sample.answers = s.answers := rfl
@[simp] theorem State.sample_events : s.sample.events = s.events := rfl
@[simp] theorem State.sample_draws : s.sample.draws = s.draws := rfl

/-- Reading a register after a write: the written byte where the two fields name one physical register
(R21), otherwise what was there. -/
theorem State.reg_setReg (r q : RegIdx) (v : Byte) :
    (s.setReg r v).reg q = if s.cfg.phys r = s.cfg.phys q then v else s.reg q := by
  simp [State.reg, State.setReg, Vector.getElem_set, Fin.ext_iff]

@[simp] theorem State.reg_setReg_same (r : RegIdx) (v : Byte) : (s.setReg r v).reg r = v := by
  simp [State.reg_setReg]

@[simp] theorem State.setC_reg (b : Bool) (q : RegIdx) : (s.setC b).reg q = s.reg q := rfl
@[simp] theorem State.setZ_reg (b : Bool) (q : RegIdx) : (s.setZ b).reg q = s.reg q := rfl
@[simp] theorem State.setPc_reg (a : Nat) (q : RegIdx) : (s.setPc a).reg q = s.reg q := rfl
@[simp] theorem State.setIp_reg (v : Byte) (q : RegIdx) : (s.setIp v).reg q = s.reg q := rfl
@[simp] theorem State.setIm_reg (v : Byte) (q : RegIdx) : (s.setIm v).reg q = s.reg q := rfl
@[simp] theorem State.setIe_reg (b : Bool) (q : RegIdx) : (s.setIe b).reg q = s.reg q := rfl
@[simp] theorem State.setIsr_reg (b : Bool) (q : RegIdx) : (s.setIsr b).reg q = s.reg q := rfl
@[simp] theorem State.setStack_reg (k : List Frame) (q : RegIdx) : (s.setStack k).reg q = s.reg q := rfl
@[simp] theorem State.setSp_reg (m : List Host.Cell) (q : RegIdx) : (s.setSp m).reg q = s.reg q := rfl
@[simp] theorem State.setProm_reg (m : List (Nat × Word)) (q : RegIdx) : (s.setProm m).reg q = s.reg q := rfl
@[simp] theorem State.record_reg (e : IoEvent) (q : RegIdx) : (s.record e).reg q = s.reg q := rfl
@[simp] theorem State.setAnswers_reg (l : List Byte) (q : RegIdx) : (s.setAnswers l).reg q = s.reg q := rfl
@[simp] theorem State.drawn_reg (n : Nat) (q : RegIdx) : (s.drawn n).reg q = s.reg q := rfl
@[simp] theorem State.sample_reg (q : RegIdx) : s.sample.reg q = s.reg q := rfl

end Sys2Proof.Machine
end

