-- ==== Sys2Proof/Laws/Memory.lean ====
section
/-! SUPPORT. Sparse storage: a read after a write, the canonical form kept by every write, and canonical
storages with equal reads are equal. -/

namespace Sys2Proof.Machine

variable {α : Type}

@[simp] theorem Cells.read_nil (a : Nat) : Cells.read ([] : List (Nat × α)) a = none := rfl

@[simp] theorem Cells.read_cons (k : Nat) (u : α) (m : List (Nat × α)) (a : Nat) :
    Cells.read ((k, u) :: m) a = if k = a then some u else Cells.read m a := rfl

/-- A read at any key after a write: the value written at that key, what was there at any other. -/
theorem Cells.read_write (m : List (Nat × α)) (a b : Nat) (v : α) :
    Cells.read (Cells.write m a v) b = if a = b then some v else Cells.read m b := by
  induction m with
  | nil => simp [Cells.write]
  | cons p m ih =>
    obtain ⟨k, u⟩ := p
    simp only [Cells.write]
    split
    · simp
    · split
      · subst_vars; by_cases h : k = b <;> simp [h]
      · simp only [Cells.read_cons, ih]
        by_cases h : k = b <;> by_cases g : a = b <;> simp [h, g]
        omega

@[simp] theorem Cells.read_write_same (m : List (Nat × α)) (a : Nat) (v : α) :
    Cells.read (Cells.write m a v) a = some v := by simp [Cells.read_write]

theorem Cells.read_write_other (m : List (Nat × α)) {a b : Nat} (h : a ≠ b) (v : α) :
    Cells.read (Cells.write m a v) b = Cells.read m b := by simp [Cells.read_write, h]

/-- Canonical form, one entry at a time: the first key is below every later one. -/
theorem keysRise_cons (p : Nat × α) (m : List (Nat × α)) :
    keysRise (p :: m) = true ↔ (∀ q ∈ m, p.1 < q.1) ∧ keysRise m = true := by
  induction m generalizing p with
  | nil => simp [keysRise]
  | cons q m ih =>
    simp only [keysRise, Bool.and_eq_true, decide_eq_true_eq, List.mem_cons, forall_eq_or_imp]
    constructor
    · rintro ⟨h, hr⟩
      exact ⟨⟨h, fun r hm => lt_trans h (((ih q).1 hr).1 r hm)⟩, hr⟩
    · rintro ⟨⟨h, -⟩, hr⟩
      exact ⟨h, hr⟩

theorem Cells.mem_write {m : List (Nat × α)} {a : Nat} {v : α} {q : Nat × α}
    (h : q ∈ Cells.write m a v) : q = (a, v) ∨ q ∈ m := by
  induction m with
  | nil => simpa [Cells.write] using h
  | cons p m ih =>
    obtain ⟨k, u⟩ := p
    simp only [Cells.write] at h
    split at h
    · simpa using h
    · split at h
      · rcases List.mem_cons.1 h with h | h
        · exact .inl h
        · exact .inr (List.mem_cons_of_mem _ h)
      · rcases List.mem_cons.1 h with h | h
        · exact .inr (h ▸ List.mem_cons_self)
        · exact (ih h).imp id (List.mem_cons_of_mem _)

/-- Every write keeps the canonical form. -/
theorem Memory.wf_write {m : List (Nat × α)} (h : Memory.wf m = true) (a : Nat) (v : α) :
    Memory.wf (Cells.write m a v) = true := by
  unfold Memory.wf at *
  induction m with
  | nil => rfl
  | cons p m ih =>
    obtain ⟨k, u⟩ := p
    obtain ⟨hk, hm⟩ := (keysRise_cons _ _).1 h
    simp only [Cells.write]
    split
    · rename_i hlt
      refine (keysRise_cons _ _).2 ⟨?_, h⟩
      intro q hq
      rcases List.mem_cons.1 hq with rfl | hq
      · exact hlt
      · exact lt_trans hlt (hk q hq)
    · split
      · subst_vars
        exact (keysRise_cons _ _).2 ⟨hk, hm⟩
      · refine (keysRise_cons _ _).2 ⟨?_, ih hm⟩
        intro q hq
        rcases Cells.mem_write hq with rfl | hq
        · show k < a; omega
        · exact hk q hq

/-- The storage of the reset state is canonical. -/
theorem Memory.wf_nil : Memory.wf ([] : List (Nat × α)) = true := rfl

theorem Cells.read_none_of_lt {m : List (Nat × α)} {a : Nat} (h : ∀ q ∈ m, a < q.1) :
    Cells.read m a = none := by
  induction m with
  | nil => rfl
  | cons p m ih =>
    have hp := h p List.mem_cons_self
    simp [Cells.read, (Nat.ne_of_gt hp), ih fun q hq => h q (List.mem_cons_of_mem _ hq)]

/-- Canonical storages with equal reads are equal data. -/
theorem Memory.eq_of_read_eq {m n : List (Nat × α)} (hm : Memory.wf m = true)
    (hn : Memory.wf n = true) (h : ∀ a, Cells.read m a = Cells.read n a) : m = n := by
  unfold Memory.wf at *
  induction m generalizing n with
  | nil =>
    cases n with
    | nil => rfl
    | cons p n =>
      obtain ⟨l, w⟩ := p
      simpa using h l
  | cons p m ih =>
    cases n with
    | nil =>
      obtain ⟨k, u⟩ := p
      simpa using h k
    | cons q n =>
      obtain ⟨k, u⟩ := p
      obtain ⟨l, w⟩ := q
      obtain ⟨hk, hm'⟩ := (keysRise_cons _ _).1 hm
      obtain ⟨hl, hn'⟩ := (keysRise_cons _ _).1 hn
      have hkl : k = l := by
        rcases lt_trichotomy k l with hlt | he | hgt
        · have := h k
          rw [Cells.read_none_of_lt (m := (l, w) :: n)] at this
          · simp at this
          · intro q hq
            rcases List.mem_cons.1 hq with rfl | hq
            · exact hlt
            · exact lt_trans hlt (hl q hq)
        · exact he
        · have := h l
          rw [Cells.read_none_of_lt (m := (k, u) :: m)] at this
          · simp at this
          · intro q hq
            rcases List.mem_cons.1 hq with rfl | hq
            · exact hgt
            · exact lt_trans hgt (hk q hq)
      subst hkl
      have hu : u = w := by simpa using h k
      subst hu
      refine congrArg _ (ih hm' hn' fun a => ?_)
      by_cases ha : k = a
      · subst ha
        rw [Cells.read_none_of_lt hk, Cells.read_none_of_lt hl]
      · simpa [ha] using h a

end Sys2Proof.Machine
end

