-- ==== Sys2Proof/Laws/Storage.lean ====
section
/-! SUPPORT. The names of a location, where its byte is kept, the bytes of a PROM word, and initial storage. -/

namespace Sys2Proof

variable {g : Config}

/-- With the entries of `ALIAS` disjoint, an entry is what each of its names names. -/
theorem Config.names_of_mem (h : g.aliases.flatten.Nodup) {ls : List Loc} (hl : ls ∈ g.aliases)
    {x : Loc} (hx : x ∈ ls) : g.names x = ls := by
  unfold Config.names
  split
  · rename_i m e
    have hm := List.mem_of_find?_eq_some e
    have hxm : x ∈ m := by simpa using List.find?_some e
    by_contra hne
    have hd := List.pairwise_iff_getElem.1 (List.nodup_flatten.1 h).2
    obtain ⟨i, hi, rfl⟩ := List.getElem_of_mem hm
    obtain ⟨j, hj, rfl⟩ := List.getElem_of_mem hl
    rcases Nat.lt_trichotomy i j with k | k | k
    · exact hd i j hi hj k hxm hx
    · subst k; exact hne rfl
    · exact hd j i hj hi k hx hxm
  · rename_i e
    have := List.find?_eq_none.1 e _ hl
    simp [hx] at this

/-- A location's own name is among its names. -/
theorem Config.mem_names (x : Loc) : x ∈ g.names x := by
  unfold Config.names
  split
  · rename_i m e; simpa using List.find?_some e
  · simp

theorem Config.names_of_no_aliases (h : g.aliases = []) (x : Loc) : g.names x = [x] := by
  simp [Config.names, h]

/-- Every scratchpad byte is kept somewhere. -/
theorem Config.spKey_sp (l : Nat) : g.spKey (.sp l) = some (g.spCell l) := by
  have h : (g.spKey (.sp l)).isSome = true := by
    rw [Config.spKey, List.findSome?_isSome_iff]
    exact ⟨.sp l, Config.mem_names _, rfl⟩
  obtain ⟨k, hk⟩ := Option.isSome_iff_exists.1 h
  simp [Config.spCell, hk]

/-- A location is a PROM byte exactly when it has a PROM name. -/
theorem Config.promName_none {x : Loc} : g.promName x = none ↔ g.isProm x = false := by
  rw [Config.promName, Config.isProm, List.findSome?_eq_none_iff, List.any_eq_false]
  refine forall₂_congr fun y _ => ?_
  cases y <;> simp [Loc.isPromName]

/-- The parts of `Config.legal` that speak of `ALIAS` (R77). -/
theorem Config.legal_aliases (h : g.legal = true) :
    (∀ ls ∈ g.aliases, ∀ x ∈ ls, x.within g.spSize g.ioSize g.promSize = true) ∧
      g.aliases.flatten.Nodup ∧
      ∀ ls ∈ g.aliases, ls.countP Loc.isPromName ≤ if g.promInternal then 0 else 1 := by
  have h : g.aliasesLegal = true := by
    simp only [Config.legal, Bool.and_eq_true] at h
    exact h.1.1.2
  simpa [Config.aliasesLegal, and_assoc] using h

/-- A bit of a PROM byte at the place of an instruction bit is that bit of the word (R70). -/
theorem Config.promByte_getLsbD (h : g.promByteOrder.Nodup) {i j k : Nat} (hj : j < 8)
    (ho : g.promByteOrder[i]? = some (k, j)) (a : Nat) (w : Word) :
    (g.promByte a k w).getLsbD j = w.getLsbD i := by
  obtain ⟨hi, e⟩ := List.getElem?_eq_some_iff.1 ho
  have : g.promByteOrder.idxOf? (k, j) = some i := by
    rw [← e, List.idxOf?_eq_some_iff]
    refine ⟨hi, by simp, fun m hm => ?_⟩
    have := (List.nodup_iff_getElem?_ne_getElem?.1 h m i hm hi)
    rw [List.getElem?_eq_getElem (by omega), List.getElem?_eq_getElem hi] at this
    simpa using fun q => this (by rw [q])
  simp [Config.promByte, hj, this]

end Sys2Proof

namespace Sys2Proof.Machine

/-- Initial storage is canonical and lists only cells that keep a byte of a given offset. -/
theorem spStorage_wf (g : Config) (bytes : List (Nat × Byte)) :
    Memory.wf (spStorage g bytes) = true ∧
      ∀ c ∈ spStorage g bytes, ∃ b ∈ bytes, c.1 = g.spCell b.1 := by
  suffices ∀ m, Memory.wf m = true → (Memory.wf (bytes.foldl
      (fun m c => if g.isProm (.sp c.1) then m else Cells.write m (g.spCell c.1) c.2) m) = true ∧
      ∀ c ∈ bytes.foldl
        (fun m c => if g.isProm (.sp c.1) then m else Cells.write m (g.spCell c.1) c.2) m,
        c ∈ m ∨ ∃ b ∈ bytes, c.1 = g.spCell b.1) by
    obtain ⟨h, k⟩ := this [] rfl
    exact ⟨h, fun c hc => (k c hc).resolve_left (List.not_mem_nil)⟩
  induction bytes with
  | nil => exact fun m h => ⟨h, fun c hc => .inl hc⟩
  | cons b bs ih =>
    intro m h
    simp only [List.foldl_cons]
    split
    · obtain ⟨p, q⟩ := ih m h
      exact ⟨p, fun c hc => (q c hc).imp id fun ⟨d, hd, e⟩ => ⟨d, List.mem_cons_of_mem _ hd, e⟩⟩
    · obtain ⟨p, q⟩ := ih _ (Memory.wf_write h (g.spCell b.1) b.2)
      refine ⟨p, fun c hc => ?_⟩
      rcases q c hc with k | ⟨d, hd, e⟩
      · rcases Cells.mem_write k with rfl | k
        · exact .inr ⟨b, List.mem_cons_self, rfl⟩
        · exact .inl k
      · exact .inr ⟨d, List.mem_cons_of_mem _ hd, e⟩

end Sys2Proof.Machine
end

