-- ==== Sys2Proof/Machine/Bus.lean ====
section
/-! DEFINITION. What the master ports of the core drive, as far as the two signal tables fix it (R79, R80):
views computed from an access, not state, since no request is pending across an instruction boundary
(R46 (d)). The protocol's timing is outside the spec's scope (R5). -/

namespace Sys2Proof.Machine

/-- The outputs of the peripheral WISHBONE interface during a request (R80). `dat` "has valid data when
D_WE_O is 1", so it is none on a read. -/
structure DataRequest where
  cyc : Bool
  stb : Bool
  cti : BitVec 2
  bte : BitVec 3
  adr : BitVec 32
  we  : Bool
  sel : BitVec 1
  dat : Option Byte
  deriving DecidableEq, Repr

/-- The bus address of an offset into a region: base plus offset, the default of D22 (log 38). -/
def busAddr (base l : Nat) : BitVec 32 := BitVec.ofNat 32 (base + l)

/-- A request on the peripheral port: a read where no byte is given, otherwise a write of it (R80). -/
def dataRequest (adr : BitVec 32) (v : Option Byte) : DataRequest :=
  { cyc := true, stb := true, cti := 0, bte := 0, adr := adr, we := v.isSome, sel := 1, dat := v }

/-- The request a recorded peripheral access puts on the port (R76, R80). -/
def IoEvent.request (g : Config) : IoEvent → DataRequest
  | .read _ l => dataRequest (busAddr g.ioBase l) none
  | .write _ l v => dataRequest (busAddr g.ioBase l) (some v)

/-- The request of a scratchpad access, on the same port where the scratchpad is external and none where it
is on its dedicated bus (R65, R80). -/
def spRequest (g : Config) (l : Nat) (v : Option Byte) : Option DataRequest :=
  if g.spIsInternal l then none else some (dataRequest (busAddr g.spBase l) v)

/-- A transfer on the PROM WISHBONE interface (R79): the outputs of the request, and on `dat` the byte of the
instruction that the slave returns on I_DAT_I with the acknowledgement. -/
structure FetchTransfer where
  cyc : Bool
  stb : Bool
  cti : BitVec 2
  bte : BitVec 3
  adr : BitVec 32
  we  : Bool
  sel : BitVec 4
  dat : Byte
  deriving DecidableEq, Repr

/-- The bus address of byte `k` of PROM word `a`: three bytes a word from the PROM's base, as the image lies
under `XIP` (R63, R88; log 38). -/
def promBusAddr (g : Config) (a k : Nat) : BitVec 32 := busAddr g.promBase (3 * a + k)

/-- The transfer of byte `k` of PROM word `a`, which holds `w`. -/
def fetchTransfer (g : Config) (a : Nat) (w : Word) (k : Nat) : FetchTransfer :=
  { cyc := true, stb := true, cti := 0, bte := 0, adr := promBusAddr g a k, we := false, sel := 15
    dat := g.promByte a k w }

/-- The transfers that fetch the word `w` of index `a`: none on the dedicated bus of an internal PROM, "three
8-bit WISHBONE accesses" of an external one (R63, R79), in rising order of address (DESIGN CHOICE,
log 38). -/
def fetchTransfers (g : Config) (a : Nat) (w : Word) : List FetchTransfer :=
  if g.promInternal then [] else [0, 1, 2].map (fetchTransfer g a w)

/-- The word that the bytes of some transfers spell, each byte at its address: what the fetch engine makes of
I_DAT_I, by the layout of a boot image. -/
def transferredWord (g : Config) (a : Nat) (ts : List FetchTransfer) : Option Word :=
  imageWord { g with romBase := g.promBase } (ts.map fun t => (t.adr.toNat, t.dat)) a

end Sys2Proof.Machine
end

