-- ==== Sys2Proof/Laws/Bus.lean ====
section
/-! SUPPORT. The transfers of an external fetch spell the word fetched. -/

namespace Sys2Proof.Machine

/-- Bits that are all there spell the number with these bits. -/
theorem bitsToNat_some (bs : List Bool) :
    ∃ n, bitsToNat (bs.map some) = some n ∧ ∀ i, n.testBit i = bs.getD i false := by
  induction bs with
  | nil => exact ⟨0, rfl, by simp⟩
  | cons b bs ih =>
    obtain ⟨n, hn, h⟩ := ih
    refine ⟨b.toNat + 2 * n, by simp [bitsToNat, hn], fun i => ?_⟩
    cases i with
    | zero => cases b <;> simp
    | succ i =>
      rw [Nat.testBit_succ, show (b.toNat + 2 * n) / 2 = n by cases b <;> simp; omega, h]
      simp

/-- The bytes that the three transfers of a fetch return, read back at their addresses in the layout of a
boot image, are the word fetched (R70, R79). -/
theorem transferredWord_fetchTransfers {g : Config} (h : g.legal = true) (hp : g.promInternal = false)
    {a : Nat} (ha : a < g.promSize) (w : Word) :
    transferredWord g a (fetchTransfers g a w) = some w := by
  simp only [Config.legal, Config.promPlaced, Bool.and_eq_true, decide_eq_true_eq, List.all_eq_true,
    beq_iff_eq, hp, Bool.false_or] at h
  obtain ⟨⟨⟨⟨⟨⟨-, hlen, hin⟩, hnd⟩, hpl, -⟩, -⟩, -⟩, -⟩ := h
  have addr : ∀ k < 3, (promBusAddr g a k).toNat = g.promBase + 3 * a + k := by
    intro k hk
    rw [promBusAddr, busAddr, BitVec.toNat_ofNat, Nat.mod_eq_of_lt (by omega), Nat.add_assoc]
  have byte : ∀ k < 3, Cells.read ((fetchTransfers g a w).map fun t => (t.adr.toNat, t.dat))
      (g.promBase + 3 * a + k) = some (g.promByte a k w) := by
    intro k hk
    simp only [fetchTransfers, hp, Bool.false_eq_true, if_false, List.map_cons, List.map_nil, Cells.read,
      fetchTransfer, addr 0 (by omega), addr 1 (by omega), addr 2 (by omega), Nat.add_right_inj]
    obtain rfl | rfl | rfl : k = 0 ∨ k = 1 ∨ k = 2 := by omega
    all_goals simp
  have bits : g.promByteOrder.map (imageBit ((fetchTransfers g a w).map fun t => (t.adr.toNat, t.dat))
      (g.promBase + 3 * a)) = ((List.range 18).map fun i => w.getLsbD i).map some := by
    refine List.ext_getElem (by simpa using hlen) fun i h1 h2 => ?_
    simp only [List.length_map] at h1
    have hi := hin _ (List.getElem_mem h1)
    simp only [List.getElem_map, imageBit, byte _ hi.1, Option.map_some, List.getElem_range]
    rw [Config.promByte_getLsbD hnd hi.2 (k := g.promByteOrder[i].1)
      (by rw [List.getElem?_eq_getElem h1])]
  obtain ⟨n, hn, ht⟩ := bitsToNat_some ((List.range 18).map fun i => w.getLsbD i)
  simp only [transferredWord, imageWord, bits, hn, Option.map_some, Option.some.injEq]
  refine BitVec.eq_of_getLsbD_eq fun i hi => ?_
  rw [BitVec.getLsbD_ofNat, ht]
  simp [hi, BitVec.getLsbD_eq_getElem]

end Sys2Proof.Machine
end

