-- ==== Sys2Proof/Laws/PerInstr.lean ====
section
/-! SUPPORT. The per-instruction family `OperandFields`: an instruction is what its opcode and its operand
fields spell, and the fields fit their widths. The case split the round trip of decode and encode needs. -/

namespace Sys2Proof.Laws

/-! ### One lemma per kind of field -/

theorem reg_back (r : RegIdx) : ((r.setWidth 18 : Word).setWidth 5) = r := by
  ext i hi; simp

theorem byte_back (b : Byte) : ((b.setWidth 18 : Word).setWidth 8) = b := by
  ext i hi; simp

theorem lowMask_getLsbD (n i : Nat) : (lowMask n).getLsbD i = (decide (i < 18) && decide (i < n)) := by
  simp [lowMask, BitVec.getLsbD_ofNat, Nat.testBit_two_pow_sub_one]

/-- A word below 2^n lies within the low `n` bits. -/
theorem and_lowMask {w : Word} {n : Nat} (h : w.toNat < 2 ^ n) : w &&& lowMask n = w := by
  apply BitVec.eq_of_getLsbD_eq
  intro i hi
  rw [BitVec.getLsbD_and, lowMask_getLsbD]
  by_cases hn : i < n
  · simp [hi, hn]
  · have : w.getLsbD i = false :=
      Nat.testBit_lt_two_pow (lt_of_lt_of_le h (Nat.pow_le_pow_right (by decide) (by omega)))
    simp [this]

theorem reg_fits (r : RegIdx) : (r.setWidth 18 : Word) &&& lowMask 5 = r.setWidth 18 :=
  and_lowMask (by have := r.isLt; simp only [BitVec.toNat_setWidth]; omega)

theorem byte_fits (b : Byte) : (b.setWidth 18 : Word) &&& lowMask 8 = b.setWidth 18 :=
  and_lowMask (by have := b.isLt; simp only [BitVec.toNat_setWidth]; omega)

theorem zero_fits (n : Nat) : (0 : Word) &&& lowMask n = 0 := by simp

theorem direct_fits {n : Nat} {b : Byte} (h : decide (b.toNat < 2 ^ n) = true) :
    (b.setWidth 18 : Word) &&& lowMask n = b.setWidth 18 := by
  have hb := b.isLt
  have h := of_decide_eq_true h
  refine and_lowMask (lt_of_le_of_lt ?_ h)
  simp only [BitVec.toNat_setWidth]
  exact Nat.mod_le _ _

theorem csr_back {w n : Nat} (hw : w ≤ 18) (h : decide (n < 2 ^ w) = true) :
    (BitVec.ofNat 18 n).toNat = n := by
  have h := of_decide_eq_true h
  have : 2 ^ w ≤ 2 ^ 18 := Nat.pow_le_pow_right (by decide) hw
  simp only [BitVec.toNat_ofNat]
  exact Nat.mod_eq_of_lt (by omega)

theorem csr_fits {w n : Nat} (hw : w ≤ 18) (h : decide (n < 2 ^ w) = true) :
    (BitVec.ofNat 18 n) &&& lowMask w = BitVec.ofNat 18 n :=
  and_lowMask (by rw [csr_back hw h]; exact of_decide_eq_true h)

theorem label_back {w : Nat} {d : Int} (h0 : 1 ≤ w) (hw : w ≤ 18) (h : labelFits w d = true) :
    (((BitVec.ofInt w d).setWidth 18 : Word).setWidth w).toInt = d := by
  have h := of_decide_eq_true h
  rw [BitVec.setWidth_setWidth_of_le _ hw, BitVec.setWidth_eq, BitVec.toInt_ofInt]
  have e : (2 ^ w : Nat) = 2 * 2 ^ (w - 1) := by
    conv_lhs => rw [show w = (w - 1) + 1 by omega, pow_succ]
    omega
  have c : ((2 ^ (w - 1) : Nat) : Int) = (2 : Int) ^ (w - 1) := by push_cast; rfl
  refine Int.bmod_eq_of_le ?_ ?_ <;> omega

theorem label_fits {w : Nat} {d : Int} :
    ((BitVec.ofInt w d).setWidth 18 : Word) &&& lowMask w = (BitVec.ofInt w d).setWidth 18 := by
  refine and_lowMask ?_
  have := (BitVec.ofInt w d).isLt
  simp only [BitVec.toNat_setWidth]
  exact lt_of_le_of_lt (Nat.mod_le _ _) this

/-! ### The family -/

/-- Under widths that R104, R107 and R108 admit, a well-formed instruction is read back from its opcode and
operand fields, and each field fits its width. -/
def OperandFields.Statement (i : Instr) : Prop :=
  ∀ e : Enc, 1 ≤ e.labelW → e.labelW ≤ 18 → e.csrW ≤ 18 → i.WellFormed e = true →
    Instr.ofFields e i.op (i.field1 e) i.field2 = i ∧
      i.field1 e &&& lowMask (e.width i.op.kinds.1) = i.field1 e ∧
      i.field2 &&& lowMask (e.width i.op.kinds.2) = i.field2

theorem OperandFields.add (rd rb : RegIdx) : Statement (.add rd rb) :=
  fun _ _ _ _ _ => ⟨congrArg₂ Instr.add (reg_back rd) (reg_back rb), reg_fits rd, reg_fits rb⟩

theorem OperandFields.addc (rd rb : RegIdx) : Statement (.addc rd rb) :=
  fun _ _ _ _ _ => ⟨congrArg₂ Instr.addc (reg_back rd) (reg_back rb), reg_fits rd, reg_fits rb⟩

theorem OperandFields.addi (rd : RegIdx) (c8 : Byte) : Statement (.addi rd c8) :=
  fun _ _ _ _ _ => ⟨congrArg₂ Instr.addi (reg_back rd) (byte_back c8), reg_fits rd, byte_fits c8⟩

theorem OperandFields.addic (rd : RegIdx) (c8 : Byte) : Statement (.addic rd c8) :=
  fun _ _ _ _ _ => ⟨congrArg₂ Instr.addic (reg_back rd) (byte_back c8), reg_fits rd, byte_fits c8⟩

theorem OperandFields.and (rd rb : RegIdx) : Statement (.and rd rb) :=
  fun _ _ _ _ _ => ⟨congrArg₂ Instr.and (reg_back rd) (reg_back rb), reg_fits rd, reg_fits rb⟩

theorem OperandFields.sub (rd rb : RegIdx) : Statement (.sub rd rb) :=
  fun _ _ _ _ _ => ⟨congrArg₂ Instr.sub (reg_back rd) (reg_back rb), reg_fits rd, reg_fits rb⟩

theorem OperandFields.subc (rd rb : RegIdx) : Statement (.subc rd rb) :=
  fun _ _ _ _ _ => ⟨congrArg₂ Instr.subc (reg_back rd) (reg_back rb), reg_fits rd, reg_fits rb⟩

theorem OperandFields.subi (rd : RegIdx) (c8 : Byte) : Statement (.subi rd c8) :=
  fun _ _ _ _ _ => ⟨congrArg₂ Instr.subi (reg_back rd) (byte_back c8), reg_fits rd, byte_fits c8⟩

theorem OperandFields.subic (rd : RegIdx) (c8 : Byte) : Statement (.subic rd c8) :=
  fun _ _ _ _ _ => ⟨congrArg₂ Instr.subic (reg_back rd) (byte_back c8), reg_fits rd, byte_fits c8⟩

theorem OperandFields.cmp (rd rb : RegIdx) : Statement (.cmp rd rb) :=
  fun _ _ _ _ _ => ⟨congrArg₂ Instr.cmp (reg_back rd) (reg_back rb), reg_fits rd, reg_fits rb⟩

theorem OperandFields.cmpi (rd : RegIdx) (c8 : Byte) : Statement (.cmpi rd c8) :=
  fun _ _ _ _ _ => ⟨congrArg₂ Instr.cmpi (reg_back rd) (byte_back c8), reg_fits rd, byte_fits c8⟩

theorem OperandFields.andi (rd : RegIdx) (c8 : Byte) : Statement (.andi rd c8) :=
  fun _ _ _ _ _ => ⟨congrArg₂ Instr.andi (reg_back rd) (byte_back c8), reg_fits rd, byte_fits c8⟩

theorem OperandFields.or (rd rb : RegIdx) : Statement (.or rd rb) :=
  fun _ _ _ _ _ => ⟨congrArg₂ Instr.or (reg_back rd) (reg_back rb), reg_fits rd, reg_fits rb⟩

theorem OperandFields.ori (rd : RegIdx) (c8 : Byte) : Statement (.ori rd c8) :=
  fun _ _ _ _ _ => ⟨congrArg₂ Instr.ori (reg_back rd) (byte_back c8), reg_fits rd, byte_fits c8⟩

theorem OperandFields.xor (rd rb : RegIdx) : Statement (.xor rd rb) :=
  fun _ _ _ _ _ => ⟨congrArg₂ Instr.xor (reg_back rd) (reg_back rb), reg_fits rd, reg_fits rb⟩

theorem OperandFields.xori (rd : RegIdx) (c8 : Byte) : Statement (.xori rd c8) :=
  fun _ _ _ _ _ => ⟨congrArg₂ Instr.xori (reg_back rd) (byte_back c8), reg_fits rd, byte_fits c8⟩

theorem OperandFields.test (rd rb : RegIdx) : Statement (.test rd rb) :=
  fun _ _ _ _ _ => ⟨congrArg₂ Instr.test (reg_back rd) (reg_back rb), reg_fits rd, reg_fits rb⟩

theorem OperandFields.testi (rd : RegIdx) (c8 : Byte) : Statement (.testi rd c8) :=
  fun _ _ _ _ _ => ⟨congrArg₂ Instr.testi (reg_back rd) (byte_back c8), reg_fits rd, byte_fits c8⟩

theorem OperandFields.mov (rd rb : RegIdx) : Statement (.mov rd rb) :=
  fun _ _ _ _ _ => ⟨congrArg₂ Instr.mov (reg_back rd) (reg_back rb), reg_fits rd, reg_fits rb⟩

theorem OperandFields.movi (rd : RegIdx) (c8 : Byte) : Statement (.movi rd c8) :=
  fun _ _ _ _ _ => ⟨congrArg₂ Instr.movi (reg_back rd) (byte_back c8), reg_fits rd, byte_fits c8⟩

theorem OperandFields.nop : Statement .nop :=
  fun _ _ _ _ _ => ⟨rfl, zero_fits _, zero_fits _⟩

theorem OperandFields.rol (rd rb : RegIdx) : Statement (.rol rd rb) :=
  fun _ _ _ _ _ => ⟨congrArg₂ Instr.rol (reg_back rd) (reg_back rb), reg_fits rd, reg_fits rb⟩

theorem OperandFields.rolc (rd rb : RegIdx) : Statement (.rolc rd rb) :=
  fun _ _ _ _ _ => ⟨congrArg₂ Instr.rolc (reg_back rd) (reg_back rb), reg_fits rd, reg_fits rb⟩

theorem OperandFields.ror (rd rb : RegIdx) : Statement (.ror rd rb) :=
  fun _ _ _ _ _ => ⟨congrArg₂ Instr.ror (reg_back rd) (reg_back rb), reg_fits rd, reg_fits rb⟩

theorem OperandFields.rorc (rd rb : RegIdx) : Statement (.rorc rd rb) :=
  fun _ _ _ _ _ => ⟨congrArg₂ Instr.rorc (reg_back rd) (reg_back rb), reg_fits rd, reg_fits rb⟩

theorem OperandFields.clrc : Statement .clrc :=
  fun _ _ _ _ _ => ⟨rfl, zero_fits _, zero_fits _⟩

theorem OperandFields.setc : Statement .setc :=
  fun _ _ _ _ _ => ⟨rfl, zero_fits _, zero_fits _⟩

theorem OperandFields.clrz : Statement .clrz :=
  fun _ _ _ _ _ => ⟨rfl, zero_fits _, zero_fits _⟩

theorem OperandFields.setz : Statement .setz :=
  fun _ _ _ _ _ => ⟨rfl, zero_fits _, zero_fits _⟩

theorem OperandFields.clri : Statement .clri :=
  fun _ _ _ _ _ => ⟨rfl, zero_fits _, zero_fits _⟩

theorem OperandFields.seti : Statement .seti :=
  fun _ _ _ _ _ => ⟨rfl, zero_fits _, zero_fits _⟩

theorem OperandFields.rcsr (rd : RegIdx) (csr : Nat) : Statement (.rcsr rd csr) :=
  fun _ _ _ hc h => ⟨congrArg₂ Instr.rcsr (reg_back rd) (csr_back hc h), reg_fits rd, csr_fits hc h⟩

theorem OperandFields.wcsr (csr : Nat) (rb : RegIdx) : Statement (.wcsr csr rb) :=
  fun _ _ _ hc h => ⟨congrArg₂ Instr.wcsr (csr_back hc h) (reg_back rb), csr_fits hc h, reg_fits rb⟩

theorem OperandFields.b (disp : Int) : Statement (.b disp) :=
  fun _ h0 hw _ h => ⟨congrArg Instr.b (label_back h0 hw h), label_fits, zero_fits _⟩

theorem OperandFields.bc (disp : Int) : Statement (.bc disp) :=
  fun _ h0 hw _ h => ⟨congrArg Instr.bc (label_back h0 hw h), label_fits, zero_fits _⟩

theorem OperandFields.bnc (disp : Int) : Statement (.bnc disp) :=
  fun _ h0 hw _ h => ⟨congrArg Instr.bnc (label_back h0 hw h), label_fits, zero_fits _⟩

theorem OperandFields.bnz (disp : Int) : Statement (.bnz disp) :=
  fun _ h0 hw _ h => ⟨congrArg Instr.bnz (label_back h0 hw h), label_fits, zero_fits _⟩

theorem OperandFields.bz (disp : Int) : Statement (.bz disp) :=
  fun _ h0 hw _ h => ⟨congrArg Instr.bz (label_back h0 hw h), label_fits, zero_fits _⟩

theorem OperandFields.call (disp : Int) : Statement (.call disp) :=
  fun _ h0 hw _ h => ⟨congrArg Instr.call (label_back h0 hw h), label_fits, zero_fits _⟩

theorem OperandFields.callc (disp : Int) : Statement (.callc disp) :=
  fun _ h0 hw _ h => ⟨congrArg Instr.callc (label_back h0 hw h), label_fits, zero_fits _⟩

theorem OperandFields.callnc (disp : Int) : Statement (.callnc disp) :=
  fun _ h0 hw _ h => ⟨congrArg Instr.callnc (label_back h0 hw h), label_fits, zero_fits _⟩

theorem OperandFields.callnz (disp : Int) : Statement (.callnz disp) :=
  fun _ h0 hw _ h => ⟨congrArg Instr.callnz (label_back h0 hw h), label_fits, zero_fits _⟩

theorem OperandFields.callz (disp : Int) : Statement (.callz disp) :=
  fun _ h0 hw _ h => ⟨congrArg Instr.callz (label_back h0 hw h), label_fits, zero_fits _⟩

theorem OperandFields.ret : Statement .ret :=
  fun _ _ _ _ _ => ⟨rfl, zero_fits _, zero_fits _⟩

theorem OperandFields.iret : Statement .iret :=
  fun _ _ _ _ _ => ⟨rfl, zero_fits _, zero_fits _⟩

theorem OperandFields.lsp (rd : RegIdx) (f : Byte) : Statement (.lsp rd f) :=
  fun _ _ _ _ h => ⟨congrArg₂ Instr.lsp (reg_back rd) (byte_back f), reg_fits rd, direct_fits h⟩

theorem OperandFields.lspi (rd rb : RegIdx) : Statement (.lspi rd rb) :=
  fun _ _ _ _ _ => ⟨congrArg₂ Instr.lspi (reg_back rd) (reg_back rb), reg_fits rd, reg_fits rb⟩

theorem OperandFields.ssp (rd : RegIdx) (f : Byte) : Statement (.ssp rd f) :=
  fun _ _ _ _ h => ⟨congrArg₂ Instr.ssp (reg_back rd) (byte_back f), reg_fits rd, direct_fits h⟩

theorem OperandFields.sspi (rd rb : RegIdx) : Statement (.sspi rd rb) :=
  fun _ _ _ _ _ => ⟨congrArg₂ Instr.sspi (reg_back rd) (reg_back rb), reg_fits rd, reg_fits rb⟩

theorem OperandFields.importD (rd : RegIdx) (f : Byte) : Statement (.importD rd f) :=
  fun _ _ _ _ h => ⟨congrArg₂ Instr.importD (reg_back rd) (byte_back f), reg_fits rd, direct_fits h⟩

theorem OperandFields.importI (rd rb : RegIdx) : Statement (.importI rd rb) :=
  fun _ _ _ _ _ => ⟨congrArg₂ Instr.importI (reg_back rd) (reg_back rb), reg_fits rd, reg_fits rb⟩

theorem OperandFields.exportD (rd : RegIdx) (f : Byte) : Statement (.exportD rd f) :=
  fun _ _ _ _ h => ⟨congrArg₂ Instr.exportD (reg_back rd) (byte_back f), reg_fits rd, direct_fits h⟩

theorem OperandFields.exportI (rd rb : RegIdx) : Statement (.exportI rd rb) :=
  fun _ _ _ _ _ => ⟨congrArg₂ Instr.exportI (reg_back rd) (reg_back rb), reg_fits rd, reg_fits rb⟩

end Sys2Proof.Laws
end

