-- ==== Sys2Proof/Laws/Decode.lean ====
section
/-! SUPPORT. Bricks for the encoding statements: the bits of a field, a placed word read back, and what
`Enc.wf` says of the rows of the opcode map. -/

namespace Sys2Proof

theorem fieldMask_getLsbD (lo n i : Nat) :
    (fieldMask lo n).getLsbD i = (decide (lo ≤ i) && decide (i < lo + n) && decide (i < 18)) := by
  rw [fieldMask, BitVec.getLsbD_shiftLeft, Laws.lowMask_getLsbD, Bool.eq_iff_iff]
  simp
  omega

theorem fieldAt_getLsbD (w : Word) (lo n i : Nat) :
    (fieldAt w lo n).getLsbD i = (decide (i < n) && w.getLsbD (lo + i)) := by
  rw [fieldAt, BitVec.getLsbD_and, BitVec.getLsbD_ushiftRight, Laws.lowMask_getLsbD, Bool.eq_iff_iff]
  simp only [Bool.and_eq_true, decide_eq_true_eq]
  constructor
  · exact fun g => ⟨g.2.2, g.1⟩
  · exact fun g => ⟨g.2, by have := BitVec.lt_of_getLsbD g.2; omega, g.1⟩

/-- A field as a number is below 2 to its width. -/
theorem fieldAt_lt (w : Word) (lo n : Nat) : (fieldAt w lo n).toNat < 2 ^ n := by
  refine Nat.lt_pow_two_of_testBit _ fun i hi => ?_
  have h := fieldAt_getLsbD w lo n i
  rw [BitVec.getLsbD] at h
  rw [h]
  simp only [Bool.and_eq_false_iff, decide_eq_false_iff_not]
  exact .inl (by omega)

theorem getLsbD_of_lt {a : Word} {n i : Nat} (h : a.toNat < 2 ^ n) (hi : n ≤ i) :
    a.getLsbD i = false :=
  Nat.testBit_lt_two_pow (Nat.lt_of_lt_of_le h (Nat.pow_le_pow_right (by decide) hi))

/-- A word within the low `n` bits is below 2^n. -/
theorem lt_of_and_lowMask {a : Word} {n : Nat} (h : a &&& lowMask n = a) : a.toNat < 2 ^ n := by
  have h : (a &&& lowMask n).toNat = a.toNat := by rw [h]
  have hm : (lowMask n).toNat ≤ 2 ^ n - 1 := by
    simp only [lowMask, BitVec.toNat_ofNat]
    exact Nat.mod_le _ _
  have hp := Nat.two_pow_pos n
  rw [BitVec.toNat_and] at h
  have := Nat.and_le_right (n := a.toNat) (m := (lowMask n).toNat)
  omega

/-- What a well-formed row says bit by bit: its fields lie inside the word, where its mask and its pattern
hold no bit and the other field none. -/
theorem EncRow.wf_bits {e : Enc} {r : EncRow} (h : r.wf e = true) :
    (∀ i, r.pat.getLsbD i = true → r.mask.getLsbD i = true) ∧
      r.lo1 + e.width r.op.kinds.1 ≤ 18 ∧ r.lo2 + e.width r.op.kinds.2 ≤ 18 ∧
      (∀ i < e.width r.op.kinds.1, r.mask.getLsbD (r.lo1 + i) = false) ∧
      (∀ i < e.width r.op.kinds.2, r.mask.getLsbD (r.lo2 + i) = false) ∧
      (∀ i, r.lo1 ≤ i → i < r.lo1 + e.width r.op.kinds.1 → r.lo2 ≤ i →
        r.lo2 + e.width r.op.kinds.2 ≤ i) := by
  simp only [EncRow.wf, Bool.and_eq_true, beq_iff_eq, decide_eq_true_eq] at h
  obtain ⟨⟨⟨⟨⟨⟨hp, -⟩, h1⟩, h2⟩, m1⟩, m2⟩, m3⟩ := h
  refine ⟨fun i hi => ?_, h1, h2, fun i hi => ?_, fun i hi => ?_, fun i a b c => ?_⟩
  · have := congrArg (·.getLsbD i) hp
    simpa [hi] using this
  · have := congrArg (·.getLsbD (r.lo1 + i)) m1
    simp only [BitVec.getLsbD_and, fieldMask_getLsbD] at this
    simpa [hi, show r.lo1 + i < 18 by omega] using this
  · have := congrArg (·.getLsbD (r.lo2 + i)) m2
    simp only [BitVec.getLsbD_and, fieldMask_getLsbD] at this
    simpa [hi, show r.lo2 + i < 18 by omega] using this
  · have := congrArg (·.getLsbD i) m3
    simp only [BitVec.getLsbD_and, fieldMask_getLsbD] at this
    by_contra g
    have : i < 18 := by omega
    simp_all

variable {e : Enc} {r : EncRow} {a b : Word}

theorem EncRow.place_getLsbD (i : Nat) :
    (r.place a b).getLsbD i = (r.pat.getLsbD i
      || (decide (i < 18) && !decide (i < r.lo1) && a.getLsbD (i - r.lo1))
      || (decide (i < 18) && !decide (i < r.lo2) && b.getLsbD (i - r.lo2))) := by
  simp [EncRow.place]

/-- A well-formed row claims every word placed by it. -/
theorem EncRow.claims_place (h : r.wf e = true) (ha : a.toNat < 2 ^ e.width r.op.kinds.1)
    (hb : b.toNat < 2 ^ e.width r.op.kinds.2) : r.claims (r.place a b) = true := by
  obtain ⟨hp, h1, h2, m1, m2, -⟩ := EncRow.wf_bits h
  rw [EncRow.claims, beq_iff_eq]
  refine BitVec.eq_of_getLsbD_eq fun i hi => ?_
  rw [BitVec.getLsbD_and, EncRow.place_getLsbD, Bool.eq_iff_iff]
  simp only [Bool.and_eq_true, Bool.or_eq_true, Bool.not_eq_true', decide_eq_true_eq,
    decide_eq_false_iff_not, not_lt]
  constructor
  · rintro ⟨(g | ⟨⟨-, g⟩, k⟩) | ⟨⟨-, g⟩, k⟩, m⟩
    · exact g
    · by_cases q : i - r.lo1 < e.width r.op.kinds.1
      · have := m1 _ q; rw [show r.lo1 + (i - r.lo1) = i by omega, m] at this; cases this
      · rw [getLsbD_of_lt ha (by omega)] at k; cases k
    · by_cases q : i - r.lo2 < e.width r.op.kinds.2
      · have := m2 _ q; rw [show r.lo2 + (i - r.lo2) = i by omega, m] at this; cases this
      · rw [getLsbD_of_lt hb (by omega)] at k; cases k
  · exact fun g => ⟨.inl (.inl g), hp i g⟩

/-- The first field of a placed word. -/
theorem EncRow.field1_place (h : r.wf e = true) (ha : a.toNat < 2 ^ e.width r.op.kinds.1)
    (hb : b.toNat < 2 ^ e.width r.op.kinds.2) :
    fieldAt (r.place a b) r.lo1 (e.width r.op.kinds.1) = a := by
  obtain ⟨hp, h1, h2, m1, m2, m3⟩ := EncRow.wf_bits h
  refine BitVec.eq_of_getLsbD_eq fun i hi => ?_
  rw [fieldAt_getLsbD, EncRow.place_getLsbD, Nat.add_sub_cancel_left]
  by_cases q : i < e.width r.op.kinds.1
  · have hpat : r.pat.getLsbD (r.lo1 + i) = false := by
      by_contra g
      have := hp _ (by simpa using g)
      rw [m1 i q] at this; cases this
    have hoth : r.lo2 ≤ r.lo1 + i → b.getLsbD (r.lo1 + i - r.lo2) = false := fun g =>
      getLsbD_of_lt hb (by have := m3 (r.lo1 + i) (by omega) (by omega) g; omega)
    rw [hpat, Bool.eq_iff_iff]
    simp only [q, decide_true, Bool.true_and, Bool.false_or, Bool.or_eq_true, Bool.and_eq_true,
      decide_eq_true_eq, Bool.not_eq_true', decide_eq_false_iff_not, not_lt]
    constructor
    · rintro (⟨-, g⟩ | ⟨⟨-, g⟩, k⟩)
      · exact g
      · rw [hoth g] at k; cases k
    · exact fun g => .inl ⟨⟨by omega, by omega⟩, g⟩
  · rw [getLsbD_of_lt ha (by omega)]; simp [q]

/-- The second field of a placed word. -/
theorem EncRow.field2_place (h : r.wf e = true) (ha : a.toNat < 2 ^ e.width r.op.kinds.1)
    (hb : b.toNat < 2 ^ e.width r.op.kinds.2) :
    fieldAt (r.place a b) r.lo2 (e.width r.op.kinds.2) = b := by
  obtain ⟨hp, h1, h2, m1, m2, m3⟩ := EncRow.wf_bits h
  refine BitVec.eq_of_getLsbD_eq fun i hi => ?_
  rw [fieldAt_getLsbD, EncRow.place_getLsbD, Nat.add_sub_cancel_left]
  by_cases q : i < e.width r.op.kinds.2
  · have hpat : r.pat.getLsbD (r.lo2 + i) = false := by
      by_contra g
      have := hp _ (by simpa using g)
      rw [m2 i q] at this; cases this
    have hoth : r.lo1 ≤ r.lo2 + i → a.getLsbD (r.lo2 + i - r.lo1) = false := fun g =>
      getLsbD_of_lt ha (by
        by_contra k
        have := m3 (r.lo2 + i) g (by omega) (by omega)
        omega)
    rw [hpat, Bool.eq_iff_iff]
    simp only [q, decide_true, Bool.true_and, Bool.false_or, Bool.or_eq_true, Bool.and_eq_true,
      decide_eq_true_eq, Bool.not_eq_true', decide_eq_false_iff_not, not_lt]
    constructor
    · rintro (⟨⟨-, g⟩, k⟩ | ⟨-, g⟩)
      · rw [hoth g] at k; cases k
      · exact g
    · exact fun g => .inr ⟨⟨by omega, by omega⟩, g⟩
  · rw [getLsbD_of_lt hb (by omega)]; simp [q]

/-- Rows that are apart claim no common word. -/
theorem EncRow.apart_claims {r q : EncRow} {w : Word} (h : r.apart q = true)
    (hr : r.claims w = true) : q.claims w = false := by
  by_contra hq
  simp only [EncRow.claims, beq_iff_eq, Bool.not_eq_false] at hr hq
  simp only [EncRow.apart, bne_iff_ne, ne_eq] at h
  apply h
  rw [← hr, ← hq]
  refine BitVec.eq_of_getLsbD_eq fun i hi => ?_
  simp only [BitVec.getLsbD_and, BitVec.getLsbD_xor]
  cases w.getLsbD i <;> cases r.mask.getLsbD i <;> cases q.mask.getLsbD i <;> simp

/-- Among rows that R110 keeps apart, the ones other than NOP's that claim a word are at most one. -/
theorem rowsApart_filter {rs : List EncRow} (h : rowsApart rs = true) {w : Word}
    (hn : ∀ r ∈ rs, r.claims w = true → (r.op == .nop) = false) :
    (rs.filter (·.claims w)).length ≤ 1 := by
  induction rs with
  | nil => simp
  | cons r rs ih =>
    simp only [rowsApart, Bool.and_eq_true, List.all_eq_true, Bool.or_eq_true] at h
    have ih := ih h.2 fun q hq => hn q (List.mem_cons_of_mem _ hq)
    by_cases c : r.claims w = true
    · have : rs.filter (·.claims w) = [] := by
        rw [List.filter_eq_nil_iff]
        intro q hq g
        rcases h.1 q hq with (k | k) | k
        · rw [hn r List.mem_cons_self c] at k; cases k
        · rw [hn q (List.mem_cons_of_mem _ hq) g] at k; cases k
        · rw [EncRow.apart_claims k c] at g; cases g
      simp [c, this]
    · simpa [List.filter_cons, c] using ih

theorem mem_agreeing {m p w : Word} (hp : p &&& m = p) (n : Nat) :
    w ∈ agreeing m p n ↔ ∀ i, (m.getLsbD i = true ∨ n ≤ i) → w.getLsbD i = p.getLsbD i := by
  induction n generalizing w with
  | zero =>
    simp only [agreeing, List.mem_singleton, Nat.zero_le, or_true, forall_const]
    exact ⟨fun h i => by rw [h], fun h => BitVec.eq_of_getLsbD_eq fun i _ => h i⟩
  | succ n ih =>
    have low : ∀ i, m.getLsbD i = false → p.getLsbD i = false := by
      intro i hi
      have := congrArg (·.getLsbD i) hp
      simpa [hi] using this.symm
    simp only [agreeing]
    split
    · rename_i hm
      rw [ih]
      refine forall_congr' fun i => ?_
      by_cases h : i = n
      · subst h; simp [hm]
      · exact imp_congr_left (or_congr_right (by omega))
    · rename_i hm
      have hm : m.getLsbD n = false := by simpa using hm
      rw [List.mem_append, List.mem_map]
      constructor
      · rintro (h | ⟨u, hu, rfl⟩) i hi
        · exact ih.1 h i (hi.imp id (by omega))
        · have hi' : i ≠ n := by
            rintro rfl
            rcases hi with h | h
            · rw [hm] at h; cases h
            · omega
          have : (BitVec.twoPow 18 n).getLsbD i = false := by
            simp only [BitVec.getLsbD_twoPow, Bool.and_eq_false_iff, decide_eq_false_iff_not]
            exact .inr (fun h => hi' h.symm)
          rw [BitVec.getLsbD_or, this, Bool.or_false]
          exact ih.1 hu i (hi.imp id (by omega))
      · intro h
        by_cases hw : w.getLsbD n = true
        · refine .inr ⟨w &&& ~~~(BitVec.twoPow 18 n), ih.2 fun i hi => ?_, ?_⟩
          · by_cases e : i = n
            · subst e
              rw [low _ hm]
              have := BitVec.lt_of_getLsbD hw
              simp [this]
            · have hwi := h i (hi.imp id (by omega))
              have := Ne.symm e
              by_cases l : i < 18
              · rw [BitVec.getLsbD_and, BitVec.getLsbD_not, BitVec.getLsbD_twoPow]
                simp only [this, hwi, l, decide_false, decide_true, Bool.and_false, Bool.not_false,
                  Bool.and_true]
              · rw [BitVec.getLsbD_of_ge _ _ (by omega), BitVec.getLsbD_of_ge _ _ (by omega)]
          · refine BitVec.eq_of_getLsbD_eq fun i hi => ?_
            by_cases e : n = i
            · subst e; simp [hi, hw]
            · rw [BitVec.getLsbD_or, BitVec.getLsbD_and, BitVec.getLsbD_not, BitVec.getLsbD_twoPow]
              simp [e, hi]
        · refine .inl (ih.2 fun i hi => ?_)
          by_cases e : i = n
          · subst e; rw [low _ hm]; simpa using hw
          · exact h i (hi.imp id (by omega))

/-- A word that two well-formed rows claim is among their common words. -/
theorem EncRow.mem_common {r q : EncRow} {w : Word} (hr : r.claims w = true)
    (hq : q.claims w = true) : w ∈ r.common q := by
  simp only [EncRow.claims, beq_iff_eq] at hr hq
  refine (mem_agreeing ?_ 18).2 fun i hi => ?_
  · rw [← hr, ← hq]
    refine BitVec.eq_of_getLsbD_eq fun i _ => ?_
    simp only [BitVec.getLsbD_and, BitVec.getLsbD_or]
    cases w.getLsbD i <;> cases r.mask.getLsbD i <;> cases q.mask.getLsbD i <;> rfl
  · rw [← hr, ← hq]
    simp only [BitVec.getLsbD_and, BitVec.getLsbD_or] at hi ⊢
    rcases hi with hi | hi
    · cases h : w.getLsbD i <;> simp_all
    · rw [BitVec.getLsbD_of_ge _ _ hi]; rfl

/-- The parts of `Enc.wf`. -/
theorem Enc.wf_iff : e.wf = true ↔
    (1 ≤ e.labelW ∧ e.labelW ≤ 17) ∧ e.directW ≤ 8 ∧ 2 ≤ e.csrW ∧
      (∀ o ∈ Op.all, (e.table.filter fun r => r.op == o).length = 1) ∧
      (∀ r ∈ e.table, r.wf e = true) ∧ rowsApart e.table = true := by
  simp [Enc.wf, and_assoc]

theorem Op.mem_all (o : Op) : o ∈ Op.all := by cases o <;> decide

/-- Under an `ENC` that meets R110 the opcode map has one row for an instruction. -/
theorem Enc.row_unique (h : e.wf = true) {r q : EncRow} (hr : r ∈ e.table) (hq : q ∈ e.table)
    (ho : r.op = q.op) : r = q := by
  have h1 := (Enc.wf_iff.1 h).2.2.2.1 r.op (Op.mem_all _)
  obtain ⟨x, hx⟩ := List.length_eq_one_iff.1 h1
  have a : r ∈ e.table.filter fun y => y.op == r.op := List.mem_filter.2 ⟨hr, by simp⟩
  have b : q ∈ e.table.filter fun y => y.op == r.op := List.mem_filter.2 ⟨hq, by simp [ho]⟩
  rw [hx, List.mem_singleton] at a b
  rw [a, b]

/-- A word that a row claims and that is not NOP's decodes to the row's instruction. -/
theorem decode_of_claims (h : e.wf = true) {w : Word} (hw : e.spellsNop w = false)
    (hr : r ∈ e.table) (hc : r.claims w = true) : decode e w = .ok (r.read e w) := by
  have hn : ∀ q ∈ e.table, q.claims w = true → (q.op == .nop) = false := by
    intro q hq c
    rw [Enc.spellsNop, List.any_eq_false] at hw
    simpa [c] using hw q hq
  have hl := rowsApart_filter (Enc.wf_iff.1 h).2.2.2.2.2 hn
  have hm : r ∈ e.table.filter (·.claims w) := List.mem_filter.2 ⟨hr, hc⟩
  obtain ⟨x, hx⟩ : ∃ x, e.table.filter (·.claims w) = [x] :=
    List.length_eq_one_iff.1 (by have := List.length_pos_of_mem hm; omega)
  rw [hx, List.mem_singleton] at hm
  simp [decode, hw, hx, hm]

/-- What a successful decoding means: NOP's pattern, or a row that claims the word. -/
theorem decode_ok {w : Word} {i : Instr} (h : decode e w = .ok i) :
    (e.spellsNop w = true ∧ i = .nop) ∨
      (e.spellsNop w = false ∧ ∃ r ∈ e.table, r.claims w = true ∧ i = r.read e w) := by
  unfold decode at h
  split at h
  · rename_i g; cases h; exact .inl ⟨g, rfl⟩
  · rename_i g
    split at h
    · cases h
    · rename_i r k
      cases h
      have : r ∈ e.table.filter (·.claims w) := by rw [k]; exact List.mem_singleton.2 rfl
      obtain ⟨a, b⟩ := List.mem_filter.1 this
      exact .inr ⟨by simpa using g, r, a, b, rfl⟩
    · cases h

end Sys2Proof
end

