-- ==== Sys2Proof/Laws/Ops.lean ====
section
/-! SUPPORT. For each shared operation, once, everything it can do: "if it answers a next state, then …".
Cite these instead of unfolding the operations. -/

namespace Sys2Proof.Machine

variable {s s' : State}

/-! ### The program counter -/

theorem State.goto_next {t : Int} :
    s.goto t = .next s' ↔ 0 ≤ t ∧ t < (s.cfg.promSize : Int) ∧ s' = s.setPc t.toNat := by
  unfold State.goto
  split
  · rename_i h; simp [h.1, h.2, eq_comm]
  · rename_i h
    simp only [reduceCtorEq, false_iff]
    exact fun g => h ⟨g.1, g.2.1⟩

theorem State.goto_inside {t : Int} (h0 : 0 ≤ t) (h1 : t < (s.cfg.promSize : Int)) :
    s.goto t = .next (s.setPc t.toNat) := by simp [State.goto, h0, h1]

theorem State.advance_next :
    s.advance = .next s' ↔ s.pc + 1 < s.cfg.promSize ∧ s' = s.setPc (s.pc + 1) := by
  unfold State.advance
  rw [State.goto_next]
  constructor
  · rintro ⟨-, h, rfl⟩; exact ⟨by omega, by congr 1⟩
  · rintro ⟨h, rfl⟩; exact ⟨by omega, by omega, by congr 1⟩

theorem State.advance_inside (h : s.pc + 1 < s.cfg.promSize) :
    s.advance = .next (s.setPc (s.pc + 1)) := State.advance_next.2 ⟨h, rfl⟩

theorem State.goto_not_refused {t : Int} {r : Refusal} : s.goto t ≠ .refused r := by
  unfold State.goto; split <;> simp

theorem State.advance_not_refused {r : Refusal} : s.advance ≠ .refused r := State.goto_not_refused

theorem State.branch_next {taken : Bool} {d : Int} :
    s.branch taken d = .next s' ↔
      (taken = true ∧ s.goto (s.pc + d) = .next s') ∨ (taken = false ∧ s.advance = .next s') := by
  cases taken <;> simp [State.branch]

/-! ### The call stack -/

theorem State.push_ok {f : Frame} :
    s.push f = .ok s' ↔
      s.stack.length < s.cfg.stackDepth.toNat ∧ s' = s.setStack (f :: s.stack) := by
  unfold State.push
  split
  · rename_i h; simp [h, eq_comm]
  · rename_i h; simp [h]

theorem State.push_error {f : Frame} {e : Fault} :
    s.push f = .error e ↔ s.cfg.stackDepth.toNat ≤ s.stack.length ∧ e = .callStackOverflow := by
  unfold State.push
  split
  · rename_i h; simp; omega
  · rename_i h; simp [eq_comm]; omega

theorem State.pop_ok {f : Frame} :
    s.pop = .ok (f, s') ↔ ∃ k, s.stack = f :: k ∧ s' = s.setStack k := by
  unfold State.pop
  split
  · rename_i h; simp [h]
  · rename_i g k h; simp [h, eq_comm]

theorem State.pop_error {e : Fault} :
    s.pop = .error e ↔ s.stack = [] ∧ e = .callStackUnderflow := by
  unfold State.pop
  split
  · rename_i h; simp [h, eq_comm]
  · rename_i g k h; simp [h]

theorem State.call_next {taken : Bool} {d : Int} :
    s.call taken d = .next s' ↔
      (taken = true ∧ s.stack.length < s.cfg.stackDepth.toNat ∧
        ((s.setStack (s.callFrame :: s.stack)).drawn 2).goto (s.pc + d) = .next s') ∨
      (taken = false ∧ s.advance = .next s') := by
  cases taken with
  | false => simp [State.call]
  | true =>
    simp only [State.call, if_true, true_and, Bool.true_eq_false, false_and, or_false]
    split
    · rename_i e h
      have := (State.push_error.1 h).1
      simp only [reduceCtorEq, false_iff]
      omega
    · rename_i t h
      obtain ⟨hl, rfl⟩ := State.push_ok.1 h
      simp [hl]

theorem State.returnFromCall_next :
    s.returnFromCall = .next s' ↔
      ∃ f k, s.stack = f :: k ∧ f.addr < s.cfg.promSize ∧ s' = (s.setStack k).setPc f.addr := by
  unfold State.returnFromCall
  split
  · rename_i e h; simp [(State.pop_error.1 h).1]
  · rename_i f t h
    obtain ⟨k, hk, rfl⟩ := State.pop_ok.1 h
    rw [State.goto_next]
    simp [hk]

theorem State.returnFromInterrupt_next :
    s.returnFromInterrupt = .next s' ↔
      ∃ f k, s.stack = f :: k ∧ f.addr < s.cfg.promSize ∧
        s' = ((((s.setStack k).setC f.c).setZ f.z).unblockEntry).setPc f.addr := by
  unfold State.returnFromInterrupt
  split
  · rename_i e h; simp [(State.pop_error.1 h).1]
  · rename_i f t h
    obtain ⟨k, hk, rfl⟩ := State.pop_ok.1 h
    rw [State.goto_next]
    have hc : (((s.setStack k).setC f.c).setZ f.z).unblockEntry.cfg = s.cfg := by
      unfold State.unblockEntry; split <;> rfl
    simp [hk, hc]

/-! ### Interrupts -/

theorem State.takeInterrupt_next :
    s.takeInterrupt = .next s' ↔
      s.stack.length < s.cfg.stackDepth.toNat ∧
        s' = ((s.setStack ({ addr := s.pc, c := s.c, z := s.z } :: s.stack)).blockEntry).setPc 0 := by
  unfold State.takeInterrupt
  split
  · rename_i e h
    have := (State.push_error.1 h).1
    simp only [reduceCtorEq, false_iff]
    omega
  · rename_i t h
    obtain ⟨hl, rfl⟩ := State.push_ok.1 h
    simp [hl, eq_comm]

/-- What blocking entries can change: IE under `auto`, ISR under `in_service`, nothing else. -/
theorem State.blockEntry_eq :
    (s.cfg.irqPolicy = .auto ∧ s.blockEntry = s.setIe false) ∨
      (s.cfg.irqPolicy = .inService ∧ s.blockEntry = s.setIsr true) := by
  unfold State.blockEntry; cases s.cfg.irqPolicy <;> simp

/-- What unblocking entries can change: IE under `auto`, ISR under `in_service`, nothing else. -/
theorem State.unblockEntry_eq :
    (s.cfg.irqPolicy = .auto ∧ s.unblockEntry = s.setIe true) ∨
      (s.cfg.irqPolicy = .inService ∧ s.unblockEntry = s.setIsr false) := by
  unfold State.unblockEntry; cases s.cfg.irqPolicy <;> simp

theorem State.interruptDue_iff :
    s.interruptDue = true ↔
      s.ie = true ∧ s.ip &&& s.im ≠ 0 ∧ ¬(s.cfg.irqPolicy = .inService ∧ s.isr = true) := by
  simp only [State.interruptDue, Bool.and_eq_true, bne_iff_ne, ne_eq, Bool.not_eq_true',
    Bool.and_eq_false_iff, beq_eq_false_iff_ne, not_and, Bool.not_eq_true, and_assoc]
  constructor
  · rintro ⟨h, g, k⟩; exact ⟨h, g, fun e => k.resolve_left (not_not.2 e)⟩
  · rintro ⟨h, g, k⟩; exact ⟨h, g, (em _).elim (fun e => .inr (k e)) .inl⟩

/-! ### Control and status registers -/

theorem State.readCsr_some {n : Nat} {v : Byte} :
    s.readCsr n = some v ↔
      (n = 0 ∧ v = s.csrBits s.cfg.lineMask s.ip) ∨ (n = 1 ∧ v = s.csrBits s.cfg.lineMask s.im) ∨
        (n = 2 ∧ v = s.csrBits 1#8 ((BitVec.ofBool s.ie).setWidth 8)) := by
  match n with
  | 0 => simp [State.readCsr, eq_comm]
  | 1 => simp [State.readCsr, eq_comm]
  | 2 => simp [State.readCsr, eq_comm]
  | k + 3 => simp [State.readCsr]

theorem State.writeCsr_some {n : Nat} {v : Byte} :
    s.writeCsr n v = some s' ↔
      (n = 0 ∧ s' = s.setIp (s.ip &&& ~~~v)) ∨ (n = 1 ∧ s' = s.setIm (v &&& s.cfg.lineMask)) ∨
        (n = 2 ∧ s' = s.setIe (v.getLsbD 0)) := by
  match n with
  | 0 => simp [State.writeCsr, eq_comm]
  | 1 => simp [State.writeCsr, eq_comm]
  | 2 => simp [State.writeCsr, eq_comm]
  | k + 3 => simp [State.writeCsr]

theorem State.readCsr_none {n : Nat} : s.readCsr n = none ↔ 3 ≤ n := by
  match n with
  | 0 | 1 | 2 => simp [State.readCsr]
  | k + 3 => simp [State.readCsr]

theorem State.writeCsr_none {n : Nat} {v : Byte} : s.writeCsr n v = none ↔ 3 ≤ n := by
  match n with
  | 0 | 1 | 2 => simp [State.writeCsr]
  | k + 3 => simp [State.writeCsr]

/-- Every defined bit of a CSR reads as it is stored (R36, R186). -/
theorem State.csrBits_and (mask v : Byte) : s.csrBits mask v &&& mask = v &&& mask := by
  unfold State.csrBits
  split
  · rfl
  · ext i hi
    simp only [BitVec.getElem_and, BitVec.getElem_or, BitVec.getElem_not]
    cases v[i] <;> cases mask[i] <;> simp

/-! ### Memory -/

@[simp] theorem State.setReg_held (r : RegIdx) (v : Byte) : (s.setReg r v).held = s.held := rfl
@[simp] theorem State.setReg_spByte (r : RegIdx) (v : Byte) : (s.setReg r v).spByte = s.spByte := rfl
@[simp] theorem State.setC_held (b : Bool) : (s.setC b).held = s.held := rfl
@[simp] theorem State.setC_spByte (b : Bool) : (s.setC b).spByte = s.spByte := rfl
@[simp] theorem State.setZ_held (b : Bool) : (s.setZ b).held = s.held := rfl
@[simp] theorem State.setZ_spByte (b : Bool) : (s.setZ b).spByte = s.spByte := rfl
@[simp] theorem State.setPc_held (a : Nat) : (s.setPc a).held = s.held := rfl
@[simp] theorem State.setPc_spByte (a : Nat) : (s.setPc a).spByte = s.spByte := rfl
@[simp] theorem State.setIp_held (v : Byte) : (s.setIp v).held = s.held := rfl
@[simp] theorem State.setIp_spByte (v : Byte) : (s.setIp v).spByte = s.spByte := rfl
@[simp] theorem State.setIm_held (v : Byte) : (s.setIm v).held = s.held := rfl
@[simp] theorem State.setIm_spByte (v : Byte) : (s.setIm v).spByte = s.spByte := rfl
@[simp] theorem State.setIe_held (b : Bool) : (s.setIe b).held = s.held := rfl
@[simp] theorem State.setIe_spByte (b : Bool) : (s.setIe b).spByte = s.spByte := rfl
@[simp] theorem State.setIsr_held (b : Bool) : (s.setIsr b).held = s.held := rfl
@[simp] theorem State.setIsr_spByte (b : Bool) : (s.setIsr b).spByte = s.spByte := rfl
@[simp] theorem State.setStack_held (k : List Frame) : (s.setStack k).held = s.held := rfl
@[simp] theorem State.setStack_spByte (k : List Frame) : (s.setStack k).spByte = s.spByte := rfl
@[simp] theorem State.record_held (e : IoEvent) : (s.record e).held = s.held := rfl
@[simp] theorem State.record_spByte (e : IoEvent) : (s.record e).spByte = s.spByte := rfl
@[simp] theorem State.setAnswers_held (l : List Byte) : (s.setAnswers l).held = s.held := rfl
@[simp] theorem State.setAnswers_spByte (l : List Byte) : (s.setAnswers l).spByte = s.spByte := rfl
@[simp] theorem State.drawn_held (n : Nat) : (s.drawn n).held = s.held := rfl
@[simp] theorem State.drawn_spByte (n : Nat) : (s.drawn n).spByte = s.spByte := rfl

/-- What is held depends on the configuration, the PROM and the stored bytes alone. -/
theorem State.held_congr (hc : s'.cfg = s.cfg) (hp : s'.prom = s.prom) (hs : s'.sp = s.sp) :
    s'.held = s.held ∧ s'.spByte = s.spByte := by
  have h : s'.held = s.held := by funext l; simp only [State.held, hc, hp, hs]
  exact ⟨h, by funext a; simp only [State.spByte, hc, h]⟩

/-- Storage that another master shares holds no sure byte (R82). -/
theorem State.held_shared {l : Loc} (h : s.cfg.isShared l = true) : s.held l = none := by
  simp [State.held, h]

/-- What a location holds after a write to a storage cell: the byte written where the location is kept in that
cell, and what it held before in any other. -/
theorem State.held_write {l : Loc} (hs : s.cfg.isShared l = false) (hp : s.cfg.isProm l = false)
    (k : Nat) (v : Byte) : (s.setSp (Cells.write s.sp k v)).held l =
      if s.cfg.spKey l = some k then some v else s.held l := by
  simp only [State.held, State.setSp_cfg, hs, Config.promName_none.2 hp, State.setSp_sp]
  cases h : s.cfg.spKey l with
  | none => simp
  | some j =>
    simp only [Option.bind_some, Cells.read_write, Option.some.injEq, Bool.false_eq_true, if_false]
    by_cases g : k = j
    · subst g; simp
    · simp [g, Ne.symm g]

theorem State.held_write_other {l : Loc} {k : Nat} (h : s.cfg.spKey l ≠ some k) (v : Byte) :
    (s.setSp (Cells.write s.sp k v)).held l = s.held l := by
  cases hs : s.cfg.isShared l with
  | true => rw [State.held_shared hs]; exact State.held_shared hs
  | false =>
    cases hp : s.cfg.isProm l with
    | false => rw [State.held_write hs hp, if_neg h]
    | true =>
      have := mt Config.promName_none.1 (by simp [hp] : ¬s.cfg.isProm l = false)
      obtain ⟨p, hp⟩ := Option.ne_none_iff_exists'.1 this
      simp [State.held, hs, hp]

/-- What a scratchpad read can do: give the byte held, or any byte of shared storage. -/
theorem State.readSp_ok {a : Nat} {v : Byte} :
    s.readSp a = .ok (v, s') ↔
      ∃ l, s.cfg.locateSp a = some l ∧ ((s.held (.sp l) = some v ∧ s' = s) ∨
        (s.cfg.isShared (.sp l) = true ∧ v = s.answer.1 ∧ s' = s.answer.2)) := by
  unfold State.readSp
  split
  · rename_i h; simp [h]
  · rename_i l h
    simp only [h, Option.some.injEq, exists_eq_left']
    split
    · rename_i u g
      have : s.cfg.isShared (.sp l) = false := by
        by_contra k; rw [State.held_shared (by simpa using k)] at g; cases g
      simp [g, this, eq_comm]
    · rename_i g
      split
      · rename_i k; simp [g, k, Prod.ext_iff, eq_comm]
      · rename_i k; simp [g, k]

theorem State.writeSp_ok {a : Nat} {v : Byte} :
    s.writeSp a v = .ok s' ↔
      ∃ l, s.cfg.locateSp a = some l ∧ s.cfg.isProm (.sp l) = false ∧
        s' = s.setSp (Cells.write s.sp (s.cfg.spCell l) v) := by
  unfold State.writeSp
  split
  · rename_i h; simp [h]
  · rename_i l h
    split
    · rename_i g; simp [h, g]
    · rename_i g
      constructor
      · intro k; cases k; exact ⟨l, h, by simpa using g, rfl⟩
      · rintro ⟨l', hl, -, rfl⟩
        obtain rfl : l = l' := by simpa [h] using hl
        rfl

/-- What an answer can do: consume one of the environment's, or draw an undetermined byte. -/
theorem State.answer_eq :
    (s.answers = [] ∧ s.answer = (Config.freeByte s.draws, s.drawn 1)) ∨
      ∃ v l, s.answers = v :: l ∧ s.answer = (v, s.setAnswers l) := by
  unfold State.answer
  split
  · rename_i h; simp [h]
  · rename_i v l h; simp [h]

theorem State.readIo_ok {a : Nat} {v : Byte} :
    s.readIo a = .ok (v, s') ↔
      ∃ l, s.cfg.locateIo a = some l ∧
        ((s.held (.io l) = some v ∧ s' = s.record (.read a l)) ∨
          (s.held (.io l) = none ∧ v = s.answer.1 ∧ s' = s.answer.2.record (.read a l))) := by
  unfold State.readIo
  split
  · rename_i h; simp [h]
  · rename_i l h
    simp only [h, Option.some.injEq, exists_eq_left']
    split
    · rename_i u g; simp [g, eq_comm]
    · rename_i g; simp [g, eq_comm]

theorem State.writeIo_ok {a : Nat} {v : Byte} :
    s.writeIo a v = .ok s' ↔
      ∃ l, s.cfg.locateIo a = some l ∧ s.cfg.isProm (.io l) = false ∧
        ((s.cfg.spKey (.io l) = none ∧ s' = s.record (.write a l v)) ∨
          ∃ k, s.cfg.spKey (.io l) = some k ∧
            s' = (s.setSp (Cells.write s.sp k v)).record (.write a l v)) := by
  unfold State.writeIo
  split
  · rename_i h; simp [h]
  · rename_i l h
    split
    · rename_i g; simp [h, g]
    · rename_i g
      have g : s.cfg.isProm (.io l) = false := by simpa using g
      constructor
      · intro q
        split at q
        · rename_i k; cases q; exact ⟨l, h, g, .inl ⟨k, rfl⟩⟩
        · rename_i k hk; cases q; exact ⟨l, h, g, .inr ⟨k, hk, rfl⟩⟩
      · rintro ⟨l', hl, -, q⟩
        obtain rfl : l = l' := by simpa [h] using hl
        rcases q with ⟨k, rfl⟩ | ⟨k, hk, rfl⟩
        · simp [k]
        · simp [hk]

/-! ### The shared shapes of the meanings -/

theorem State.writeAlu_next {rd : RegIdx} {r : Byte} {carry : Bool} :
    s.writeAlu rd r carry = .next s' ↔ s.pc + 1 < s.cfg.promSize ∧
      s' = (((s.setReg rd r).setC carry).setZ (zeroOf r)).setPc (s.pc + 1) := by
  unfold State.writeAlu; rw [State.advance_next]; rfl

theorem State.writeLogic_next {rd : RegIdx} {r : Byte} :
    s.writeLogic rd r = .next s' ↔ s.pc + 1 < s.cfg.promSize ∧
      s' = ((s.setReg rd r).setZ (zeroOf r)).setPc (s.pc + 1) := by
  unfold State.writeLogic; rw [State.advance_next]; rfl

theorem State.compare_next {r : Byte} {carry : Bool} :
    s.compare r carry = .next s' ↔ s.pc + 1 < s.cfg.promSize ∧
      s' = ((s.setC carry).setZ (zeroOf r)).setPc (s.pc + 1) := by
  unfold State.compare; rw [State.advance_next]; rfl

theorem State.loadSp_next {rd : RegIdx} {ea : Nat} :
    s.loadSp rd ea = .next s' ↔
      ∃ v t, s.readSp ea = .ok (v, t) ∧ (t.setReg rd v).advance = .next s' := by
  unfold State.loadSp
  split
  · rename_i e h; simp [h]
  · rename_i v t h; simp [h]

theorem State.storeSp_next {rd : RegIdx} {ea : Nat} :
    s.storeSp rd ea = .next s' ↔
      ∃ t, s.writeSp ea (s.reg rd) = .ok t ∧ t.advance = .next s' := by
  unfold State.storeSp
  split
  · rename_i e h; simp [h]
  · rename_i t h; simp [h]

theorem State.loadIo_next {rd : RegIdx} {ea : Nat} :
    s.loadIo rd ea = .next s' ↔
      ∃ v t, s.readIo ea = .ok (v, t) ∧ (t.setReg rd v).advance = .next s' := by
  unfold State.loadIo
  split
  · rename_i e h; simp [h]
  · rename_i v t h; simp [h]

theorem State.storeIo_next {rd : RegIdx} {ea : Nat} :
    s.storeIo rd ea = .next s' ↔
      ∃ t, s.writeIo ea (s.reg rd) = .ok t ∧ t.advance = .next s' := by
  unfold State.storeIo
  split
  · rename_i e h; simp [h]
  · rename_i t h; simp [h]

/-! ### Fetching and the step -/

theorem State.fetch_ok {w : Word} :
    s.fetch = .ok w ↔ s.pc < s.cfg.promSize ∧ Cells.read s.prom s.pc = some w := by
  unfold State.fetch
  split
  · rename_i h
    split
    · rename_i g; simp [g]
    · rename_i u g; simp [h, g]
  · rename_i h; simp [h]

/-- What a step can do: take an interrupt, or run the one instruction it fetches and decodes (R12). -/
theorem step_next :
    step s = .next s' ↔
      (s.takesInterrupt = true ∧ s.sample.takeInterrupt = .next s') ∨
        (s.takesInterrupt = false ∧ ∃ w i, s.sample.fetch = .ok w ∧
          decode s.cfg.enc w = .ok i ∧ exec i s.sample = .next s') := by
  unfold step
  split
  · rename_i h; simp [h]
  · rename_i h
    split
    · rename_i e g; simp [h, g]
    · rename_i w g
      split
      · rename_i e k; simp [h, g, k]
      · rename_i i k; simp [h, g, k]

end Sys2Proof.Machine
end

