-- ==== Sys2Proof/Tests/Slice0.lean ====
section
/-! SUPPORT. Small tests. Words are written out from R109 and G1, results from the vectors of
spec/95_test_vectors.md section 3 (by hand from the rules there). The witnesses at the end show, for each
statement with hypotheses, a state and operands that meet them. -/

namespace Sys2Proof.Tests

open Sys2Proof.Machine Sys2Proof.Claims

/-! ### Well-formedness: what each check refuses -/

theorem wf_refuses_long_label : Instr.WellFormed candidateEnc (.b 2048) = false := by decide

theorem wf_refuses_low_label : Instr.WellFormed candidateEnc (.callz (-2049)) = false := by decide

theorem wf_admits_label_ends : (Instr.WellFormed candidateEnc (.b 2047)
    && Instr.WellFormed candidateEnc (.b (-2048))) = true := by decide

theorem wf_refuses_wide_direct : Instr.WellFormed candidateEnc (.lsp 0 32) = false := by decide

theorem wf_refuses_wide_csr : Instr.WellFormed candidateEnc (.rcsr 0 32) = false := by decide

theorem wf_refuses_wide_csr_write : Instr.WellFormed candidateEnc (.wcsr 32 0) = false := by decide

theorem legal_admits_preset : preset.legal = true := by decide

theorem legal_refuses_prom_5120 : ({ preset with promSize := 5120 }).legal = false := by decide

theorem legal_refuses_sp_48 : ({ preset with spSize := 48 }).legal = false := by decide

theorem legal_refuses_sp_16 : ({ preset with spSize := 16 }).legal = false := by decide

theorem legal_refuses_io_3 : ({ preset with ioSize := 3 }).legal = false := by decide

theorem legal_admits_no_io : ({ preset with ioSize := 0 }).legal = true := by decide

theorem legal_refuses_sp_past_4g : ({ preset with spBase := 0xFFFF0001 }).legal = false := by
  decide

theorem legal_refuses_io_past_4g : ({ preset with ioBase := 0xFFFF0001 }).legal = false := by
  decide

theorem legal_refuses_rom_past_4g : ({ preset with romBase := 0x100000000 }).legal = false := by
  decide

theorem legal_refuses_nine_lines : ({ preset with interrupts := 9 }).legal = false := by decide

theorem legal_refuses_reset_past_prom : ({ preset with resetPc := 4096 }).legal = false := by
  decide

theorem legal_refuses_halt_past_prom : ({ preset with haltPc := some 4096 }).legal = false := by
  decide

theorem legal_refuses_unsorted_prom : ({ preset with promInit := [(1, 0), (0, 0)] }).legal = false := by
  decide

theorem legal_refuses_prom_init_past_prom : ({ preset with promInit := [(4096, 0)] }).legal = false := by
  decide

theorem legal_refuses_unsorted_sp : ({ preset with spInit := [(1, 0), (1, 0)] }).legal = false := by
  decide

theorem legal_refuses_sp_init_past_sp : ({ preset with spInit := [(65536, 0)] }).legal = false := by
  decide

theorem legal_refuses_short_byte_order :
    ({ preset with promByteOrder := preset.promByteOrder.tail }).legal = false := by decide

theorem legal_refuses_fourth_byte :
    ({ preset with promByteOrder := (3, 0) :: preset.promByteOrder.tail }).legal = false := by
  decide

theorem legal_refuses_repeated_bit :
    ({ preset with promByteOrder := (0, 1) :: preset.promByteOrder.tail }).legal = false := by
  decide

theorem legal_refuses_alias_outside : ({ preset with aliases := [[.sp 65536, .io 0]] }).legal = false := by
  decide

theorem legal_refuses_overlapping_aliases :
    ({ preset with aliases := [[.sp 0, .io 0], [.sp 0, .io 1]] }).legal = false := by decide

theorem legal_refuses_io_base_4g_without_io :
    ({ preset with ioSize := 0, ioBase := 0x100000000 }).legal = false := by decide

/-- A PROM outside the microcontroller, as XIP has it. -/
def external : Config := { preset with promInternal := false }

theorem legal_admits_external : (external.legal && ({ external with xip := true }).legal) = true := by decide

theorem legal_refuses_internal_xip : ({ preset with xip := true }).legal = false := by decide

theorem legal_refuses_xip_elsewhere :
    ({ external with xip := true, romBase := 0x10000 }).legal = false := by decide

theorem legal_refuses_prom_past_4g : ({ external with promBase := 0xFFFFD001 }).legal = false := by decide

theorem legal_admits_prom_to_4g : ({ external with promBase := 0xFFFFD000 }).legal = true := by decide

theorem legal_refuses_alias_of_internal_prom :
    ({ preset with aliases := [[.sp 0, .prom 4 0]] }).legal = false := by decide

/-- R7, R77: the three bytes of one word may each be a location. -/
theorem legal_admits_alias_of_whole_word : ({ external with
    aliases := [[.sp 0, .prom 4 0], [.sp 1, .prom 4 1], [.sp 2, .prom 4 2]] }).legal = true := by decide

theorem legal_refuses_two_prom_bytes :
    ({ external with aliases := [[.sp 0, .prom 4 0, .prom 4 1]] }).legal = false := by decide

theorem legal_refuses_fourth_prom_byte :
    ({ external with aliases := [[.sp 0, .prom 4 3]] }).legal = false := by decide

theorem legal_refuses_inside_past_sp :
    ({ preset with spPlace := .both [⟨65535, 2⟩] }).legal = false := by decide

theorem legal_refuses_shared_past_sp : ({ preset with spShared := [⟨65536, 1⟩] }).legal = false := by decide

theorem builder_refuses_high_prom :
    ({ external with promBase := 0x7FFFFFFF }).builderPlacesProm = false := by decide

theorem builder_refuses_low_io : ({ preset with ioBase := 0 }).builderPlacesIo = false := by decide

theorem enc_refuses_label_0 : ({ candidateEnc with labelW := 0 }).wf = false := by decide

theorem enc_refuses_direct_9 : ({ candidateEnc with directW := 9 }).wf = false := by decide

theorem enc_refuses_csr_1 : ({ candidateEnc with csrW := 1 }).wf = false := by decide

theorem enc_refuses_missing_row :
    ({ candidateEnc with rows := candidateRows.tail }).wf = false := by decide

theorem enc_refuses_overlap :
    ({ candidateEnc with rows := ⟨.sub, 0x14000, 0x3E007, 8, 3⟩ :: candidateRows.tail }).wf = false := by
  decide

theorem enc_refuses_moved_field :
    ({ candidateEnc with rows := ⟨.sub, 0x00000, 0x3E007, 3, 8⟩ :: candidateRows.tail }).wf = false := by
  decide

theorem enc_refuses_match_outside_mask :
    ({ candidateEnc with rows := ⟨.sub, 0x00100, 0x3E007, 8, 3⟩ :: candidateRows.tail }).wf = false := by
  decide

theorem nop_refused_on_add :
    ({ candidateEnc with
      rows := candidateRows ++ [(⟨.nop, 0x08000, 0x3FFFF, 0, 0⟩ : EncRow)] }).nopHarmless .r32 = false := by decide

/-- R110: a NOP of eight words over a MOV whose bits 2 to 0 are free; every common word is MOV R0, R0. -/
theorem nop_of_eight_words_admitted :
    ({ candidateEnc with
      rows := [⟨.mov, 0x10000, 0x3E000, 8, 3⟩, ⟨.nop, 0x10000, 0x3FFF8, 0, 0⟩] }).nopHarmless .r32 = true := by
  decide

/-- The same over one more bit, under which MOV R0, R1 has a common word. -/
theorem nop_over_another_move_refused :
    ({ candidateEnc with
      rows := [⟨.mov, 0x10000, 0x3E000, 8, 3⟩, ⟨.nop, 0x10000, 0x3FFF0, 0, 0⟩] }).nopHarmless .r32 = false := by
  decide

/-! ### Decoding: a word for every constructor, in the bits of R109 and of G1 -/

/-- The word decodes to the instruction, and the instruction encodes to the word. -/
def spells (w : Word) (i : Instr) : Bool :=
  decide (decode candidateEnc w = .ok i) && decide (encode candidateEnc i = some w)

theorem decode_add : spells 0b00100_00001_00010_000 (.add 1 2) = true := by decide

theorem decode_addc : spells 0b00110_00001_00011_000 (.addc 1 3) = true := by decide

theorem decode_addi : spells 0b00101_11111_11111111 (.addi 31 0xFF) = true := by decide

theorem decode_addic : spells 0b00111_00010_00001111 (.addic 2 0x0F) = true := by decide

theorem decode_and : spells 0b01010_00110_00101_000 (.and 6 5) = true := by decide

theorem decode_sub : spells 0b00000_00001_00010_000 (.sub 1 2) = true := by decide

theorem decode_subc : spells 0b00010_00001_00010_000 (.subc 1 2) = true := by decide

theorem decode_subi : spells 0b00001_00000_00000001 (.subi 0 1) = true := by decide

theorem decode_subic : spells 0b00011_00000_11111111 (.subic 0 0xFF) = true := by decide

theorem decode_cmp : spells 0b10000_00001_00010_000 (.cmp 1 2) = true := by decide

theorem decode_cmpi : spells 0b10001_00001_00010000 (.cmpi 1 0x10) = true := by decide

theorem decode_andi : spells 0b01011_00001_00001111 (.andi 1 0x0F) = true := by decide

theorem decode_or : spells 0b01100_00001_00010_000 (.or 1 2) = true := by decide

theorem decode_ori : spells 0b01101_00001_10000000 (.ori 1 0x80) = true := by decide

theorem decode_xor : spells 0b01110_00001_00010_000 (.xor 1 2) = true := by decide

theorem decode_xori : spells 0b01111_00001_11111111 (.xori 1 0xFF) = true := by decide

theorem decode_test : spells 0b10010_00001_00010_000 (.test 1 2) = true := by decide

theorem decode_testi : spells 0b10011_00001_10000000 (.testi 1 0x80) = true := by decide

theorem decode_mov : spells 0b01000_00001_00010_000 (.mov 1 2) = true := by decide

theorem decode_movi : spells 0b01001_00001_00101010 (.movi 1 0x2A) = true := by decide

theorem decode_nop : spells 0b01000_00000_00000_000 (.nop) = true := by decide

theorem decode_rol : spells 0b10100_00001_00010_001 (.rol 1 2) = true := by decide

theorem decode_rolc : spells 0b10100_00001_00010_011 (.rolc 1 2) = true := by decide

theorem decode_ror : spells 0b10100_00001_00010_000 (.ror 1 2) = true := by decide

theorem decode_rorc : spells 0b10100_00001_00010_010 (.rorc 1 2) = true := by decide

theorem decode_clrc : spells 0b10110_00000_00000_000 (.clrc) = true := by decide

theorem decode_setc : spells 0b10110_00000_00000_001 (.setc) = true := by decide

theorem decode_clrz : spells 0b10110_00000_00000_010 (.clrz) = true := by decide

theorem decode_setz : spells 0b10110_00000_00000_011 (.setz) = true := by decide

theorem decode_clri : spells 0b10110_00000_00000_100 (.clri) = true := by decide

theorem decode_seti : spells 0b10110_00000_00000_101 (.seti) = true := by decide

theorem decode_rcsr : spells 0b10101_00001_00010_000 (.rcsr 1 2) = true := by decide

theorem decode_wcsr : spells 0b10101_00010_00001_001 (.wcsr 2 1) = true := by decide

theorem decode_b : spells 0b110110_111111111101 (.b (-3)) = true := by decide

theorem decode_bc : spells 0b110100_000000000101 (.bc 5) = true := by decide

theorem decode_bnc : spells 0b110101_111111111100 (.bnc (-4)) = true := by decide

theorem decode_bnz : spells 0b110011_111111111110 (.bnz (-2)) = true := by decide

theorem decode_bz : spells 0b110010_000000000010 (.bz 2) = true := by decide

theorem decode_call : spells 0b111110_000000000011 (.call 3) = true := by decide

theorem decode_callc : spells 0b111100_000000010100 (.callc 20) = true := by decide

theorem decode_callnc : spells 0b111101_000000000111 (.callnc 7) = true := by decide

theorem decode_callnz : spells 0b111011_000000000111 (.callnz 7) = true := by decide

theorem decode_callz : spells 0b111010_111111111000 (.callz (-8)) = true := by decide

theorem decode_ret : spells 0b111000_000000000000 (.ret) = true := by decide

theorem decode_iret : spells 0b111001_000000000000 (.iret) = true := by decide

theorem decode_lsp : spells 0b11000_00010_01000_101 (.lsp 2 8) = true := by decide

theorem decode_lspi : spells 0b11000_00001_00010_111 (.lspi 1 2) = true := by decide

theorem decode_ssp : spells 0b11000_00001_01000_100 (.ssp 1 8) = true := by decide

theorem decode_sspi : spells 0b11000_00001_00010_110 (.sspi 1 2) = true := by decide

theorem decode_import : spells 0b11000_01011_00000_001 (.importD 11 0) = true := by decide

theorem decode_importi : spells 0b11000_00001_00010_011 (.importI 1 2) = true := by decide

theorem decode_export : spells 0b11000_00100_00011_000 (.exportD 4 3) = true := by decide

theorem decode_exporti : spells 0b11000_00001_00010_010 (.exportI 1 2) = true := by decide

/-- NOP is decoded first: MOV R0, R0 has its word (R111, G1). -/
theorem decode_mov_r0_r0_is_nop :
    (encode candidateEnc (.mov 0 0), decode candidateEnc 0x10000) = (some 0x10000, .ok .nop) := by decide

/-- G1: bit 12 of B is ignored. -/
theorem decode_b_bit12 : decode candidateEnc 0b110111_111111111101 = .ok (.b (-3)) := by decide

/-- spec/95 2.2: bit 0 set in an ADD word matches no row. -/
theorem decode_refuses_add_bit0 : decode candidateEnc 0x08111 = .error .noRow := by decide

theorem decode_refuses_flag_6 : decode candidateEnc 0b10110_00000_00000_110 = .error .noRow := by decide

theorem decode_reports_ambiguity :
    decode { candidateEnc with rows := ⟨.sub, 0x14000, 0x3E007, 8, 3⟩ :: candidateRows } 0x14000 =
      .error .ambiguous := by decide

theorem table_word_add : decodeTableWord 24 0x08110 = some (.add 1 2) := by decide

theorem table_word_too_long : decodeTableWord 24 0x48110 = none := by decide

/-! ### One step of each instruction -/

/-- The state after an instruction, where it answers one. -/
def after (i : Instr) (s : State) : Option State :=
  match exec i s with
  | .next t => some t
  | .fault _ => none
  | .refused _ => none

/-- The state after a step, where it answers one. -/
def afterStep (s : State) : Option State :=
  match step s with
  | .next t => some t
  | .fault _ => none
  | .refused _ => none

/-- The fault an outcome is, if it is one. -/
def stop : Out → Option Fault
  | .next _ => none
  | .fault e => some e
  | .refused _ => none

/-- The reset state with R1, R2 and C set. -/
def two (a b : Byte) (c : Bool) : State := ((State.reset.setReg 1 a).setReg 2 b).setC c

/-- R1, C and Z. -/
def alu (t : State) : Byte × Bool × Bool := (t.reg 1, t.c, t.z)

theorem test_add_carry :
    (after (.add 1 2) (two 0xF0 0x20 false)).map alu = some (0x10, true, false) := by decide

theorem test_add_ignores_carry_in :
    (after (.add 1 2) (two 1 1 true)).map alu = some (2, false, false) := by decide

theorem test_addc_wraps :
    (after (.addc 1 2) (two 0xFF 0 true)).map alu = some (0, true, true) := by decide

theorem test_addc_no_carry_in :
    (after (.addc 1 2) (two 0xFF 0xFF false)).map alu = some (0xFE, true, false) := by decide

theorem test_addi_wraps :
    (after (.addi 1 0xFF) (two 1 0 false)).map alu = some (0, true, true) := by decide

theorem test_addic_carry_in :
    (after (.addic 1 0) (two 0x41 0 true)).map alu = some (0x42, false, false) := by decide

theorem test_sub_borrow :
    (after (.sub 1 2) (two 5 7 false)).map alu = some (0xFE, true, false) := by decide

theorem test_subc_full :
    (after (.subc 1 2) (two 0 0xFF true)).map alu = some (0, true, true) := by decide

theorem test_subc_plain :
    (after (.subc 1 2) (two 0x10 0x0F false)).map alu = some (1, false, false) := by decide

theorem test_subi_borrow :
    (after (.subi 1 1) (two 0 0 false)).map alu = some (0xFF, true, false) := by decide

theorem test_subic_borrow :
    (after (.subic 1 0xFF) (two 0xFF 0 true)).map alu = some (0xFF, true, false) := by decide

theorem test_cmp_unsigned :
    (after (.cmp 1 2) (two 0xFF 1 true)).map alu = some (0xFF, false, false) := by decide

theorem test_cmp_equal :
    (after (.cmp 1 2) (two 7 7 true)).map alu = some (7, false, true) := by decide

theorem test_cmpi_below :
    (after (.cmpi 1 0x10) (two 0x0F 0 false)).map alu = some (0x0F, true, false) := by decide

theorem test_and_keeps_carry :
    (after (.and 1 2) (two 0xF0 0x3C true)).map alu = some (0x30, true, false) := by decide

theorem test_and_zero :
    (after (.and 1 2) (two 0xF0 0x0F false)).map alu = some (0, false, true) := by decide

theorem test_andi :
    (after (.andi 1 0x0F) (two 0xA5 0 true)).map alu = some (5, true, false) := by decide

theorem test_or :
    (after (.or 1 2) (two 0xF0 0x0F false)).map alu = some (0xFF, false, false) := by decide

theorem test_ori :
    (after (.ori 1 0x80) (two 1 0 false)).map alu = some (0x81, false, false) := by decide

theorem test_xor_self :
    (after (.xor 1 1) (two 0x5A 0 true)).map alu = some (0, true, true) := by decide

theorem test_xor :
    (after (.xor 1 2) (two 0xFF 0x0F false)).map alu = some (0xF0, false, false) := by decide

theorem test_xori :
    (after (.xori 1 0xFF) (two 0x55 0 false)).map alu = some (0xAA, false, false) := by decide

theorem test_test :
    (after (.test 1 2) (two 0xF0 0x0F true)).map alu = some (0xF0, true, true) := by decide

theorem test_testi :
    (after (.testi 1 0x80) (two 0x80 0 false)).map alu = some (0x80, false, false) := by decide

theorem test_mov_no_flag :
    (after (.mov 1 2) (two 9 0 true)).map alu = some (0, true, false) := by decide

theorem test_movi :
    (after (.movi 1 0xFF) (two 0 0 false)).map alu = some (0xFF, false, false) := by decide

theorem test_rol :
    (after (.rol 1 2) (two 0 0x80 false)).map alu = some (1, false, false) := by decide

theorem test_rol_81 :
    (after (.rol 1 2) (two 0 0x81 false)).map alu = some (3, false, false) := by decide

theorem test_rolc :
    (after (.rolc 1 2) (two 0 0xC1 false)).map alu = some (0x82, true, false) := by decide

theorem test_rolc_in :
    (after (.rolc 1 2) (two 5 0 true)).map alu = some (1, false, false) := by decide

theorem test_ror :
    (after (.ror 1 2) (two 0 0x81 true)).map alu = some (0xC0, true, false) := by decide

theorem test_rorc :
    (after (.rorc 1 2) (two 0 3 true)).map alu = some (0x81, true, false) := by decide

theorem test_rorc_zero :
    (after (.rorc 1 2) (two 9 1 false)).map alu = some (0, true, true) := by decide

theorem test_nop_all : after .nop State.reset = some (State.reset.setPc 1) := by decide

theorem test_clrc : (after .clrc ((two 0 0 true).setZ true)).map alu = some (0, false, true) := by decide

theorem test_setc : (after .setc (two 0 0 false)).map alu = some (0, true, false) := by decide

theorem test_clrz : (after .clrz ((two 0 0 true).setZ true)).map alu = some (0, true, false) := by decide

theorem test_setz : (after .setz (two 0 0 false)).map alu = some (0, false, true) := by decide

theorem test_clri : (after .clri (State.reset.setIe true)).map (·.ie) = some false := by decide

theorem test_seti : (after .seti State.reset).map (·.ie) = some true := by decide

theorem test_rcsr_im : (after (.rcsr 1 1) (State.reset.setIm 5)).map (·.reg 1) = some 5 := by decide

theorem test_rcsr_reserved : stop (exec (.rcsr 1 3) State.reset) = some (.reservedCsr 3) := by decide

theorem test_wcsr_ip_write_one_clears :
    (after (.wcsr 0 2) ((two 0 1 false).setIp 5)).map (·.ip) = some 4 := by decide

/-- The reset state at a PROM index, with C and Z. -/
def at_ (pc : Nat) (c z : Bool) : State := ((State.reset.setPc pc).setC c).setZ z

theorem test_b_back : (after (.b (-3)) (at_ 10 false false)).map (·.pc) = some 7 := by decide

theorem test_bc_taken : (after (.bc 5) (at_ 4 true false)).map (·.pc) = some 9 := by decide

theorem test_bc_untaken : (after (.bc 5) (at_ 4 false true)).map (·.pc) = some 5 := by decide

theorem test_bnc_taken : (after (.bnc (-4)) (at_ 4 false true)).map (·.pc) = some 0 := by decide

theorem test_bnc_untaken : (after (.bnc (-4)) (at_ 4 true false)).map (·.pc) = some 5 := by decide

theorem test_bnz_taken : (after (.bnz (-1)) (at_ 2 true false)).map (·.pc) = some 1 := by decide

theorem test_bnz_untaken : (after (.bnz (-1)) (at_ 2 false true)).map (·.pc) = some 3 := by decide

theorem test_bz_taken : (after (.bz 2) (at_ 6 false true)).map (·.pc) = some 8 := by decide

theorem test_bz_untaken : (after (.bz 2) (at_ 6 true false)).map (·.pc) = some 7 := by decide

theorem test_b_below_prom : stop (exec (.b (-2048)) (at_ 100 false false)) = some (.pcOutOfRange (-1948)) := by
  decide

/-- The pc and the return addresses on the stack. -/
def calls (t : State) : Nat × List Nat := (t.pc, t.stack.map (·.addr))

theorem test_call : (after (.call 20) (at_ 5 false false)).map calls = some (25, [6]) := by decide

theorem test_callc_untaken : (after (.callc 20) (at_ 3 false true)).map calls = some (4, []) := by decide

theorem test_callc_taken : (after (.callc 20) (at_ 3 true false)).map calls = some (23, [4]) := by decide

theorem test_callnc_taken : (after (.callnc 7) (at_ 3 false true)).map calls = some (10, [4]) := by decide

theorem test_callnc_untaken : (after (.callnc 7) (at_ 3 true false)).map calls = some (4, []) := by decide

theorem test_callnz_untaken : (after (.callnz 7) (at_ 8 false true)).map calls = some (9, []) := by decide

theorem test_callnz_taken : (after (.callnz 7) (at_ 8 true false)).map calls = some (15, [9]) := by decide

theorem test_callz_taken : (after (.callz (-8)) (at_ 8 false true)).map calls = some (0, [9]) := by decide

theorem test_callz_untaken : (after (.callz (-8)) (at_ 8 true false)).map calls = some (9, []) := by decide

theorem test_ret : (after .ret ((at_ 3 true false).setStack [⟨6, false, true⟩])).map
    (fun t => (t.pc, t.stack, t.c, t.z)) = some (6, [], true, false) := by decide

theorem test_ret_empty : stop (exec .ret State.reset) = some .callStackUnderflow := by decide

theorem test_iret : (after .iret ((at_ 3 false true).setStack [⟨12, true, false⟩])).map
    (fun t => (t.pc, t.c, t.z, t.ie)) = some (12, true, false, true) := by decide

/-- The state in another configuration. -/
def inCfg (g : Config) (s : State) : State := { s with cfg := g }

theorem test_iret_in_service :
    (after .iret (inCfg { preset with irqPolicy := .inService }
      ((State.reset.setIsr true).setStack [⟨12, true, false⟩]))).map (fun t => (t.pc, t.ie, t.isr)) =
      some (12, false, false) := by decide

/-- The reset state with page pointer, index register R2, data register R1 and some scratchpad bytes. -/
def data (page idx v : Byte) (m : List Host.Cell) : State :=
  (((State.reset.setReg 13 page).setReg 2 idx).setReg 1 v).setSp m

theorem test_ssp_paged : (after (.ssp 1 5) (data 1 0 0x42 [])).map (·.sp) = some [(0x105, 0x42)] := by decide

theorem test_lsp : (after (.lsp 1 5) (data 1 0 0 [(5, 0x22), (0x105, 0x11)])).map (·.reg 1) =
    some 0x11 := by decide

theorem test_lsp_unpaged :
    (after (.lsp 1 5) (inCfg { preset with directPaged := false }
      (data 1 0 0 [(5, 0x22), (0x105, 0x11)]))).map (·.reg 1) = some 0x22 := by decide

theorem test_lspi_own_index : (after (.lspi 2 2) (data 0 7 0 [(7, 0x30)])).map (·.reg 2) = some 0x30 := by
  decide

theorem test_lspi_unmapped :
    stop (exec (.lspi 1 2) (inCfg { preset with spSize := 256 } (data 1 0x10 0 []))) =
      some (.unmappedAccess .sp 0x110) := by decide

theorem test_sspi : (after (.sspi 1 2) (data 2 0xFF 0x7E [])).map (·.sp) = some [(0x2FF, 0x7E)] := by decide

theorem test_sspi_large :
    (after (.sspi 1 2) (inCfg { preset with memMode := .large, spSize := 0x100000 }
      ((data 2 3 9 []).setReg 14 1))).map (·.sp) = some [(0x10203, 9)] := by decide

theorem test_import_answered :
    (after (.importD 4 3) (State.reset.setAnswers [0x5A])).map (fun t => (t.reg 4, t.events, t.answers)) =
      some (0x5A, [.read 3 3], []) := by decide

theorem test_import_unanswered :
    (after (.importD 4 3) State.reset).map (·.reg 4) = some (Config.freeByte 0) := rfl

theorem test_importi : (after (.importI 1 2) (data 1 4 0 [])).map (·.events) = some [.read 0x104 0x104] := by decide

theorem test_export : (after (.exportD 1 0) (data 0 0 1 [])).map (·.events) = some [.write 0 0 1] := by decide

theorem test_exporti : (after (.exportI 1 2) (data 0x80 0 0xFF [])).map (·.events) =
    some [.write 0x8000 0x8000 0xFF] := by decide

/-! ### Configurations: 16 registers, 4 lines, the other carry polarity, overlap -/

theorem test_r17_is_r1 :
    (after (.mov 17 2) (inCfg { preset with nregs := .r16 } (two 1 2 false))).map (·.reg 1) = some 2 := by
  decide

theorem test_four_lines_mask :
    (after (.wcsr 1 2) (inCfg { preset with interrupts := 4 } (two 0 0xFF true))).map
      (fun t => (t.im, t.c)) = some (0x0F, true) := by decide

theorem test_not_borrow :
    (after (.sub 1 2) (inCfg { preset with subCarry := .notBorrow } (two 5 7 true))).map alu =
      some (0xFE, false, false) := by decide

/-- An external PROM, with scratchpad byte 5 and port 3 one location, and scratchpad byte 0, port 0 and the
first byte of PROM word 4 another. -/
def overlap : Config := { external with aliases := [[.sp 5, .io 3], [.sp 0, .io 0, .prom 4 0]] }

theorem test_alias_store :
    (after (.exportD 1 3) (inCfg overlap (data 0 0 0x77 []))).map (fun t => (t.sp, t.events)) =
      some ([(5, 0x77)], [.write 3 3 0x77]) := by decide

theorem test_alias_prom : stop (exec (.ssp 1 0) (inCfg overlap State.reset)) = some .writeToProm := by decide

/-- R70, R77: with every bit of byte 0 of a word used, a load of it gives bits 7 to 0 of the word. -/
theorem overlap_prom_byte :
    ((inCfg overlap State.reset).setProm [(4, 0x2A55C)]).spByte 0 = some 0x5C := by decide

/-- R77, R50: an initial byte given under one of a location's two offsets is read under the other. -/
theorem initial_byte_under_second_offset :
    (State.ofConfig { preset with aliases := [[.sp 5, .sp 9]], spInit := [(9, 7)] }).spByte 5 = some 7 := by
  decide

/-- R69, R238: with ports 0 to 15 at addresses 0x80 on, the event has the formed address and the port. -/
theorem port_write_through_window :
    (after (.exportI 1 2) (inCfg { preset with ioLocate := .windows [⟨0x80, 16, 0⟩] }
      (data 0 0x83 0x5A []))).map (·.events) = some [.write 0x83 3 0x5A] := by decide

/-- R65: with bytes 0 to 3 internal, SP_INIT gives those alone. -/
theorem initial_bytes_of_split_scratchpad :
    initialSp { preset with spPlace := .both [⟨0, 4⟩], spInit := [(3, 1), (4, 2)] } = [(3, 1)] := by decide

/-- R82: storage that another master shares answers a load as a device does, whatever was stored. -/
theorem shared_storage_answers :
    (after (.lspi 1 2) (inCfg { preset with spShared := [⟨7, 1⟩] }
      ((data 0 7 0 [(7, 0x30)]).setAnswers [0x44]))).map (·.reg 1) = some 0x44 := by decide

/-! ### Steps, interrupts, loading, the bus -/

theorem test_fetch_word_runs :
    step (State.reset.withFetchWord 24 0x08110) = exec (.add 1 2) (State.reset.withFetchWord 24 0x08110) :=
  rfl

theorem test_reset_has_no_program : stop (step State.reset) = some (.unprogrammedWord 0) := by decide

/-- A NOP at 7, line 2 enabled in IM, IE as given, the inputs of the next steps as given. -/
def pending (g : Config) (ie : Bool) (ticks : List Tick) : State :=
  { ((inCfg g (at_ 7 true false)).setIm 4).setIe ie with prom := [(7, 0x10000)], ticks := ticks }

theorem test_interrupt_entry :
    (afterStep (pending preset true [⟨4, false⟩])).map
      (fun t => (t.pc, t.stack, t.ie, t.ip)) = some (0, [⟨7, true, false⟩], false, 4) := by decide

theorem test_interrupt_deferred :
    (afterStep (pending preset true [⟨4, true⟩])).map
      (fun t => (t.pc, t.stack, t.ie, t.ip)) = some (8, [], true, 4) := by decide

theorem test_interrupt_disabled :
    (afterStep (pending preset false [⟨4, false⟩])).map (fun t => (t.pc, t.ip)) = some (8, 4) := by decide

theorem test_interrupt_in_service :
    (afterStep (pending { preset with irqPolicy := .inService } true [⟨4, false⟩])).map
      (fun t => (t.pc, t.ie, t.isr)) = some (0, true, true) := by decide

/-- R88: three bytes a word, with the preset's order of bytes. -/
theorem test_boot_word :
    imageWord preset [(6, 0x10), (7, 0x81), (8, 0x00)] 2 = some 0x08110 := by decide

theorem test_boot_scratchpad : spImage preset [(12288, 0x33)] = [(0, 0x33)] := by decide

theorem test_bus_write :
    (IoEvent.write 0x83 3 0x5A).request preset =
      { cyc := true, stb := true, cti := 0, bte := 0, adr := 0x80000003, we := true, sel := 1,
        dat := some 0x5A } := by decide

/-- R70, R79, R88: three transfers of one byte each, from three times the index on. -/
theorem bus_external_fetch :
    (fetchTransfers external 2 0x08110).map (fun t => (t.adr, t.sel, t.we)) =
      [(6, 15, false), (7, 15, false), (8, 15, false)] := by decide

theorem bus_internal_fetch : fetchTransfers preset 2 0x08110 = [] := by decide

/-- R65, R80: only the external part of a split scratchpad shows on the port. -/
theorem bus_split_scratchpad :
    (spRequest { preset with spPlace := .both [⟨0, 4⟩] } 3 none,
      (spRequest { preset with spPlace := .both [⟨0, 4⟩] } 4 none).map (·.adr)) = (none, some 4) := by decide

/-- R88: under ROM_EN the image alone stands (log 37). -/
theorem booted_scratchpad_is_the_image :
    ((State.booted { preset with romEn := true, spInit := [(1, 9)] } [(12288, 0x33)]).spByte 0,
      (State.booted { preset with romEn := true, spInit := [(1, 9)] } [(12288, 0x33)]).spByte 1) =
      (some 0x33, none) := by decide

theorem test_run_ends_at_halt :
    State.ended ({ State.reset with cfg := { preset with haltPc := some 0 }, prom := [(0, 0x36000)] }) =
      true := by decide


/-! ### Witnesses: a state and operands that meet the hypotheses of each statement

`falling` is at the last index from which an instruction still falls through. -/

/-- The reset state at the last PROM index but one. -/
def falling : State := at_ 4094 false true

theorem falls_reset : Falls State.reset := by unfold Falls; decide

theorem falls_last : Falls falling := by unfold Falls; decide

theorem witness_AdditionsGiveSumCarryAndZero : Falls State.reset ∧ Falls falling :=
  ⟨falls_reset, falls_last⟩

theorem witness_SubtractionsGiveDifferenceBorrowAndZero : Falls State.reset ∧ Falls falling :=
  ⟨falls_reset, falls_last⟩

theorem witness_ComparesSetFlagsAsUnsignedOrder : Falls State.reset ∧ Falls falling :=
  ⟨falls_reset, falls_last⟩

theorem witness_AddThenAddcIsSixteenBitSum : State.reset.pc + 2 < State.reset.cfg.promSize ∧
    State.reset.cfg.phys 0 ≠ State.reset.cfg.phys 1 ∧
    State.reset.cfg.phys 0 ≠ State.reset.cfg.phys 3 := by decide

theorem witness_SubThenSubcIsSixteenBitDifference :
    State.reset.pc + 2 < State.reset.cfg.promSize ∧ State.reset.cfg.subCarry = .borrow ∧
    State.reset.cfg.phys 0 ≠ State.reset.cfg.phys 1 ∧
    State.reset.cfg.phys 0 ≠ State.reset.cfg.phys 3 := by decide

theorem witness_LogicWritesResultAndZero : Falls State.reset ∧ Falls falling :=
  ⟨falls_reset, falls_last⟩

theorem witness_TestsWriteZeroAlone : Falls State.reset ∧ Falls falling := ⟨falls_reset, falls_last⟩

theorem witness_MovesCopyAndWriteNoFlag : Falls State.reset ∧ Falls falling := ⟨falls_reset, falls_last⟩

theorem witness_NopOnlyAdvances : Falls State.reset ∧ Falls falling := ⟨falls_reset, falls_last⟩

theorem witness_RotatesMoveOneBit : Falls State.reset ∧ Falls falling := ⟨falls_reset, falls_last⟩

theorem witness_CarryRotatesAreNineBitRotations : Falls State.reset ∧ Falls falling :=
  ⟨falls_reset, falls_last⟩

theorem witness_RotatesComeFullCircle : (at_ 4086 true false).pc + 9 < State.reset.cfg.promSize := by decide

theorem witness_FlagInstructionsSetOneFlag : Falls State.reset ∧ Falls falling :=
  ⟨falls_reset, falls_last⟩

theorem witness_CliSetiWriteInterruptEnable : Falls State.reset ∧ Falls falling :=
  ⟨falls_reset, falls_last⟩

/-- The three indices, with 8 lines and with 7 (a bit undefined). -/
theorem witness_RcsrReadsDefinedBits : Falls State.reset ∧ (0 < 3 ∧ 1 < 3 ∧ 2 < 3) ∧
    State.reset.cfg.interrupts = 8 ∧ Falls (inCfg { preset with interrupts := 7 } State.reset) :=
  ⟨falls_reset, by decide, rfl, by unfold Falls; decide⟩

theorem witness_WcsrWritesOneRegister : Falls State.reset ∧ Falls falling := ⟨falls_reset, falls_last⟩

theorem witness_ReservedCsrIndexFaults : 3 ≤ 3 ∧ 3 ≤ 31 := by decide

/-- IP 5, R3 = 1 and WCSR 0, R3 at the pc. -/
def acknowledging : State :=
  ((State.reset.setIp 5).setReg 3 1).withFetchWord 24 0b10101_00000_00011_001

/-- NOP meets the first clause; a step that clears a pending bit the second. -/
theorem witness_PendingBitsClearedOnlyByWcsr : (after .nop (State.reset.setIp 5)).isSome = true ∧
    (∀ rb, Instr.nop ≠ .wcsr 0 rb) ∧
    (afterStep acknowledging).map (fun t => decide (t.ip &&& acknowledging.ip ≠ acknowledging.ip)) =
      some true := ⟨by decide, nofun, by decide⟩

/-- NOP meets every clause; IRET under `auto` the last. -/
theorem witness_MaskAndEnableWritersAreThese : (after .nop State.reset).isSome = true ∧
    (∀ rb, Instr.nop ≠ .wcsr 1 rb) ∧ Instr.nop ≠ .clri ∧ Instr.nop ≠ .seti ∧
    (∀ rb, Instr.nop ≠ .wcsr 2 rb) ∧ Instr.nop ≠ .iret ∧
    (after .iret (State.reset.setStack [⟨1, false, false⟩])).isSome = true ∧
    State.reset.cfg.irqPolicy = .auto :=
  ⟨by decide, nofun, nofun, nofun, nofun, nofun, by decide, rfl⟩

theorem inProm_first : InProm (at_ 8 true true) (8 + (-8)) := by unfold InProm; decide

theorem inProm_last : InProm (at_ 8 false false) (8 + 4087) := by unfold InProm; decide

/-- Targets 0 and 4095, with both flags 1 and both 0. -/
theorem witness_TakenBranchesGoToTarget :
    (InProm (at_ 8 true true) (8 + (-8)) ∧ (at_ 8 true true).c = true ∧ (at_ 8 true true).z = true) ∧
    (InProm (at_ 8 false false) (8 + 4087) ∧ (at_ 8 false false).c = false ∧
      (at_ 8 false false).z = false) := ⟨⟨inProm_first, rfl, rfl⟩, inProm_last, rfl, rfl⟩

theorem witness_UntakenBranchesAndCallsFallThrough :
    (Falls (at_ 8 true true) ∧ (at_ 8 true true).c = true ∧ (at_ 8 true true).z = true) ∧
    (Falls (at_ 8 false false) ∧ (at_ 8 false false).c = false ∧ (at_ 8 false false).z = false) :=
  ⟨⟨by unfold Falls; decide, rfl, rfl⟩, by unfold Falls; decide, rfl, rfl⟩

/-- The state with `n` entries on the call stack. -/
def stacked (n : Nat) (s : State) : State := s.setStack (List.replicate n ⟨1, false, false⟩)

/-- One free entry of 16, and a target at each end of the PROM. -/
theorem witness_TakenCallsPushReturnAddress :
    (HasRoom (stacked 15 (at_ 8 true true)) ∧ InProm (stacked 15 (at_ 8 true true)) (8 + (-8))) ∧
    (HasRoom (stacked 0 (at_ 8 false false)) ∧ InProm (stacked 0 (at_ 8 false false)) (8 + 4087)) :=
  ⟨⟨by unfold HasRoom; decide, by unfold InProm; decide⟩, by unfold HasRoom; decide,
    by unfold InProm; decide⟩

/-- A full stack with both flags 1, both 0, and an interrupt that is taken. -/
theorem witness_FullStackFaults : ¬HasRoom (stacked 16 (at_ 8 true true)) ∧
    ¬HasRoom (stacked 16 (at_ 8 false false)) ∧
    ¬HasRoom (stacked 16 (pending preset true [⟨4, false⟩])) ∧
    (stacked 16 (pending preset true [⟨4, false⟩])).takesInterrupt = true :=
  ⟨by unfold HasRoom; decide, by unfold HasRoom; decide, by unfold HasRoom; decide, by decide⟩

/-- An entry with the last PROM address. -/
def returning : State := State.reset.setStack [⟨4095, true, false⟩, ⟨0, false, true⟩]

theorem witness_RetContinuesAtTopOfStack :
    returning.stack = ⟨4095, true, false⟩ :: [⟨0, false, true⟩] ∧ 4095 < returning.cfg.promSize := by decide

theorem witness_IretRestoresPcFlagsAndUnblocks :
    returning.stack = ⟨4095, true, false⟩ :: [⟨0, false, true⟩] ∧ 4095 < returning.cfg.promSize ∧
    returning.cfg.irqPolicy = .auto ∧
    (inCfg { preset with irqPolicy := .inService } returning).cfg.irqPolicy = .inService := by decide

theorem witness_ReturnsFaultWithoutAPlaceToGo : State.reset.stack = [] ∧
    (State.reset.setStack [⟨4096, false, false⟩]).stack = ⟨4096, false, false⟩ :: [] ∧
    State.reset.cfg.promSize ≤ 4096 := by decide

/-- Targets -1 and 4096, with both flags 1 and both 0; and at the last PROM index an instruction with no
access, an untaken call, and a load that faults before the pc does. -/
theorem witness_LeavingPromFaults :
    (¬InProm (at_ 0 true true) ((at_ 0 true true).pc + (-1)) ∧ HasRoom (at_ 0 true true) ∧
      (at_ 0 true true).c = true ∧ (at_ 0 true true).z = true) ∧
    (¬InProm (at_ 0 false false) ((at_ 0 false false).pc + 4096) ∧ HasRoom (at_ 0 false false) ∧
      (at_ 0 false false).c = false ∧ (at_ 0 false false).z = false) ∧
    ((at_ 4095 false false).pc + 1 = (at_ 4095 false false).cfg.promSize ∧
      transfers (at_ 4095 false false) .nop = false ∧
      transfers (at_ 4095 false false) (.callz 0) = false ∧
      operandFault (at_ 4095 false false) .nop = none ∧
      transfers (at_ 4095 false false) (.lsp 1 0) = false ∧
      operandFault (at_ 4095 false false) (.lsp 1 0) = some (.uninitialisedRead 0)) :=
  ⟨⟨by unfold InProm; decide, by unfold HasRoom; decide, rfl, rfl⟩,
    ⟨by unfold InProm; decide, by unfold HasRoom; decide, rfl, rfl⟩, by decide⟩

/-- A configuration for each memory mode. -/
def inMode (m : MemMode) (paged : Bool) : State :=
  inCfg { preset with memMode := m, directPaged := paged } State.reset

theorem witness_IndirectAddressByMemoryMode : (inMode .small true).cfg.memMode = .small ∧
    (inMode .medium true).cfg.memMode = .medium ∧ (inMode .large true).cfg.memMode = .large := by decide

theorem witness_DirectAddressByPagingAndMode : (inMode .small true).cfg.memMode = .small ∧
    (inMode .large false).cfg.directPaged = false ∧
    ((inMode .medium true).cfg.directPaged = true ∧ (inMode .medium true).cfg.memMode = .medium) ∧
    ((inMode .large true).cfg.directPaged = true ∧ (inMode .large true).cfg.memMode = .large) := by decide

/-- The first and the last byte of the scratchpad: R13 = 0xFF with index 0xFF reaches the last. -/
def ends : State := data 0xFF 0xFF 9 [(0, 7), (65535, 8)]

/-- The same with the last byte shared with another master. -/
def sharedEnd : State := inCfg { preset with spShared := [⟨65535, 1⟩] } ends

theorem witness_ScratchpadLoadsComplete : (Falls ends ∧ ends.spByte (ends.directAddr 0xFF) = some 8 ∧
      ends.spByte (ends.indirectAddr 2) = some 8 ∧
      (data 0 0 9 [(0, 7)]).spByte ((data 0 0 9 [(0, 7)]).directAddr 0) = some 7) ∧
    (Falls sharedEnd ∧ sharedEnd.cfg.isShared (.sp 65535) = true ∧
      sharedEnd.cfg.locateSp (sharedEnd.directAddr 0xFF) = some 65535 ∧
      sharedEnd.cfg.locateSp (sharedEnd.indirectAddr 2) = some 65535) :=
  ⟨⟨by unfold Falls; decide, by decide, by decide, by decide⟩, by unfold Falls; decide, by decide⟩

theorem witness_ScratchpadStoresComplete : Falls ends ∧ ends.cfg.isProm (.sp 65535) = false ∧
    ends.cfg.locateSp (ends.directAddr 0xFF) = some 65535 ∧
    ends.cfg.locateSp (ends.indirectAddr 2) = some 65535 ∧ ends.cfg.isShared (.sp 65535) = false :=
  ⟨by unfold Falls; decide, by decide⟩

theorem witness_StoreLeavesOtherAddresses : ends.cfg.spLocate = .offset ∧ ends.cfg.aliases = [] ∧
    (after (.sspi 1 2) ends).isSome = true ∧
    ends.cfg.isShared (.sp (ends.indirectAddr 2)) = false := by decide

theorem witness_StoreThenLoadReturnsByte : ends.pc + 2 < ends.cfg.promSize ∧
    ends.cfg.locateSp (ends.indirectAddr 2) = some 65535 ∧ ends.cfg.isProm (.sp 65535) = false ∧
    ends.cfg.isShared (.sp 65535) = false := by decide


theorem witness_PortWritesComplete : Falls ends ∧ ends.cfg.isProm (.io 65535) = false ∧
    ends.cfg.spKey (.io 65535) = none ∧ ends.cfg.locateIo (ends.directAddr 0xFF) = some 65535 ∧
    ends.cfg.locateIo (ends.indirectAddr 2) = some 65535 := ⟨by unfold Falls; decide, by decide⟩

/-- Byte 5 and port 3 are one location; R2 = 3, and byte 5 holds 6. -/
def aliased : State := inCfg overlap (data 0 3 9 [(5, 6)])

/-- Port 65535 directly and indirectly, with and without an answer of the environment; and a port that is a
scratchpad byte. -/
theorem witness_PortReadsComplete : (Falls ends ∧ ends.held (.io 65535) = none ∧
      ends.cfg.locateIo (ends.directAddr 0xFF) = some 65535 ∧
      ends.cfg.locateIo (ends.indirectAddr 2) = some 65535 ∧
      ends.answers = [] ∧ (ends.setAnswers [1, 2]).answers = 1 :: [2]) ∧
    (Falls aliased ∧ aliased.held (.io 3) = some 6 ∧ aliased.cfg.locateIo (aliased.directAddr 3) = some 3 ∧
      aliased.cfg.locateIo (aliased.indirectAddr 2) = some 3) :=
  ⟨⟨by unfold Falls; decide, by decide⟩, by unfold Falls; decide, by decide⟩

theorem witness_AliasedPortsReachTheByte : Falls aliased ∧ aliased.cfg.legal = true ∧
    [Loc.sp 5, Loc.io 3] ∈ aliased.cfg.aliases ∧ Loc.sp 5 ∈ [Loc.sp 5, Loc.io 3] ∧
    Loc.io 3 ∈ [Loc.sp 5, Loc.io 3] ∧ (∀ p j, Loc.prom p j ∉ [Loc.sp 5, Loc.io 3]) ∧
    aliased.cfg.locateSp 5 = some 5 ∧ aliased.cfg.locateIo (aliased.directAddr 3) = some 3 ∧
    aliased.cfg.locateIo (aliased.indirectAddr 2) = some 3 ∧ aliased.spByte 5 = some 6 ∧
    aliased.cfg.isShared (.sp 5) = false :=
  ⟨by unfold Falls; decide, by decide, by decide, by decide, by decide, by simp, by decide⟩

/-- Byte 0 and port 0 are the first byte of PROM word 4, which holds a word; R2 = 0. -/
def overlapped : State := (inCfg overlap (data 0 0 9 [])).setProm [(4, 0x2A55C)]

theorem witness_OverlappedPromByteIsPartOfItsWord : Falls overlapped ∧ overlapped.cfg.legal = true ∧
    [Loc.sp 0, Loc.io 0, Loc.prom 4 0] ∈ overlapped.cfg.aliases ∧
    Loc.prom 4 0 ∈ [Loc.sp 0, Loc.io 0, Loc.prom 4 0] ∧ Cells.read overlapped.prom 4 = some 0x2A55C ∧
    overlapped.cfg.isShared (.prom 4 0) = false ∧ overlapped.cfg.promByteOrder[7]? = some (0, 7) ∧
    Loc.sp 0 ∈ [Loc.sp 0, Loc.io 0, Loc.prom 4 0] ∧ Loc.io 0 ∈ [Loc.sp 0, Loc.io 0, Loc.prom 4 0] ∧
    overlapped.cfg.locateSp (overlapped.directAddr 0) = some 0 ∧
    overlapped.cfg.locateSp (overlapped.indirectAddr 2) = some 0 ∧
    overlapped.cfg.locateIo (overlapped.directAddr 0) = some 0 ∧
    overlapped.cfg.locateIo (overlapped.indirectAddr 2) = some 0 :=
  ⟨by unfold Falls; decide, by decide⟩

/-- Regions of 256 bytes and a page pointer of 1: address 256 is the first without a location. -/
def beyond : State := inCfg { preset with spSize := 256, ioSize := 256 } (data 1 0 9 [])

theorem witness_UnmappedAccessFaults : beyond.cfg.locateSp (beyond.directAddr 0) = none ∧
    beyond.cfg.locateSp (beyond.indirectAddr 2) = none ∧
    beyond.cfg.locateIo (beyond.directAddr 0) = none ∧
    beyond.cfg.locateIo (beyond.indirectAddr 2) = none := by decide

/-- Byte 0, port 0 and a PROM word are one location; byte 1 holds nothing. -/
def onProm (idx : Byte) : State := inCfg overlap (data 0 idx 9 [])

theorem witness_PromStoreAndEmptyByteFault : (onProm 0).cfg.isProm (.sp 0) = true ∧
    (onProm 0).cfg.isProm (.io 0) = true ∧ (onProm 0).cfg.locateSp ((onProm 0).directAddr 0) = some 0 ∧
    (onProm 0).cfg.locateSp ((onProm 0).indirectAddr 2) = some 0 ∧
    (onProm 0).cfg.locateIo ((onProm 0).directAddr 0) = some 0 ∧
    (onProm 0).cfg.locateIo ((onProm 0).indirectAddr 2) = some 0 ∧
    (onProm 1).cfg.locateSp ((onProm 1).directAddr 1) = some 1 ∧
    (onProm 1).cfg.locateSp ((onProm 1).indirectAddr 2) = some 1 ∧
    (onProm 1).held (.sp 1) = none ∧ (onProm 1).cfg.isShared (.sp 1) = false := by decide

theorem witness_RegisterFieldsMapAsConfigured :
    (inCfg { preset with nregs := .r16 } State.reset).cfg.nregs = .r16 ∧
    State.reset.cfg.nregs = .r32 := by decide

/-- The interrupt of `pending`, under `in_service`. -/
def pendingService : State := pending { preset with irqPolicy := .inService } true [⟨4, false⟩]

theorem witness_InterruptEntrySavesPcAndFlags :
    ((pending preset true [⟨4, false⟩]).takesInterrupt = true ∧
      HasRoom (pending preset true [⟨4, false⟩]) ∧
      (pending preset true [⟨4, false⟩]).cfg.irqPolicy = .auto) ∧
    (pendingService.takesInterrupt = true ∧ HasRoom pendingService ∧
      pendingService.cfg.irqPolicy = .inService) :=
  ⟨⟨by decide, by unfold HasRoom; decide, rfl⟩, by decide, by unfold HasRoom; decide, rfl⟩

/-- NOP at the first and at the last PROM index. -/
theorem witness_StepRunsDecodedInstruction :
    ((State.reset.withFetchWord 24 0x10000).takesInterrupt = false ∧
      Cells.read (State.reset.withFetchWord 24 0x10000).prom 0 = some 0x10000) ∧
    (((at_ 4095 false false).withFetchWord 24 0x10000).takesInterrupt = false ∧
      ((at_ 4095 false false).withFetchWord 24 0x10000).pc < 4096 ∧
      Cells.read ((at_ 4095 false false).withFetchWord 24 0x10000).prom 4095 = some 0x10000) ∧
    decode candidateEnc 0x10000 = .ok .nop := by decide

theorem witness_UndefinedWordFaults :
    ((State.reset.withFetchWord 24 0x08111).takesInterrupt = false ∧
      Cells.read (State.reset.withFetchWord 24 0x08111).prom 0 = some 0x08111 ∧
      decode candidateEnc 0x08111 = .error .noRow) ∧
    (State.reset.takesInterrupt = false ∧ State.reset.pc < State.reset.cfg.promSize ∧
      Cells.read State.reset.prom State.reset.pc = none) := by decide

/-- A line that stays asserted with no deferral left, and a step with an environment's input. -/
def heldLine : State := { pending preset true [] with lines := 4 }

theorem witness_DeferralsRunOut : (afterStep (pending preset true [⟨4, true⟩])).isSome = true ∧
    heldLine.ticks = [] ∧ heldLine.sample.interruptDue = true := by decide

/-- The handler's state may be the entry's own next state. -/
theorem witness_IretAfterEntryResumesProgram :
    ((pending preset true [⟨4, false⟩]).pc < 4096 ∧
      (pending preset true [⟨4, false⟩]).takesInterrupt = true ∧
      (afterStep (pending preset true [⟨4, false⟩])).isSome = true) ∧
    (pendingService.pc < 4096 ∧ pendingService.takesInterrupt = true ∧
      (afterStep pendingService).isSome = true) := by decide

/-- A NOP and an IRET inside a handler under `in_service`. -/
theorem witness_InServiceBlocksEntryUntilIret :
    (pendingService.setIsr true).cfg.irqPolicy = .inService ∧ (pendingService.setIsr true).isr = true ∧
    (afterStep (pendingService.setIsr true)).map (·.isr) = some true ∧
    (afterStep (((stacked 1 pendingService).setIsr true).withFetchWord 24 0x39000)).map (·.isr) =
      some false := by decide

theorem witness_FlagWritersAreThoseOfTheTable : (after .nop State.reset).isSome = true ∧
    writesCarry .nop = false ∧ writesZero .nop = false ∧
    (pending preset true [⟨4, false⟩]).takesInterrupt = true ∧
    (afterStep (pending preset true [⟨4, false⟩])).isSome = true := by decide

/-- ADD to R1 seen from R2, and a comparison seen from R1. -/
theorem witness_RegisterWritersAreThoseListed : (after (.add 1 2) State.reset).isSome = true ∧
    (∀ rd, destination (.add 1 2) = some rd → State.reset.cfg.phys rd ≠ State.reset.cfg.phys 2) ∧
    destination (.cmp 1 2) = none ∧ (after (.cmp 1 2) State.reset).isSome = true ∧
    (pending preset true [⟨4, false⟩]).takesInterrupt = true ∧
    (afterStep (pending preset true [⟨4, false⟩])).isSome = true :=
  ⟨by decide, by intro rd h; cases h; decide, by decide⟩

theorem witness_StackChangesOnlyByCallsAndReturns :
    ((after (.call 20) State.reset).isSome = true ∧ isCall (.call 20) = true) ∧
    ((after .ret returning).isSome = true ∧ (after .iret returning).isSome = true) ∧
    ((after .nop State.reset).isSome = true ∧ isCall .nop = false) ∧
    (pending preset true [⟨4, false⟩]).takesInterrupt = true ∧
    (afterStep (pending preset true [⟨4, false⟩])).isSome = true := by decide

theorem witness_NonStoresKeepMemoryAndProm : (after (.lsp 1 0) (data 0 0 0 [(0, 7)])).isSome = true ∧
    mayStore (.lsp 1 0) = false ∧ (pending preset true [⟨4, false⟩]).takesInterrupt = true ∧
    (afterStep (pending preset true [⟨4, false⟩])).isSome = true := by decide

theorem witness_EventsGrowOneAccessAtATime :
    ((after (.importD 1 0) State.reset).isSome = true ∧ accessesIo (.importD 1 0) = true) ∧
    ((after .nop State.reset).isSome = true ∧ accessesIo .nop = false) ∧
    (pending preset true [⟨4, false⟩]).takesInterrupt = true ∧
    (afterStep (pending preset true [⟨4, false⟩])).isSome = true := by decide

/-- A run that has ended, with the interrupts masked. -/
def halted : State := { State.reset with cfg := { preset with haltPc := some 0 }, prom := [(0, 0x36000)] }

theorem witness_EndedRunStaysEnded : halted.ended = true ∧ (afterStep halted).isSome = true := by decide

theorem candidate_wf : candidateEnc.wf = true := by decide +kernel

theorem candidate_nop : candidateEnc.nopHarmless .r32 = true := by decide +kernel

/-- A word of each of the five. -/
theorem witness_SourceEncodingsDecode :
    (candidateEnc.wf = true ∧ candidateEnc.nopHarmless .r32 = true) ∧
    decode candidateEnc 0x08110 = .ok (.add 1 2) ∧ decode candidateEnc 0x0C118 = .ok (.addc 1 3) ∧
    decode candidateEnc 0x0BFFF = .ok (.addi 31 0xFF) ∧
    decode candidateEnc 0x0E20F = .ok (.addic 2 0x0F) ∧
    decode candidateEnc 0x14628 = .ok (.and 6 5) := ⟨⟨candidate_wf, candidate_nop⟩, by decide⟩

/-- A label at each end of its range, and MOV R0, R0, whose word is NOP's. -/
theorem witness_DecodeOfEncodeIsTheInstruction : candidateEnc.wf = true ∧
    (Instr.b 2047).WellFormed candidateEnc = true ∧ (Instr.b (-2048)).WellFormed candidateEnc = true ∧
    (Instr.mov 0 0).WellFormed candidateEnc = true ∧ encode candidateEnc (.mov 0 0) = some 0x10000 ∧
    candidateEnc.spellsNop 0x10000 = true ∧ candidateEnc.nopHarmless .r32 = true := by
  refine ⟨candidate_wf, by decide, by decide, by decide, by decide, by decide, candidate_nop⟩

theorem witness_DecodingIsUnambiguousAndWellFormed : candidateEnc.wf = true ∧
    decode candidateEnc 0x36800 = .ok (.b (-2048)) := ⟨candidate_wf, by decide⟩

theorem witness_ResetMeetsInvariant : preset.wf = true := by decide +kernel

/-- The reset state with a NOP to run meets the invariant, and its step answers a next state. -/
theorem witness_StepKeepsInvariant : (State.reset.withFetchWord 24 0x10000).wf = true ∧
    (afterStep (State.reset.withFetchWord 24 0x10000)).isSome = true := ⟨by decide +kernel, by decide⟩

end Sys2Proof.Tests
end

section
/-! PROOF. The step of R12 where no interrupt is taken (spec/00_scope.md). -/

namespace Sys2Proof.Machine

variable {s : State}

/-- What sampling writes (R255): the inputs of the environment and IP, and nothing else. -/
theorem State.sample_eq (s : State) : s.sample = { s with
    ip := s.ip ||| (s.tick.lines &&& s.cfg.lineMask)
    lines := s.tick.lines
    ticks := s.ticks.tail } := rfl

/-- Sampling does not change what the step fetches: it is the PROM word at the pc before it (D29). -/
theorem State.sample_fetch_of_read {w : Word} (hpc : s.pc < s.cfg.promSize)
    (hread : Cells.read s.prom s.pc = some w) : s.sample.fetch = .ok w :=
  State.fetch_ok.mpr ⟨hpc, hread⟩

/-- The instruction branch of the step (R12). -/
theorem step_of_decode {w : Word} {i : Instr} (htake : s.takesInterrupt = false)
    (hfetch : s.sample.fetch = .ok w) (hdec : decode s.cfg.enc w = .ok i) :
    step s = exec i s.sample := by
  simp [step, htake, hfetch, hdec]

/-- Settles O43: the fetch reads the word at the pc, so the step is on its instruction branch. -/
theorem stepRunsDecodedInstruction : Obligations.StepRunsDecodedInstruction := by
  intro s w i htake hpc hread hdec
  have hfetch : s.sample.fetch = .ok w := State.sample_fetch_of_read hpc hread
  rw [step_of_decode htake hfetch hdec, State.sample_eq]

end Sys2Proof.Machine
end

section
/-! PROOF. What one instruction can do: the few shapes its meaning has, and the fields it may change
(spec/10_state.md). The statements about writers and the invariant all rest on `exec_effect`. -/

namespace Sys2Proof

/-- A located address reaches a location of its region (R69). -/
theorem Locator.locate_lt {m : Locator} {size a l : Nat} (h : m.locate size a = some l) : l < size := by
  unfold Locator.locate at h
  split at h <;> grind

end Sys2Proof

namespace Sys2Proof.Machine

open Sys2Proof.Claims

variable {s t : State} {i : Instr}

/-! ### Shared operations -/

/-- Blocking entries writes IE and ISR, and ISR under `in_service` alone (R262). -/
theorem State.blockEntry_writes : ∃ e r, s.blockEntry = (s.setIe e).setIsr r ∧
    (r = s.isr ∨ s.cfg.irqPolicy = .inService) := by
  rcases State.blockEntry_eq (s := s) with ⟨-, h⟩ | ⟨hp, h⟩
  · exact ⟨false, s.isr, h, .inl rfl⟩
  · exact ⟨s.ie, true, h, .inr hp⟩

/-- Unblocking entries writes IE and ISR, and ISR under `in_service` alone (R262). -/
theorem State.unblockEntry_writes : ∃ e r, s.unblockEntry = (s.setIe e).setIsr r ∧
    (r = s.isr ∨ s.cfg.irqPolicy = .inService) := by
  rcases State.unblockEntry_eq (s := s) with ⟨-, h⟩ | ⟨hp, h⟩
  · exact ⟨true, s.isr, h, .inl rfl⟩
  · exact ⟨s.ie, false, h, .inr hp⟩

/-- An answer uses up inputs of the environment and changes nothing else (R76). -/
theorem State.answer_writes : ∃ l n, s.answer.2 = (s.setAnswers l).drawn n := by
  rcases State.answer_eq (s := s) with ⟨-, h⟩ | ⟨v, l, -, h⟩
  · exact ⟨s.answers, 1, by rw [h]; rfl⟩
  · exact ⟨l, 0, by rw [h]; rfl⟩

/-- A scratchpad read uses up inputs of the environment at most. -/
theorem State.readSp_writes {a : Nat} {v : Byte} (h : s.readSp a = .ok (v, t)) :
    ∃ l n, t = (s.setAnswers l).drawn n := by
  obtain ⟨l, -, ⟨-, rfl⟩ | ⟨-, -, rfl⟩⟩ := State.readSp_ok.1 h
  · exact ⟨t.answers, 0, rfl⟩
  · exact State.answer_writes

/-- A port read uses up inputs of the environment at most, and records its access. -/
theorem State.readIo_writes {a : Nat} {v : Byte} (h : s.readIo a = .ok (v, t)) :
    ∃ l n e, t = ((s.setAnswers l).drawn n).record e := by
  obtain ⟨l, -, ⟨-, rfl⟩ | ⟨-, -, rfl⟩⟩ := State.readIo_ok.1 h
  · exact ⟨s.answers, 0, .read a l, rfl⟩
  · obtain ⟨m, n, h⟩ := State.answer_writes (s := s)
    exact ⟨m, n, .read a l, by rw [h]⟩

/-- The storage is as before, or has one byte more written, at the key of a location of its region. -/
def StoresWithin (s t : State) : Prop :=
  t.sp = s.sp ∨ ∃ x k v, x.within s.cfg.spSize s.cfg.ioSize s.cfg.promSize = true ∧
    s.cfg.spKey x = some k ∧ t.sp = Cells.write s.sp k v

/-- A scratchpad store changes the stored bytes alone, at a location of the region (R73). -/
theorem State.writeSp_writes {a : Nat} {v : Byte} (h : s.writeSp a v = .ok t) :
    (∃ m, t = s.setSp m) ∧ StoresWithin s t := by
  obtain ⟨l, hl, -, rfl⟩ := State.writeSp_ok.1 h
  exact ⟨⟨_, rfl⟩, .inr ⟨.sp l, _, v, decide_eq_true (Locator.locate_lt hl), Config.spKey_sp l, rfl⟩⟩

/-- A port store records its access, and changes a stored byte at most at a location of the region (R73, R77). -/
theorem State.writeIo_writes {a : Nat} {v : Byte} (h : s.writeIo a v = .ok t) :
    (∃ m e, t = (s.setSp m).record e) ∧ StoresWithin s t := by
  obtain ⟨l, hl, -, ⟨-, rfl⟩ | ⟨k, hk, rfl⟩⟩ := State.writeIo_ok.1 h
  · exact ⟨⟨s.sp, _, rfl⟩, .inl rfl⟩
  · exact ⟨⟨_, _, rfl⟩, .inr ⟨.io l, k, v, decide_eq_true (Locator.locate_lt hl), hk, rfl⟩⟩

/-! ### The shapes of the meanings -/

/-- The shapes an instruction's outcome in a state has, each with what the lists of R22, R26, R29 and R251 say
of the instructions of that shape. -/
inductive Shape (s : State) (i : Instr) : Out → Prop
  /-- A result, its carry and its zero are written. -/
  | alu (rd : RegIdx) (r : Byte) (carry : Bool) : destination i = some rd → writesCarry i = true →
      writesZero i = true → operandFault s i = none → Shape s i (s.writeAlu rd r carry)
  /-- A result and its zero are written. -/
  | logic (rd : RegIdx) (r : Byte) : destination i = some rd → writesZero i = true →
      operandFault s i = none → Shape s i (s.writeLogic rd r)
  /-- The carry and the zero of a discarded result are written. -/
  | compare (r : Byte) (carry : Bool) : writesCarry i = true → writesZero i = true →
      operandFault s i = none → Shape s i (s.compare r carry)
  /-- Z alone is written. -/
  | zero (b : Bool) : writesZero i = true → operandFault s i = none → Shape s i (s.setZ b).advance
  /-- C alone is written. -/
  | carry (b : Bool) : writesCarry i = true → operandFault s i = none → Shape s i (s.setC b).advance
  /-- A register alone is written. -/
  | move (rd : RegIdx) (v : Byte) : destination i = some rd → operandFault s i = none →
      Shape s i (s.setReg rd v).advance
  /-- IE alone is written. -/
  | enable (b : Bool) : i = .clri ∨ i = .seti → operandFault s i = none → Shape s i (s.setIe b).advance
  /-- Nothing is written. -/
  | nop : operandFault s i = none → Shape s i s.advance
  /-- A branch. -/
  | branch (taken : Bool) (d : Int) : transfers s i = taken → operandFault s i = none →
      Shape s i (s.branch taken d)
  /-- A call. -/
  | call (taken : Bool) (d : Int) : isCall i = true → transfers s i = taken → operandFault s i = none →
      Shape s i (s.call taken d)
  /-- RET. -/
  | ret : i = .ret → Shape s i s.returnFromCall
  /-- IRET. -/
  | iret : i = .iret → Shape s i s.returnFromInterrupt
  /-- RCSR. -/
  | rcsr (rd : RegIdx) (n : Nat) : i = .rcsr rd n → Shape s i (execRcsr rd n s)
  /-- WCSR. -/
  | wcsr (n : Nat) (rb : RegIdx) : i = .wcsr n rb → Shape s i (execWcsr n rb s)
  /-- A load from the scratchpad. -/
  | loadSp (rd : RegIdx) (ea : Nat) : destination i = some rd →
      operandFault s i = faultOf (s.readSp ea) → Shape s i (s.loadSp rd ea)
  /-- A store to the scratchpad. -/
  | storeSp (rd : RegIdx) (ea : Nat) : operandFault s i = faultOf (s.writeSp ea (s.reg rd)) →
      Shape s i (s.storeSp rd ea)
  /-- A read of a port. -/
  | loadIo (rd : RegIdx) (ea : Nat) : destination i = some rd →
      operandFault s i = faultOf (s.readIo ea) → Shape s i (s.loadIo rd ea)
  /-- A write to a port. -/
  | storeIo (rd : RegIdx) (ea : Nat) : operandFault s i = faultOf (s.writeIo ea (s.reg rd)) →
      Shape s i (s.storeIo rd ea)

/-- Every instruction's meaning has one of the shapes. -/
theorem exec_shape (i : Instr) (s : State) : Shape s i (exec i s) := by
  cases i with
  | add rd rb => exact .alu rd _ _ rfl rfl rfl rfl
  | addc rd rb => exact .alu rd _ _ rfl rfl rfl rfl
  | addi rd c8 => exact .alu rd _ _ rfl rfl rfl rfl
  | addic rd c8 => exact .alu rd _ _ rfl rfl rfl rfl
  | sub rd rb => exact .alu rd _ _ rfl rfl rfl rfl
  | subc rd rb => exact .alu rd _ _ rfl rfl rfl rfl
  | subi rd c8 => exact .alu rd _ _ rfl rfl rfl rfl
  | subic rd c8 => exact .alu rd _ _ rfl rfl rfl rfl
  | rolc rd rb => exact .alu rd _ _ rfl rfl rfl rfl
  | rorc rd rb => exact .alu rd _ _ rfl rfl rfl rfl
  | and rd rb => exact .logic rd _ rfl rfl rfl
  | andi rd c8 => exact .logic rd _ rfl rfl rfl
  | or rd rb => exact .logic rd _ rfl rfl rfl
  | ori rd c8 => exact .logic rd _ rfl rfl rfl
  | xor rd rb => exact .logic rd _ rfl rfl rfl
  | xori rd c8 => exact .logic rd _ rfl rfl rfl
  | rol rd rb => exact .logic rd _ rfl rfl rfl
  | ror rd rb => exact .logic rd _ rfl rfl rfl
  | cmp rd rb => exact .compare _ _ rfl rfl rfl
  | cmpi rd c8 => exact .compare _ _ rfl rfl rfl
  | test rd rb => exact .zero _ rfl rfl
  | testi rd c8 => exact .zero _ rfl rfl
  | clrz => exact .zero false rfl rfl
  | setz => exact .zero true rfl rfl
  | clrc => exact .carry false rfl rfl
  | setc => exact .carry true rfl rfl
  | mov rd rb => exact .move rd _ rfl rfl
  | movi rd c8 => exact .move rd c8 rfl rfl
  | clri => exact .enable false (.inl rfl) rfl
  | seti => exact .enable true (.inr rfl) rfl
  | nop => exact .nop rfl
  | b d => exact .branch true d rfl rfl
  | bc d => exact .branch s.c d rfl rfl
  | bnc d => exact .branch (!s.c) d rfl rfl
  | bnz d => exact .branch (!s.z) d rfl rfl
  | bz d => exact .branch s.z d rfl rfl
  | call d => exact .call true d rfl rfl rfl
  | callc d => exact .call s.c d rfl rfl rfl
  | callnc d => exact .call (!s.c) d rfl rfl rfl
  | callnz d => exact .call (!s.z) d rfl rfl rfl
  | callz d => exact .call s.z d rfl rfl rfl
  | ret => exact .ret rfl
  | iret => exact .iret rfl
  | rcsr rd n => exact .rcsr rd n rfl
  | wcsr n rb => exact .wcsr n rb rfl
  | lsp rd f => exact .loadSp rd _ rfl rfl
  | lspi rd rb => exact .loadSp rd _ rfl rfl
  | ssp rd f => exact .storeSp rd _ rfl
  | sspi rd rb => exact .storeSp rd _ rfl
  | importD rd f => exact .loadIo rd _ rfl rfl
  | importI rd rb => exact .loadIo rd _ rfl rfl
  | exportD rd f => exact .storeIo rd _ rfl
  | exportI rd rb => exact .storeIo rd _ rfl

/-! ### The fields an instruction may change -/

/-- What a completed instruction may change, field by field: each field is as before, or changed in the way and
by the instructions that spec/10_state.md lists. -/
structure Effect (i : Instr) (s t : State) : Prop where
  cfg : t.cfg = s.cfg := by rfl
  prom : t.prom = s.prom := by rfl
  /-- R25, R27 -/
  pc : t.pc < s.cfg.promSize
  /-- R22 -/
  regs : t.regs = s.regs ∨ ∃ rd v, destination i = some rd ∧ t.regs = (s.setReg rd v).regs := by
    exact .inl rfl
  /-- R29 -/
  c : t.c = s.c ∨ writesCarry i = true := by exact .inl rfl
  /-- R29 -/
  z : t.z = s.z ∨ writesZero i = true := by exact .inl rfl
  /-- R33 -/
  ip : t.ip = s.ip ∨ ∃ rb, i = .wcsr 0 rb ∧ t.ip = s.ip &&& ~~~(s.reg rb) := by exact .inl rfl
  /-- R34 -/
  im : t.im = s.im ∨ ∃ rb, i = .wcsr 1 rb ∧ t.im = s.reg rb &&& s.cfg.lineMask := by exact .inl rfl
  /-- R35 -/
  ie : t.ie = s.ie ∨ (i = .clri ∨ i = .seti) ∨ i = .iret ∨ ∃ rb, i = .wcsr 2 rb := by exact .inl rfl
  /-- R46 -/
  isr : t.isr = s.isr ∨ i = .iret ∧ s.cfg.irqPolicy = .inService := by exact .inl rfl
  /-- R41, R42 -/
  stack : t.stack = s.stack ∨
      (isCall i = true ∧ HasRoom s ∧
        ∃ c z : Bool, t.stack = { addr := s.pc + 1, c := c, z := z } :: s.stack) ∨
      ((i = .ret ∨ i = .iret) ∧ ∃ f, s.stack = f :: t.stack) := by exact .inl rfl
  /-- R45 -/
  sp : StoresWithin s t := by exact .inl rfl

/-- What a completed instruction did, shape by shape. -/
theorem Shape.effect {o : Out} (hshape : Shape s i o) (h : o = .next t) : Effect i s t := by
  cases hshape with
  | alu rd r carry hd hc hz =>
    obtain ⟨hpc, rfl⟩ := State.writeAlu_next.1 h
    exact { pc := hpc, regs := .inr ⟨rd, r, hd, rfl⟩, c := .inr hc, z := .inr hz }
  | logic rd r hd hz =>
    obtain ⟨hpc, rfl⟩ := State.writeLogic_next.1 h
    exact { pc := hpc, regs := .inr ⟨rd, r, hd, rfl⟩, z := .inr hz }
  | compare r carry hc hz =>
    obtain ⟨hpc, rfl⟩ := State.compare_next.1 h
    exact { pc := hpc, c := .inr hc, z := .inr hz }
  | zero b hz =>
    obtain ⟨hpc, rfl⟩ := State.advance_next.1 h
    exact { pc := hpc, z := .inr hz }
  | carry b hc =>
    obtain ⟨hpc, rfl⟩ := State.advance_next.1 h
    exact { pc := hpc, c := .inr hc }
  | move rd v hd =>
    obtain ⟨hpc, rfl⟩ := State.advance_next.1 h
    exact { pc := hpc, regs := .inr ⟨rd, v, hd, rfl⟩ }
  | enable b hi =>
    obtain ⟨hpc, rfl⟩ := State.advance_next.1 h
    exact { pc := hpc, ie := .inr (.inl hi) }
  | nop =>
    obtain ⟨hpc, rfl⟩ := State.advance_next.1 h
    exact { pc := hpc }
  | branch taken d =>
    rcases State.branch_next.1 h with ⟨-, h⟩ | ⟨-, h⟩
    · obtain ⟨h0, h1, rfl⟩ := State.goto_next.1 h
      exact { pc := by simpa using by omega }
    · obtain ⟨hpc, rfl⟩ := State.advance_next.1 h
      exact { pc := hpc }
  | call taken d hcall =>
    rcases State.call_next.1 h with ⟨-, hroom, h⟩ | ⟨-, h⟩
    · obtain ⟨h0, h1, rfl⟩ := State.goto_next.1 h
      simp only [State.drawn_cfg, State.setStack_cfg] at h1
      exact { pc := by simpa using by omega, stack := .inr (.inl ⟨hcall, hroom, _, _, rfl⟩) }
    · obtain ⟨hpc, rfl⟩ := State.advance_next.1 h
      exact { pc := hpc }
  | ret hi =>
    obtain ⟨f, k, hk, hpc, rfl⟩ := State.returnFromCall_next.1 h
    exact { pc := hpc, stack := .inr (.inr ⟨.inl hi, f, hk⟩) }
  | iret hi =>
    obtain ⟨f, k, hk, hpc, rfl⟩ := State.returnFromInterrupt_next.1 h
    obtain ⟨e, r, hu, hr⟩ := State.unblockEntry_writes (s := ((s.setStack k).setC f.c).setZ f.z)
    rw [hu]
    subst hi
    exact { pc := hpc, c := .inr rfl, z := .inr rfl, ie := .inr (.inr (.inl rfl)),
            isr := hr.imp id (⟨rfl, ·⟩), stack := .inr (.inr ⟨.inr rfl, f, hk⟩) }
  | rcsr rd n hi =>
    subst hi
    unfold execRcsr at h
    split at h
    · cases h
    · obtain ⟨hpc, rfl⟩ := State.advance_next.1 h
      exact { pc := hpc, regs := .inr ⟨rd, _, rfl, rfl⟩ }
  | wcsr n rb hi =>
    subst hi
    unfold execWcsr at h
    split at h
    · cases h
    · rename_i u hu
      obtain ⟨hpc, rfl⟩ := State.advance_next.1 h
      rcases State.writeCsr_some.1 hu with ⟨rfl, rfl⟩ | ⟨rfl, rfl⟩ | ⟨rfl, rfl⟩
      · exact { pc := hpc, z := .inr rfl, ip := .inr ⟨rb, rfl, rfl⟩ }
      · exact { pc := hpc, z := .inr rfl, im := .inr ⟨rb, rfl, rfl⟩ }
      · exact { pc := hpc, z := .inr rfl, ie := .inr (.inr (.inr ⟨rb, rfl⟩)) }
  | loadSp rd ea hd =>
    obtain ⟨v, u, hu, h⟩ := State.loadSp_next.1 h
    obtain ⟨l, n, rfl⟩ := State.readSp_writes hu
    obtain ⟨hpc, rfl⟩ := State.advance_next.1 h
    exact { pc := hpc, regs := .inr ⟨rd, v, hd, rfl⟩ }
  | storeSp rd ea =>
    obtain ⟨u, hu, h⟩ := State.storeSp_next.1 h
    obtain ⟨⟨m, rfl⟩, hsp⟩ := State.writeSp_writes hu
    obtain ⟨hpc, rfl⟩ := State.advance_next.1 h
    exact { pc := hpc, sp := hsp }
  | loadIo rd ea hd =>
    obtain ⟨v, u, hu, h⟩ := State.loadIo_next.1 h
    obtain ⟨l, n, e, rfl⟩ := State.readIo_writes hu
    obtain ⟨hpc, rfl⟩ := State.advance_next.1 h
    exact { pc := hpc, regs := .inr ⟨rd, v, hd, rfl⟩ }
  | storeIo rd ea =>
    obtain ⟨u, hu, h⟩ := State.storeIo_next.1 h
    obtain ⟨⟨m, e, rfl⟩, hsp⟩ := State.writeIo_writes hu
    obtain ⟨hpc, rfl⟩ := State.advance_next.1 h
    exact { pc := hpc, sp := hsp }

/-- What an instruction that completes may change. -/
theorem exec_effect (h : exec i s = .next t) : Effect i s t := (exec_shape i s).effect h

/-- An interrupt entry that completes (R258). -/
theorem step_entry (htake : s.takesInterrupt = true) (h : step s = .next t) :
    HasRoom s ∧ ∃ e r, (r = s.isr ∨ s.cfg.irqPolicy = .inService) ∧
      t = (((s.sample.setStack ({ addr := s.pc, c := s.c, z := s.z } :: s.stack)).setIe e).setIsr r).setPc 0 := by
  simp only [step, htake, if_true] at h
  obtain ⟨hroom, rfl⟩ := State.takeInterrupt_next.1 h
  obtain ⟨e, r, hb, hr⟩ := State.blockEntry_writes
    (s := s.sample.setStack ({ addr := s.pc, c := s.c, z := s.z } :: s.stack))
  exact ⟨hroom, e, r, hr, by rw [← hb]; rfl⟩

end Sys2Proof.Machine
end

section
/-! PROOF. Which instructions write which part of the state (spec/10_state.md): corollaries of `exec_effect` and
`step_entry`. -/

namespace Sys2Proof.Machine

open Sys2Proof.Claims

variable {s t : State} {i : Instr}

/-- Sampling clears no pending bit (R255). -/
theorem State.sample_ip_and : s.sample.ip &&& s.ip = s.ip := by
  ext j hj
  simp only [State.sample_ip, BitVec.getElem_and, BitVec.getElem_or]
  cases s.ip[j] <;> simp

/-- Settles O18: an instruction other than WCSR to index 0 keeps IP, and neither sampling nor interrupt entry
clears a bit of it. -/
theorem pendingBitsClearedOnlyByWcsr : Obligations.PendingBitsClearedOnlyByWcsr := by
  have hexec : ∀ (i : Instr) (s t : State), exec i s = .next t → t.ip = s.ip ∨ ∃ rb, i = .wcsr 0 rb :=
    fun i s t h => (exec_effect h).ip.imp id fun ⟨rb, hi, _⟩ => ⟨rb, hi⟩
  refine ⟨fun i s t h hi => (hexec i s t h).resolve_right fun ⟨rb, e⟩ => hi rb e, ?_⟩
  intro s t hstep hclear
  rcases step_next.1 hstep with ⟨htake, -⟩ | ⟨htake, w, i, hfetch, hdec, h⟩
  · obtain ⟨-, e, r, -, rfl⟩ := step_entry htake hstep
    exact absurd State.sample_ip_and hclear
  · rcases hexec i _ t h with hip | ⟨rb, rfl⟩
    · exact absurd (hip ▸ State.sample_ip_and) hclear
    · exact ⟨htake, w, rb, hfetch, hdec⟩

/-- Settles O19. -/
theorem maskAndEnableWritersAreThese : Obligations.MaskAndEnableWritersAreThese := by
  intro i s t h
  have he := exec_effect h
  refine ⟨fun hi => ?_, fun hclri hseti hwcsr hiret => ?_, fun hi => ?_⟩
  · exact he.im.resolve_right fun ⟨rb, e, _⟩ => hi rb e
  · rcases he.ie with hie | (e | e) | e | ⟨rb, e⟩
    · exact hie
    · exact absurd e hclri
    · exact absurd e hseti
    · exact absurd e hiret
    · exact absurd e (hwcsr rb)
  · refine he.isr.resolve_right fun ⟨e, hp⟩ => ?_
    rcases hi with hi | hi
    · exact hi e
    · rw [hp] at hi; cases hi

/-- Settles O48. -/
theorem flagWritersAreThoseOfTheTable : Obligations.FlagWritersAreThoseOfTheTable := by
  refine ⟨fun i s t h => ⟨fun hc => ?_, fun hz => ?_⟩, fun s t htake hstep => ?_⟩
  · exact (exec_effect h).c.resolve_right (by simp [hc])
  · exact (exec_effect h).z.resolve_right (by simp [hz])
  · obtain ⟨-, e, r, -, rfl⟩ := step_entry htake hstep
    exact ⟨rfl, rfl⟩

/-- A register reads alike in states with one configuration and one register file. -/
theorem State.reg_congr (hcfg : t.cfg = s.cfg) (hregs : t.regs = s.regs) (q : RegIdx) : t.reg q = s.reg q := by
  simp only [State.reg, hcfg, hregs]

/-- Settles O49: a write to the destination is seen through no field that names another register (R21). -/
theorem registerWritersAreThoseListed : Obligations.RegisterWritersAreThoseListed := by
  refine ⟨fun i s t h q hq => ?_, fun s t htake hstep => ?_⟩
  · have he := exec_effect h
    rcases he.regs with hregs | ⟨rd, v, hd, hregs⟩
    · exact State.reg_congr he.cfg hregs q
    · calc t.reg q = (s.setReg rd v).reg q := State.reg_congr (s := s.setReg rd v) he.cfg hregs q
        _ = s.reg q := by rw [State.reg_setReg, if_neg (hq rd hd)]
  · obtain ⟨-, e, r, -, rfl⟩ := step_entry htake hstep
    rfl

/-- RET and IRET that complete remove the first entry and continue at its address (R42). -/
theorem exec_return_pops (hi : i = .ret ∨ i = .iret) (h : exec i s = .next t) :
    ∃ f, s.stack = f :: t.stack ∧ t.pc = f.addr := by
  rcases hi with rfl | rfl
  · obtain ⟨f, k, hk, -, rfl⟩ := State.returnFromCall_next.1 h
    exact ⟨f, hk, rfl⟩
  · obtain ⟨f, k, hk, -, rfl⟩ := State.returnFromInterrupt_next.1 h
    obtain ⟨e, r, hu, -⟩ := State.unblockEntry_writes (s := ((s.setStack k).setC f.c).setZ f.z)
    exact ⟨f, by rw [hu]; exact hk, rfl⟩

/-- Settles O50. -/
theorem stackChangesOnlyByCallsAndReturns : Obligations.StackChangesOnlyByCallsAndReturns := by
  refine ⟨fun i s t h => ⟨fun hcall => ?_, fun hi => exec_return_pops hi h, fun hcall hret hiret => ?_⟩,
    fun s t htake hstep => ?_⟩
  · rcases (exec_effect h).stack with hk | ⟨-, -, hpush⟩ | ⟨rfl | rfl, -⟩
    · exact .inl hk
    · exact .inr hpush
    · cases hcall
    · cases hcall
  · rcases (exec_effect h).stack with hk | ⟨hi, -⟩ | ⟨hi, -⟩
    · exact hk
    · rw [hcall] at hi; cases hi
    · exact absurd hi (not_or.2 ⟨hret, hiret⟩)
  · obtain ⟨hroom, e, r, -, rfl⟩ := step_entry htake hstep
    exact ⟨hroom, rfl⟩

/-- Settles O40: two fields name one physical register when their indices agree, modulo 16 with 16 registers. -/
theorem registerFieldsMapAsConfigured : Obligations.RegisterFieldsMapAsConfigured := by
  intro s r q v
  refine ⟨fun hn => ?_, fun hn => ?_⟩
  · have hphys : s.cfg.phys r = s.cfg.phys q ↔ r.toNat % 16 = q.toNat % 16 := by simp [Config.phys, hn]
    simp only [State.reg_setReg, hphys]
  · have hphys : s.cfg.phys r = s.cfg.phys q ↔ r = q := by simp only [Config.phys, hn, Fin.mk.injEq, BitVec.toNat_inj]
    simp only [State.reg_setReg, hphys]

end Sys2Proof.Machine
end

section
/-! PROOF. Where an instruction, or an interrupt entry, stops the machine (R27, R37, R43, R251). -/

namespace Sys2Proof.Machine

open Sys2Proof.Claims

variable {s : State} {i : Instr}

/-! ### The shared operations that stop -/

theorem State.goto_outside {d : Int} (h : ¬InProm s d) : s.goto d = .fault (.pcOutOfRange d) := if_neg h

/-- No PROM word follows the last (R27). -/
theorem State.advance_last {t : State} (hpc : t.pc = s.pc) (hcfg : t.cfg = s.cfg)
    (h : s.pc + 1 = s.cfg.promSize) : t.advance = .fault (.pcOutOfRange s.cfg.promSize) := by
  have hout : ¬InProm t (t.pc + 1) := by unfold InProm; rw [hpc, hcfg]; omega
  rw [State.advance, State.goto_outside hout, hpc, ← h]
  rfl

theorem State.branch_outside {taken : Bool} {d : Int} (ht : taken = true) (h : ¬InProm s (s.pc + d)) :
    s.branch taken d = .fault (.pcOutOfRange (s.pc + d)) := by
  rw [State.branch, if_pos ht, State.goto_outside h]

/-- A taken call on a full stack stops before its target matters (R43, R251). -/
theorem State.call_full {taken : Bool} {d : Int} (ht : taken = true) (h : ¬HasRoom s) :
    s.call taken d = .fault .callStackOverflow := by
  rw [State.call, if_pos ht, State.push_error.2 ⟨not_lt.1 h, rfl⟩]

theorem State.call_outside {taken : Bool} {d : Int} (hroom : HasRoom s) (h : ¬InProm s (s.pc + d))
    (ht : taken = true) : s.call taken d = .fault (.pcOutOfRange (s.pc + d)) := by
  rw [State.call, if_pos ht, State.push_ok.2 ⟨hroom, rfl⟩]
  exact State.goto_outside h

/-! ### The obligations -/

/-- Settles O17. -/
theorem reservedCsrIndexFaults : Obligations.ReservedCsrIndexFaults := by
  intro s r n hn
  constructor
  · show execRcsr r n s = _
    rw [execRcsr, State.readCsr_none.2 hn]
  · show execWcsr n r s = _
    rw [execWcsr, State.writeCsr_none.2 hn]

/-- Settles O23. -/
theorem fullStackFaults : Obligations.FullStackFaults := by
  intro s d hfull
  refine ⟨State.call_full rfl hfull, fun hc => State.call_full hc hfull, fun hc => ?_, fun hz => ?_,
    fun hz => State.call_full hz hfull, fun htake => ?_⟩
  · exact State.call_full (by simp [hc]) hfull
  · exact State.call_full (by simp [hz]) hfull
  · have hpush : s.sample.push { addr := s.sample.pc, c := s.sample.c, z := s.sample.z } =
        .error .callStackOverflow := State.push_error.2 ⟨not_lt.1 hfull, rfl⟩
    simp only [step, htake, if_true, State.takeInterrupt, hpush]

/-- Settles O26. -/
theorem returnsFaultWithoutAPlaceToGo : Obligations.ReturnsFaultWithoutAPlaceToGo := by
  intro s
  refine ⟨fun hempty => ?_, fun f k hk haddr => ?_⟩
  · have hpop := State.pop_error.2 ⟨hempty, rfl⟩
    constructor
    · show s.returnFromCall = _
      rw [State.returnFromCall, hpop]
    · show s.returnFromInterrupt = _
      rw [State.returnFromInterrupt, hpop]
  · have hpop := State.pop_ok.2 ⟨k, hk, rfl⟩
    have hout : ¬InProm s f.addr := by unfold InProm; omega
    constructor
    · show s.returnFromCall = _
      rw [State.returnFromCall, hpop]
      exact State.goto_outside hout
    · show s.returnFromInterrupt = _
      rw [State.returnFromInterrupt, hpop]
      obtain ⟨e, r, hu, -⟩ := State.unblockEntry_writes (s := ((s.setStack k).setC f.c).setZ f.z)
      simp only [hu]
      exact State.goto_outside hout

/-- At the last PROM word an instruction that does not set the pc stops, by the fault of its operand reads and
its access if it has one, otherwise by the pc (R251). -/
theorem exec_last_faults (hlast : s.pc + 1 = s.cfg.promSize) (hfalls : transfers s i = false) :
    exec i s = .fault ((operandFault s i).getD (.pcOutOfRange s.cfg.promSize)) := by
  have hshape := exec_shape i s
  generalize exec i s = o at hshape ⊢
  cases hshape with
  | alu _ _ _ _ _ _ hop | logic _ _ _ _ hop | compare _ _ _ _ hop | zero _ _ hop | carry _ _ hop
  | move _ _ _ hop | enable _ _ hop | nop hop => rw [hop]; exact State.advance_last rfl rfl hlast
  | branch taken d ht hop =>
    rw [State.branch, ← ht, hfalls, hop]
    exact State.advance_last rfl rfl hlast
  | call taken d _ ht hop =>
    rw [State.call, ← ht, hfalls, hop]
    exact State.advance_last rfl rfl hlast
  | ret hi => subst hi; cases hfalls
  | iret hi => subst hi; cases hfalls
  | rcsr rd n hi =>
    subst hi
    by_cases hn : 3 ≤ n
    · rw [execRcsr, State.readCsr_none.2 hn, operandFault, if_pos hn]
      rfl
    · obtain ⟨v, hv⟩ := Option.ne_none_iff_exists'.1 (mt State.readCsr_none.1 hn)
      rw [execRcsr, hv, operandFault, if_neg hn]
      exact State.advance_last rfl rfl hlast
  | wcsr n rb hi =>
    subst hi
    by_cases hn : 3 ≤ n
    · rw [execWcsr, State.writeCsr_none.2 hn, operandFault, if_pos hn]
      rfl
    · obtain ⟨u, hu⟩ := Option.ne_none_iff_exists'.1 (mt State.writeCsr_none.1 hn)
      rw [execWcsr, hu, operandFault, if_neg hn]
      rcases State.writeCsr_some.1 hu with ⟨-, rfl⟩ | ⟨-, rfl⟩ | ⟨-, rfl⟩ <;>
        exact State.advance_last rfl rfl hlast
  | loadSp rd ea _ hop =>
    rw [State.loadSp, hop]
    cases hu : s.readSp ea with
    | error e => rfl
    | ok p =>
      obtain ⟨l, n, hp⟩ := State.readSp_writes hu
      exact State.advance_last (t := p.2.setReg rd p.1) (by rw [hp]; rfl) (by rw [hp]; rfl) hlast
  | storeSp rd ea hop =>
    rw [State.storeSp, hop]
    cases hu : s.writeSp ea (s.reg rd) with
    | error e => rfl
    | ok u =>
      obtain ⟨⟨m, rfl⟩, -⟩ := State.writeSp_writes hu
      exact State.advance_last rfl rfl hlast
  | loadIo rd ea _ hop =>
    rw [State.loadIo, hop]
    cases hu : s.readIo ea with
    | error e => rfl
    | ok p =>
      obtain ⟨l, n, e, hp⟩ := State.readIo_writes hu
      exact State.advance_last (t := p.2.setReg rd p.1) (by rw [hp]; rfl) (by rw [hp]; rfl) hlast
  | storeIo rd ea hop =>
    rw [State.storeIo, hop]
    cases hu : s.writeIo ea (s.reg rd) with
    | error e => rfl
    | ok u =>
      obtain ⟨⟨m, e, rfl⟩, -⟩ := State.writeIo_writes hu
      exact State.advance_last rfl rfl hlast

/-- Settles O27. -/
theorem leavingPromFaults : Obligations.LeavingPromFaults := by
  refine ⟨fun s d hout => ?_, fun s i hlast hfalls => exec_last_faults hlast hfalls⟩
  refine ⟨State.branch_outside rfl hout, fun hc => State.branch_outside hc hout,
    fun hc => State.branch_outside (by simp [hc]) hout, fun hz => State.branch_outside (by simp [hz]) hout,
    fun hz => State.branch_outside hz hout, fun hroom => ?_⟩
  exact ⟨State.call_outside hroom hout rfl, fun hc => State.call_outside hroom hout hc,
    fun hc => State.call_outside hroom hout (by simp [hc]),
    fun hz => State.call_outside hroom hout (by simp [hz]), fun hz => State.call_outside hroom hout hz⟩

end Sys2Proof.Machine
end

section
/-! PROOF. The invariant of the machine: each part under the changes that `exec_effect` and `step_entry` allow,
then every step (R20, R21, R25, R36, R40, R45, R46). -/

namespace Sys2Proof

variable {g : Config}

/-- A scratchpad name of a location of the regions is an offset of the scratchpad (R77). -/
theorem Config.sp_name_lt (h : g.legal = true) {x : Loc} (hx : x.within g.spSize g.ioSize g.promSize = true)
    {k : Nat} (hk : .sp k ∈ g.names x) : k < g.spSize := by
  unfold Config.names at hk
  split at hk
  · rename_i ls hls
    exact of_decide_eq_true ((Config.legal_aliases h).1 ls (List.mem_of_find?_eq_some hls) _ hk)
  · obtain rfl := List.mem_singleton.1 hk
    exact of_decide_eq_true hx

/-- A byte of a location of the regions is kept under an offset of the scratchpad. -/
theorem Config.spKey_lt (h : g.legal = true) {x : Loc} (hx : x.within g.spSize g.ioSize g.promSize = true)
    {k : Nat} (hk : g.spKey x = some k) : k < g.spSize := by
  obtain ⟨y, hy, hyk⟩ := List.exists_of_findSome?_eq_some hk
  cases y with
  | sp j =>
    obtain rfl : j = k := Option.some.inj hyk
    exact Config.sp_name_lt h hx hy
  | io j => cases hyk
  | prom a j => cases hyk

theorem Config.spCell_lt (h : g.legal = true) {l : Nat} (hl : l < g.spSize) : g.spCell l < g.spSize :=
  Config.spKey_lt h (x := .sp l) (decide_eq_true hl) (Config.spKey_sp l)

theorem Config.wf_legal (h : g.wf = true) : g.legal = true := by
  simp only [Config.wf, Bool.and_eq_true] at h
  exact h.1.1

end Sys2Proof

namespace Sys2Proof.Machine

open Sys2Proof.Claims

variable {s t : State} {i : Instr}

/-! ### The parts of the invariant -/

theorem State.wf_iff : s.wf = true ↔ s.cfg.wf = true ∧ s.pc < s.cfg.promSize ∧ s.stackWf = true ∧
    s.storageWf = true ∧ s.csrWf = true ∧ s.regsWf = true := by
  simp only [State.wf, Bool.and_eq_true, decide_eq_true_eq, and_assoc]

theorem State.stackWf_iff : s.stackWf = true ↔
    s.stack.length ≤ s.cfg.stackDepth.toNat ∧ ∀ f ∈ s.stack, f.addr ≤ s.cfg.promSize := by
  simp [State.stackWf]

/-- Storage of a region of `size` keys is canonical and inside the region. -/
def CellsWf {α : Type} (size : Nat) (m : List (Nat × α)) : Prop :=
  Memory.wf m = true ∧ ∀ c ∈ m, c.1 < size

theorem State.storageWf_iff :
    s.storageWf = true ↔ CellsWf s.cfg.spSize s.sp ∧ CellsWf s.cfg.promSize s.prom := by
  simp [State.storageWf, CellsWf, and_assoc]

theorem State.csrWf_iff : s.csrWf = true ↔ s.ip &&& ~~~s.cfg.lineMask = 0 ∧
    s.im &&& ~~~s.cfg.lineMask = 0 ∧ (s.cfg.irqPolicy = .inService ∨ s.isr = false) := by
  simp [State.csrWf, and_assoc]

theorem State.regsWf_iff : s.regsWf = true ↔
    s.cfg.nregs = .r32 ∨ ∀ (j : Nat) (hj : j < 32), 16 ≤ j → s.regs[j] = 0 := by
  simp only [State.regsWf, Bool.or_eq_true, beq_iff_eq, List.all_eq_true]
  refine or_congr_right ⟨fun h j hj h16 => ?_, fun h v hv => ?_⟩
  · refine h _ (List.mem_drop_iff_getElem.2 ⟨j - 16, by simp; omega, ?_⟩)
    simp [show 16 + (j - 16) = j by omega]
  · obtain ⟨k, hk, rfl⟩ := List.mem_drop_iff_getElem.1 hv
    simp only [Vector.length_toList] at hk
    simpa using h (16 + k) (by omega) (by omega)

/-! ### What keeps each part -/

theorem CellsWf.write {α : Type} {size : Nat} {m : List (Nat × α)} (h : CellsWf size m) {k : Nat}
    (hk : k < size) (v : α) : CellsWf size (Cells.write m k v) := by
  obtain ⟨hwf, hin⟩ := h
  refine ⟨Memory.wf_write hwf k v, fun c hc => ?_⟩
  rcases Cells.mem_write hc with rfl | hc
  · exact hk
  · exact hin c hc

/-- A store writes inside the scratchpad (R45, R65). -/
theorem StoresWithin.cellsWf (h : StoresWithin s t) (hlegal : s.cfg.legal = true)
    (hsp : CellsWf s.cfg.spSize s.sp) : CellsWf s.cfg.spSize t.sp := by
  rcases h with e | ⟨x, k, v, hx, hk, e⟩
  · rwa [e]
  · rw [e]
    exact hsp.write (Config.spKey_lt hlegal hx hk) v

/-- With 16 registers no field names a register of the upper half (R21). -/
theorem State.regsWf_setReg (h : s.regsWf = true) (rd : RegIdx) (v : Byte) : (s.setReg rd v).regsWf = true := by
  rw [State.regsWf_iff] at h ⊢
  cases hn : s.cfg.nregs with
  | r32 => exact .inl hn
  | r16 =>
    refine .inr fun j hj h16 => ?_
    have hphys : (s.cfg.phys rd).val ≠ j := by simp only [Config.phys, hn]; omega
    simpa [Vector.getElem_set, hphys] using h.resolve_left (by simp [hn]) j hj h16

/-- Bits of configured lines add no bit of an absent line (R36). -/
theorem noAbsentLine_or {a m : Byte} (h : a &&& ~~~m = 0) (b : Byte) : (a ||| (b &&& m)) &&& ~~~m = 0 := by
  rw [BitVec.and_or_distrib_right, h, BitVec.and_assoc, BitVec.and_not_self]
  simp

theorem noAbsentLine_and {a m : Byte} (h : a &&& ~~~m = 0) (b : Byte) : (a &&& b) &&& ~~~m = 0 := by
  rw [BitVec.and_assoc, BitVec.and_comm b, ← BitVec.and_assoc, h]
  exact BitVec.zero_and

theorem noAbsentLine_masked (b m : Byte) : (b &&& m) &&& ~~~m = 0 := by
  rw [BitVec.and_assoc, BitVec.and_not_self]
  exact BitVec.and_zero

/-! ### The step -/

/-- Every instruction that completes keeps the invariant. -/
theorem exec_keeps_wf (hwf : s.wf = true) (h : exec i s = .next t) : t.wf = true := by
  obtain ⟨hcfg, hpc, hstack, hstorage, hcsr, hregs⟩ := State.wf_iff.1 hwf
  have he := exec_effect h
  refine State.wf_iff.2 ⟨by rwa [he.cfg], by rw [he.cfg]; exact he.pc, ?_, ?_, ?_, ?_⟩
  · obtain ⟨hlen, haddr⟩ := State.stackWf_iff.1 hstack
    rw [State.stackWf_iff, he.cfg]
    rcases he.stack with e | ⟨-, hroom, c, z, e⟩ | ⟨-, f, e⟩
    · rw [e]; exact ⟨hlen, haddr⟩
    · rw [e]; exact ⟨hroom, List.forall_mem_cons.2 ⟨hpc, haddr⟩⟩
    · rw [e] at hlen haddr
      exact ⟨Nat.le_of_succ_le hlen, (List.forall_mem_cons.1 haddr).2⟩
  · obtain ⟨hsp, hprom⟩ := State.storageWf_iff.1 hstorage
    rw [State.storageWf_iff, he.cfg, he.prom]
    exact ⟨he.sp.cellsWf (Config.wf_legal hcfg) hsp, hprom⟩
  · obtain ⟨hip, him, hisr⟩ := State.csrWf_iff.1 hcsr
    rw [State.csrWf_iff, he.cfg]
    refine ⟨?_, ?_, ?_⟩
    · rcases he.ip with e | ⟨rb, -, e⟩ <;> rw [e]
      · exact hip
      · exact noAbsentLine_and hip _
    · rcases he.im with e | ⟨rb, -, e⟩ <;> rw [e]
      · exact him
      · exact noAbsentLine_masked _ _
    · rcases he.isr with e | ⟨-, hp⟩
      · rwa [e]
      · exact .inl hp
  · rcases he.regs with e | ⟨rd, v, -, e⟩
    · rwa [State.regsWf, he.cfg, e]
    · have hset := State.regsWf_setReg hregs rd v
      rwa [State.regsWf, he.cfg, e]

/-- Sampling keeps the invariant: it sets bits of configured lines alone (R36, R255). -/
theorem sample_keeps_wf (hwf : s.wf = true) : s.sample.wf = true := by
  obtain ⟨hcfg, hpc, hstack, hstorage, hcsr, hregs⟩ := State.wf_iff.1 hwf
  obtain ⟨hip, him, hisr⟩ := State.csrWf_iff.1 hcsr
  exact State.wf_iff.2 ⟨hcfg, hpc, hstack, hstorage,
    State.csrWf_iff.2 ⟨noAbsentLine_or hip _, him, hisr⟩, hregs⟩

/-- Interrupt entry keeps the invariant. -/
theorem entry_keeps_wf (hwf : s.wf = true) (htake : s.takesInterrupt = true) (h : step s = .next t) :
    t.wf = true := by
  obtain ⟨hcfg, hpc, hstack, hstorage, hcsr, hregs⟩ := State.wf_iff.1 (sample_keeps_wf hwf)
  obtain ⟨hip, him, hisr⟩ := State.csrWf_iff.1 hcsr
  obtain ⟨-, haddr⟩ := State.stackWf_iff.1 hstack
  obtain ⟨hroom, e, r, hr, rfl⟩ := step_entry htake h
  refine State.wf_iff.2 ⟨hcfg, Nat.zero_lt_of_lt hpc,
    State.stackWf_iff.2 ⟨hroom, List.forall_mem_cons.2 ⟨Nat.le_of_lt hpc, haddr⟩⟩, hstorage,
    State.csrWf_iff.2 ⟨hip, him, ?_⟩, hregs⟩
  rcases hr with rfl | hp
  · exact hisr
  · exact .inl hp

/-- Settles O60: the step is an interrupt entry, or one instruction from the sampled state. -/
theorem stepKeepsInvariant : Obligations.StepKeepsInvariant := by
  intro s t hwf h
  rcases step_next.1 h with ⟨htake, -⟩ | ⟨-, w, i, -, -, hexec⟩
  · exact entry_keeps_wf hwf htake h
  · exact exec_keeps_wf (sample_keeps_wf hwf) hexec

end Sys2Proof.Machine
end

section
/-! PROOF. The state after reset meets the invariant, from initialisation files and from boot images (R50, R88,
R293). -/

namespace Sys2Proof

variable {g : Config}

/-- The parts of a legal configuration that the initial state rests on: `RESET_PC` and the initialisation files
(R6, R50). -/
theorem Config.legal_initial (h : g.legal = true) : g.resetPc < g.promSize ∧
    Machine.CellsWf g.promSize g.promInit ∧ ∀ c ∈ g.spInit, c.1 < g.spSize := by
  simp only [Config.legal, Bool.and_eq_true, decide_eq_true_eq, List.all_eq_true] at h
  grind [Machine.CellsWf, Machine.Memory.wf]

end Sys2Proof

namespace Sys2Proof.Machine

variable {g : Config}

/-- The canonical form says that keys rise from any entry to any later one. -/
theorem keysRise_iff_pairwise {α : Type} (m : List (Nat × α)) :
    keysRise m = true ↔ m.Pairwise fun p q => p.1 < q.1 := by
  induction m with
  | nil => simp [keysRise]
  | cons p m ih => rw [keysRise_cons, ih, List.pairwise_cons]

/-- Initial bytes of offsets of the scratchpad are kept inside it. -/
theorem spStorage_cellsWf (h : g.legal = true) {bytes : List (Nat × Byte)}
    (hb : ∀ b ∈ bytes, b.1 < g.spSize) : CellsWf g.spSize (spStorage g bytes) := by
  obtain ⟨hwf, hcell⟩ := spStorage_wf g bytes
  refine ⟨hwf, fun c hc => ?_⟩
  obtain ⟨b, hmem, e⟩ := hcell c hc
  exact e ▸ Config.spCell_lt h (hb b hmem)

theorem initialSp_cellsWf (h : g.legal = true) : CellsWf g.spSize (initialSp g) :=
  spStorage_cellsWf h fun b hb => (Config.legal_initial h).2.2 b (List.mem_filter.1 hb).1

theorem spImage_cellsWf (h : g.legal = true) (rom : List Host.Cell) : CellsWf g.spSize (spImage g rom) := by
  refine spStorage_cellsWf h fun b hb => ?_
  obtain ⟨c, -, hc⟩ := List.mem_filterMap.1 hb
  split at hc
  · obtain rfl := Option.some.inj hc
    simp only
    omega
  · cases hc

/-- The PROM image lists words by rising index, each inside the PROM. -/
theorem promImage_cellsWf (g : Config) (rom : List Host.Cell) : CellsWf g.promSize (promImage g rom) := by
  constructor
  · refine (keysRise_iff_pairwise _).2 (List.Pairwise.filterMap _ ?_ List.pairwise_lt_range)
    intro a b hab p hp q hq
    simp only [Option.map_eq_some_iff] at hp hq
    grind
  · intro c hc
    obtain ⟨a, ha, hw⟩ := List.mem_filterMap.1 hc
    obtain ⟨w, -, rfl⟩ := Option.map_eq_some_iff.1 hw
    exact List.mem_range.1 ha

/-- The reset state meets the invariant with any storage inside its regions. -/
theorem ofConfig_wf_of_storage (hwf : g.wf = true) {sp : List Host.Cell} {prom : List (Nat × Word)}
    (hsp : CellsWf g.spSize sp) (hprom : CellsWf g.promSize prom) :
    (((State.ofConfig g).setProm prom).setSp sp).wf = true := by
  refine State.wf_iff.2 ⟨hwf, (Config.legal_initial (Config.wf_legal hwf)).1,
    State.stackWf_iff.2 ⟨Nat.zero_le _, List.forall_mem_nil _⟩, State.storageWf_iff.2 ⟨hsp, hprom⟩,
    State.csrWf_iff.2 ⟨BitVec.zero_and, BitVec.zero_and, .inr rfl⟩, State.regsWf_iff.2 (.inr fun j hj _ => ?_)⟩
  exact Vector.getElem_replicate hj

/-- The PROM after reset with no image holds its initialisation file or nothing (R50). -/
theorem ofConfig_prom_cellsWf (h : g.legal = true) : CellsWf g.promSize (State.ofConfig g).prom := by
  show CellsWf g.promSize (if g.promInternal then g.promInit else [])
  split
  · exact (Config.legal_initial h).2.1
  · exact ⟨rfl, List.forall_mem_nil _⟩

theorem ofConfig_wf (hwf : g.wf = true) : (State.ofConfig g).wf = true :=
  ofConfig_wf_of_storage hwf (initialSp_cellsWf (Config.wf_legal hwf))
    (ofConfig_prom_cellsWf (Config.wf_legal hwf))

theorem booted_wf (hwf : g.wf = true) (rom : List Host.Cell) : (State.booted g rom).wf = true := by
  have hlegal := Config.wf_legal hwf
  unfold State.booted
  cases hrom : g.romEn with
  | true =>
    simp only [Bool.true_or, if_true]
    exact ofConfig_wf_of_storage hwf (spImage_cellsWf hlegal rom) (promImage_cellsWf g rom)
  | false =>
    cases hxip : g.xip with
    | true => exact ofConfig_wf_of_storage hwf (initialSp_cellsWf hlegal) (promImage_cellsWf g rom)
    | false => exact ofConfig_wf hwf

theorem preset_wf : preset.wf = true := by decide +kernel

/-- Settles O58. -/
theorem resetClearsControlRegisters : Obligations.ResetClearsControlRegisters :=
  fun _ => ⟨rfl, rfl, rfl, rfl, rfl, rfl⟩

/-- Settles O59. -/
theorem resetMeetsInvariant : Obligations.ResetMeetsInvariant :=
  ⟨fun _ hwf => ⟨ofConfig_wf hwf, booted_wf hwf⟩, ofConfig_wf preset_wf⟩

end Sys2Proof.Machine
end

section
/-! PROOF. The address of an indirect form (spec/20_memory.md R66, R67). -/

namespace Sys2Proof

/-- A number concatenated above a byte counts pages of 256 (R67). -/
theorem toNat_append_byte {n : Nat} (page : BitVec n) (idx : Byte) :
    (page ++ idx).toNat = 256 * page.toNat + idx.toNat := by
  rw [BitVec.toNat_append, ← Nat.shiftLeft_add_eq_or_of_lt idx.isLt, Nat.shiftLeft_eq, Nat.mul_comm]

end Sys2Proof

namespace Sys2Proof.Machine

variable {s : State}

/-- Small mode: the page index alone (R66). -/
theorem State.paged_small (h : s.cfg.memMode = .small) (idx : Byte) : (s.paged idx).toNat = idx.toNat := by
  simp only [State.paged, h, BitVec.toNat_setWidth]
  omega

/-- Medium mode: one page-pointer byte above the index (R66, R67). -/
theorem State.paged_medium (h : s.cfg.memMode = .medium) (idx : Byte) :
    (s.paged idx).toNat = 256 * (s.reg 13).toNat + idx.toNat := by
  simp only [State.paged, h, BitVec.toNat_setWidth, toNat_append_byte]
  omega

/-- Large mode: three page-pointer bytes above the index, R15 the highest (R66, R67). -/
theorem State.paged_large (h : s.cfg.memMode = .large) (idx : Byte) : (s.paged idx).toNat =
    16777216 * (s.reg 15).toNat + 65536 * (s.reg 14).toNat + 256 * (s.reg 13).toNat + idx.toNat := by
  simp only [State.paged, h, toNat_append_byte]
  omega

/-- Settles O28. -/
theorem indirectAddressByMemoryMode : Obligations.IndirectAddressByMemoryMode :=
  fun s rb => ⟨fun h => State.paged_small h (s.reg rb), fun h => State.paged_medium h (s.reg rb),
    fun h => State.paged_large h (s.reg rb)⟩

end Sys2Proof.Machine
end

section
/-! PROOF. Where a memory access stops the machine, and what it does where it completes: one lemma per access,
for any address (spec/20_memory.md R72 to R74, R77, R82, R85). -/

namespace Sys2Proof.Machine

open Sys2Proof.Claims

variable {s : State} {rd : RegIdx} {ea l : Nat}

/-! ### Accesses that stop -/

theorem State.loadSp_unmapped (h : s.cfg.locateSp ea = none) :
    s.loadSp rd ea = .fault (.unmappedAccess .sp ea) := by
  simp only [State.loadSp, State.readSp, h]

theorem State.storeSp_unmapped (h : s.cfg.locateSp ea = none) :
    s.storeSp rd ea = .fault (.unmappedAccess .sp ea) := by
  simp only [State.storeSp, State.writeSp, h]

theorem State.loadIo_unmapped (h : s.cfg.locateIo ea = none) :
    s.loadIo rd ea = .fault (.unmappedAccess .io ea) := by
  simp only [State.loadIo, State.readIo, h]

theorem State.storeIo_unmapped (h : s.cfg.locateIo ea = none) :
    s.storeIo rd ea = .fault (.unmappedAccess .io ea) := by
  simp only [State.storeIo, State.writeIo, h]

theorem State.storeSp_prom (hprom : s.cfg.isProm (.sp l) = true) (hl : s.cfg.locateSp ea = some l) :
    s.storeSp rd ea = .fault .writeToProm := by
  simp only [State.storeSp, State.writeSp, hl, hprom, if_true]

theorem State.storeIo_prom (hprom : s.cfg.isProm (.io l) = true) (hl : s.cfg.locateIo ea = some l) :
    s.storeIo rd ea = .fault .writeToProm := by
  simp only [State.storeIo, State.writeIo, hl, hprom, if_true]

theorem State.loadSp_empty (hl : s.cfg.locateSp ea = some l) (hheld : s.held (.sp l) = none)
    (hshared : s.cfg.isShared (.sp l) = false) : s.loadSp rd ea = .fault (.uninitialisedRead ea) := by
  simp only [State.loadSp, State.readSp, hl, hheld, hshared, Bool.false_eq_true, if_false]

/-- Settles O38. -/
theorem unmappedAccessFaults : Obligations.UnmappedAccessFaults :=
  fun _ _ _ _ => ⟨fun h => ⟨State.loadSp_unmapped h, State.storeSp_unmapped h⟩,
    fun h => ⟨State.loadSp_unmapped h, State.storeSp_unmapped h⟩,
    fun h => ⟨State.loadIo_unmapped h, State.storeIo_unmapped h⟩,
    fun h => ⟨State.loadIo_unmapped h, State.storeIo_unmapped h⟩⟩

/-- Settles O39. -/
theorem promStoreAndEmptyByteFault : Obligations.PromStoreAndEmptyByteFault :=
  fun _ _ _ _ _ => ⟨State.storeSp_prom, State.storeSp_prom, State.storeIo_prom, State.storeIo_prom,
    State.loadSp_empty, State.loadSp_empty⟩

/-! ### Accesses that complete -/

/-- A scratchpad load of a location that holds a byte (R72). -/
theorem State.loadSp_held {v : Byte} (hfalls : Falls s) (hl : s.cfg.locateSp ea = some l)
    (hheld : s.held (.sp l) = some v) : s.loadSp rd ea = .next (aluNext s rd v s.c s.z) :=
  State.loadSp_next.2 ⟨v, s, State.readSp_ok.2 ⟨l, hl, .inl ⟨hheld, rfl⟩⟩,
    State.advance_next.2 ⟨hfalls, rfl⟩⟩

/-- A port read of a location that holds a byte, by overlap (R72, R77). -/
theorem State.loadIo_held {v : Byte} (hfalls : Falls s) (hl : s.cfg.locateIo ea = some l)
    (hheld : s.held (.io l) = some v) : s.loadIo rd ea =
      .next { aluNext s rd v s.c s.z with events := s.events ++ [.read ea l] } :=
  State.loadIo_next.2 ⟨v, _, State.readIo_ok.2 ⟨l, hl, .inl ⟨hheld, rfl⟩⟩,
    State.advance_next.2 ⟨hfalls, rfl⟩⟩

/-- A scratchpad store to a location that is no PROM byte (R73). -/
theorem State.storeSp_inside (hfalls : Falls s) (hl : s.cfg.locateSp ea = some l)
    (hprom : s.cfg.isProm (.sp l) = false) : s.storeSp rd ea =
      .next ((s.setSp (Cells.write s.sp (s.cfg.spCell l) (s.reg rd))).setPc (s.pc + 1)) :=
  State.storeSp_next.2 ⟨_, State.writeSp_ok.2 ⟨l, hl, hprom, rfl⟩, State.advance_next.2 ⟨hfalls, rfl⟩⟩

/-- A port write to a location that is kept as a scratchpad byte and is no PROM byte (R73, R77). -/
theorem State.storeIo_kept {k : Nat} (hfalls : Falls s) (hl : s.cfg.locateIo ea = some l)
    (hprom : s.cfg.isProm (.io l) = false) (hk : s.cfg.spKey (.io l) = some k) : s.storeIo rd ea =
      .next (((s.setSp (Cells.write s.sp k (s.reg rd))).record (.write ea l (s.reg rd))).setPc (s.pc + 1)) :=
  State.storeIo_next.2 ⟨_, State.writeIo_ok.2 ⟨l, hl, hprom, .inr ⟨k, hk, rfl⟩⟩,
    State.advance_next.2 ⟨hfalls, rfl⟩⟩

/-! ### Scratchpad reads after a write to a storage cell -/

theorem State.spByte_of_located {a : Nat} (hl : s.cfg.locateSp a = some l) : s.spByte a = s.held (.sp l) := by
  rw [State.spByte, hl, Option.bind_some]

/-- A location whose cell is written holds the byte written, unless another master shares the storage (R82). -/
theorem State.held_write_same (hprom : s.cfg.isProm (.sp l) = false) (hshared : s.cfg.isShared (.sp l) = false)
    (v : Byte) : (s.setSp (Cells.write s.sp (s.cfg.spCell l) v)).held (.sp l) = some v := by
  rw [State.held_write hshared hprom, if_pos (Config.spKey_sp l)]

/-- An address of the written cell gives the byte written, under the same conditions. -/
theorem State.spByte_write_same {a : Nat} (hl : s.cfg.locateSp a = some l)
    (hprom : s.cfg.isProm (.sp l) = false) (hshared : s.cfg.isShared (.sp l) = false) (v : Byte) :
    (s.setSp (Cells.write s.sp (s.cfg.spCell l) v)).spByte a = some v := by
  rw [← State.held_write_same hprom hshared v]
  exact State.spByte_of_located hl

/-- An address whose byte is kept elsewhere, or nowhere, reads as before. -/
theorem State.spByte_write_other {a k : Nat} (h : ∀ l, s.cfg.locateSp a = some l → s.cfg.spCell l ≠ k)
    (v : Byte) : (s.setSp (Cells.write s.sp k v)).spByte a = s.spByte a := by
  refine Option.bind_congr fun l hl => State.held_write_other ?_ v
  rw [Config.spKey_sp, Ne, Option.some.injEq]
  exact h l hl

theorem keepsOtherBytes_write (k : Nat) (v : Byte) :
    KeepsOtherBytes s (s.setSp (Cells.write s.sp k v)) k := by
  intro a l hl hne
  refine State.spByte_write_other (fun m hm => ?_) v
  obtain rfl : l = m := Option.some.inj (hl.symm.trans hm)
  exact hne

/-- Settles O32: with the default map every address is its own cell. -/
theorem storeLeavesOtherAddresses : Obligations.StoreLeavesOtherAddresses := by
  intro s t rd rb hoffset halias h
  have hlocate : ∀ {a l}, s.cfg.locateSp a = some l → l = a := by
    intro a l hl
    simp only [Config.locateSp, hoffset, Locator.locate] at hl
    split at hl
    · exact (Option.some.inj hl).symm
    · cases hl
  have hcell : ∀ l, s.cfg.spCell l = l := by
    intro l
    simp [Config.spCell, Config.spKey, Config.names_of_no_aliases halias]
  obtain ⟨u, hu, h⟩ := State.storeSp_next.1 h
  obtain ⟨l, hl, hprom, rfl⟩ := State.writeSp_ok.1 hu
  obtain ⟨-, rfl⟩ := State.advance_next.1 h
  obtain rfl := hlocate hl
  rw [State.setPc_spByte]
  refine ⟨fun hshared => State.spByte_write_same hl hprom hshared _, fun a ha => ?_⟩
  refine State.spByte_write_other (fun m hm => ?_) _
  rw [hcell, hcell, hlocate hm]
  exact ha

end Sys2Proof.Machine
end

section
/-! PROOF. A stored byte loaded back, and bytes with more than one name (spec/20_memory.md R72, R73, R77). -/

namespace Sys2Proof

variable {g : Config}

/-! ### What a location is depends on its names alone (R77) -/

theorem Config.spKey_congr {x y : Loc} (h : g.names x = g.names y) : g.spKey x = g.spKey y := by
  rw [Config.spKey, h, Config.spKey]

theorem Config.isShared_congr {x y : Loc} (h : g.names x = g.names y) : g.isShared x = g.isShared y := by
  rw [Config.isShared, h, Config.isShared]

theorem Config.promName_congr {x y : Loc} (h : g.names x = g.names y) : g.promName x = g.promName y := by
  rw [Config.promName, h, Config.promName]

/-- The names of an entry of `ALIAS` all have the same names (R77). -/
theorem Config.names_eq_of_mem (h : g.legal = true) {ls : List Loc} (hls : ls ∈ g.aliases) {x y : Loc}
    (hx : x ∈ ls) (hy : y ∈ ls) : g.names x = g.names y := by
  have hnodup := (Config.legal_aliases h).2.1
  rw [Config.names_of_mem hnodup hls hx, Config.names_of_mem hnodup hls hy]

/-- A location of an entry without PROM names is no PROM byte. -/
theorem Config.isProm_of_no_prom_name (h : g.legal = true) {ls : List Loc} (hls : ls ∈ g.aliases)
    (hprom : ∀ a k, .prom a k ∉ ls) {x : Loc} (hx : x ∈ ls) : g.isProm x = false := by
  rw [Config.isProm, Config.names_of_mem (Config.legal_aliases h).2.1 hls hx, List.any_eq_false]
  intro y hy
  cases y with
  | sp l => exact Bool.false_ne_true
  | io l => exact Bool.false_ne_true
  | prom a k => exact absurd hy (hprom a k)

/-- Where one entry at most meets a condition, two that meet it are the same. -/
theorem eq_of_countP_le_one {α : Type} {p : α → Bool} {l : List α} (h : l.countP p ≤ 1) {a b : α}
    (ha : a ∈ l) (hpa : p a = true) (hb : b ∈ l) (hpb : p b = true) : a = b := by
  have ha' : a ∈ l.filter p := List.mem_filter.2 ⟨ha, hpa⟩
  have hb' : b ∈ l.filter p := List.mem_filter.2 ⟨hb, hpb⟩
  rw [List.countP_eq_length_filter] at h
  match l.filter p, h, ha', hb' with
  | [c], _, ha, hb => rw [List.mem_singleton.1 ha, List.mem_singleton.1 hb]

/-- An entry has one PROM name at most, so it is the PROM byte of every location of the entry (R77). -/
theorem Config.promName_of_mem (h : g.legal = true) {ls : List Loc} (hls : ls ∈ g.aliases) {a k : Nat}
    (hprom : .prom a k ∈ ls) {x : Loc} (hx : x ∈ ls) : g.promName x = some (a, k) := by
  obtain ⟨-, hnodup, hcount⟩ := Config.legal_aliases h
  have hnames := Config.names_of_mem hnodup hls hx
  have hone : ls.countP Loc.isPromName ≤ 1 := (hcount ls hls).trans (by split <;> omega)
  have hisProm : g.isProm x = true := by
    rw [Config.isProm, hnames]
    exact List.any_eq_true.2 ⟨_, hprom, rfl⟩
  obtain ⟨p, hp⟩ := Option.ne_none_iff_exists'.1 fun hnone =>
    Bool.false_ne_true ((Config.promName_none.1 hnone).symm.trans hisProm)
  obtain ⟨y, hy, hyp⟩ := List.exists_of_findSome?_eq_some hp
  rw [hnames] at hy
  cases y with
  | sp l => cases hyp
  | io l => cases hyp
  | prom b j =>
    obtain ⟨rfl, rfl⟩ := Loc.prom.inj (eq_of_countP_le_one hone hy rfl hprom rfl)
    rw [hp, ← hyp]

/-- The part of `Config.legal` that speaks of `PROM_BYTE_ORDER` (R70). -/
theorem Config.legal_promByteOrder (h : g.legal = true) :
    (∀ p ∈ g.promByteOrder, p.1 < 3 ∧ p.2 < 8) ∧ g.promByteOrder.Nodup := by
  simp only [Config.legal, Bool.and_eq_true, decide_eq_true_eq, List.all_eq_true] at h
  obtain ⟨⟨⟨⟨⟨⟨-, -, hplaces⟩, hnodup⟩, -⟩, -⟩, -⟩, -⟩ := h
  exact ⟨hplaces, hnodup⟩

end Sys2Proof

namespace Sys2Proof.Machine

open Sys2Proof.Claims

variable {s t u : State}

theorem State.held_congr_names {x y : Loc} (h : s.cfg.names x = s.cfg.names y) : s.held x = s.held y := by
  rw [State.held, State.held, Config.isShared_congr h, Config.promName_congr h, Config.spKey_congr h]

/-! ### Store, then load -/

theorem execs_pair {i j : Instr} (hi : exec i s = .next t) (hj : exec j t = .next u) :
    execs [i, j] s = .next u := by
  simp only [execs, hi, hj]

/-- A register after a load: the byte loaded in the registers of the destination, what was there in the others. -/
theorem aluNext_reg (rd q : RegIdx) (v : Byte) (c z : Bool) :
    (aluNext s rd v c z).reg q = if s.cfg.phys rd = s.cfg.phys q then v else s.reg q :=
  State.reg_setReg s rd q v

/-- Settles O33: the store changes no register, so the load forms the same address, which holds the byte. -/
theorem storeThenLoadReturnsByte : Obligations.StoreThenLoadReturnsByte := by
  intro s ra rb rd l hpc hl hprom hshared
  have hstore : exec (.sspi ra rb) s = .next _ := State.storeSp_inside (by unfold Falls; omega) hl hprom
  have hheld := State.held_write_same hprom hshared (s.reg ra)
  set m := s.setSp (Cells.write s.sp (s.cfg.spCell l) (s.reg ra))
  have hload : exec (.lspi rd rb) (m.setPc (s.pc + 1)) = .next _ := State.loadSp_held hpc hl hheld
  refine ⟨_, execs_pair hstore hload, ?_, fun r hr => ?_, rfl, rfl⟩
  · rw [aluNext_reg, if_pos rfl]
  · rw [aluNext_reg]
    exact if_neg (Ne.symm hr)

/-! ### A port that is a scratchpad byte -/

/-- A port write to a location with a scratchpad name stores the byte where a read of that name finds it (R77). -/
theorem storeIo_aliased {rd : RegIdx} {ea k l a : Nat} (hfalls : Falls s)
    (hnames : s.cfg.names (.io l) = s.cfg.names (.sp k)) (hio : s.cfg.isProm (.io l) = false)
    (ha : s.cfg.locateSp a = some k) (hl : s.cfg.locateIo ea = some l) :
    ∃ t, s.storeIo rd ea = .next t ∧
      (s.cfg.isShared (.sp k) = false → t.spByte a = some (s.reg rd)) ∧
      KeepsOtherBytes s t (s.cfg.spCell k) ∧
      t = { s with sp := t.sp, events := s.events ++ [.write ea l (s.reg rd)], pc := s.pc + 1 } := by
  have hkey : s.cfg.spKey (.io l) = some (s.cfg.spCell k) :=
    (Config.spKey_congr hnames).trans (Config.spKey_sp k)
  have hsp : s.cfg.isProm (.sp k) = false := by rwa [Config.isProm, ← hnames]
  exact ⟨_, State.storeIo_kept hfalls hl hio hkey, fun hshared => State.spByte_write_same ha hsp hshared _,
    keepsOtherBytes_write _ _, rfl⟩

/-- A port read of a location with a scratchpad name gives what a read of that name gives (R77). -/
theorem loadIo_aliased {rd : RegIdx} {ea k l a : Nat} {v : Byte} (hfalls : Falls s)
    (hnames : s.cfg.names (.io l) = s.cfg.names (.sp k)) (ha : s.cfg.locateSp a = some k)
    (hl : s.cfg.locateIo ea = some l) (hv : s.spByte a = some v) : s.loadIo rd ea =
      .next { aluNext s rd v s.c s.z with events := s.events ++ [.read ea l] } := by
  refine State.loadIo_held hfalls hl ?_
  rw [State.held_congr_names hnames, ← State.spByte_of_located ha, hv]

/-- Settles O36. -/
theorem aliasedPortsReachTheByte : Obligations.AliasedPortsReachTheByte := by
  intro s ls k l a rd rb f v hfalls hlegal hls hk hl hprom ha
  have hnames := Config.names_eq_of_mem hlegal hls hl hk
  have hio := Config.isProm_of_no_prom_name hlegal hls hprom hl
  exact ⟨fun h => ⟨storeIo_aliased hfalls hnames hio ha h, loadIo_aliased hfalls hnames ha h⟩,
    fun h => ⟨storeIo_aliased hfalls hnames hio ha h, loadIo_aliased hfalls hnames ha h⟩⟩

/-! ### A location that is a PROM byte -/

/-- A location of an entry with a PROM name holds that byte of the PROM word (R77). -/
theorem State.held_of_prom_name (h : s.cfg.legal = true) {ls : List Loc} (hls : ls ∈ s.cfg.aliases)
    {a k : Nat} (hprom : .prom a k ∈ ls) {w : Word} (hw : Cells.read s.prom a = some w)
    (hshared : s.cfg.isShared (.prom a k) = false) {x : Loc} (hx : x ∈ ls) :
    s.held x = some (s.cfg.promByte a k w) := by
  have hx' : s.cfg.isShared x = false :=
    (Config.isShared_congr (Config.names_eq_of_mem h hls hx hprom)).trans hshared
  simp [State.held, hx', Config.promName_of_mem h hls hprom hx, hw]

/-- Settles O37: the byte is that of `PROM_BYTE_ORDER`, and every name of the location holds it. -/
theorem overlappedPromByteIsPartOfItsWord : Obligations.OverlappedPromByteIsPartOfItsWord := by
  intro s ls l a k w rd rb f hfalls hlegal hls hprom hw hshared
  obtain ⟨hplaces, hnodup⟩ := Config.legal_promByteOrder hlegal
  have hheld := fun {x} => State.held_of_prom_name (x := x) hlegal hls hprom hw hshared
  refine ⟨s.cfg.promByte a k w, fun i j hij => ?_, fun hsp => ?_, fun hio => ?_⟩
  · exact Config.promByte_getLsbD hnodup (hplaces _ (List.mem_of_getElem? hij)).2 hij a w
  · exact ⟨fun h => State.loadSp_held hfalls h (hheld hsp), fun h => State.loadSp_held hfalls h (hheld hsp)⟩
  · exact ⟨fun h => State.loadIo_held hfalls h (hheld hio), fun h => State.loadIo_held hfalls h (hheld hio)⟩

end Sys2Proof.Machine
end

section
/-! PROOF. Which instructions change the stored bytes and which record a peripheral access (spec/20_memory.md R60,
R75 to R77). -/

namespace Sys2Proof.Machine

open Sys2Proof.Claims

variable {s t u : State} {i : Instr}

/-! ### The shared operations -/

theorem State.goto_keeps {d : Int} (h : s.goto d = .next t) : t.sp = s.sp ∧ t.events = s.events := by
  obtain ⟨-, -, rfl⟩ := State.goto_next.1 h
  exact ⟨rfl, rfl⟩

theorem State.advance_keeps (h : s.advance = .next t) : t.sp = s.sp ∧ t.events = s.events :=
  State.goto_keeps h

theorem State.branch_keeps {taken : Bool} {d : Int} (h : s.branch taken d = .next t) :
    t.sp = s.sp ∧ t.events = s.events := by
  rcases State.branch_next.1 h with ⟨-, h⟩ | ⟨-, h⟩
  · exact State.goto_keeps h
  · exact State.advance_keeps h

theorem State.call_keeps {taken : Bool} {d : Int} (h : s.call taken d = .next t) :
    t.sp = s.sp ∧ t.events = s.events := by
  rcases State.call_next.1 h with ⟨-, -, h⟩ | ⟨-, h⟩
  · exact (State.goto_keeps h :)
  · exact State.advance_keeps h

theorem State.returnFromCall_keeps (h : s.returnFromCall = .next t) : t.sp = s.sp ∧ t.events = s.events := by
  obtain ⟨f, k, -, -, rfl⟩ := State.returnFromCall_next.1 h
  exact ⟨rfl, rfl⟩

theorem State.returnFromInterrupt_keeps (h : s.returnFromInterrupt = .next t) :
    t.sp = s.sp ∧ t.events = s.events := by
  obtain ⟨f, k, -, -, rfl⟩ := State.returnFromInterrupt_next.1 h
  obtain ⟨e, r, hu, -⟩ := State.unblockEntry_writes (s := ((s.setStack k).setC f.c).setZ f.z)
  rw [hu]
  exact ⟨rfl, rfl⟩

theorem execRcsr_keeps {rd : RegIdx} {n : Nat} (h : execRcsr rd n s = .next t) :
    t.sp = s.sp ∧ t.events = s.events := by
  unfold execRcsr at h
  split at h
  · cases h
  · exact (State.advance_keeps h :)

theorem execWcsr_keeps {n : Nat} {rb : RegIdx} (h : execWcsr n rb s = .next t) :
    t.sp = s.sp ∧ t.events = s.events := by
  unfold execWcsr at h
  split at h
  · cases h
  · rename_i u hu
    rcases State.writeCsr_some.1 hu with ⟨-, rfl⟩ | ⟨-, rfl⟩ | ⟨-, rfl⟩ <;>
      exact (State.advance_keeps h :)

theorem State.loadSp_keeps {rd : RegIdx} {ea : Nat} (h : s.loadSp rd ea = .next t) :
    t.sp = s.sp ∧ t.events = s.events := by
  obtain ⟨v, u, hu, h⟩ := State.loadSp_next.1 h
  obtain ⟨l, n, rfl⟩ := State.readSp_writes hu
  exact (State.advance_keeps h :)

theorem State.storeSp_events {rd : RegIdx} {ea : Nat} (h : s.storeSp rd ea = .next t) :
    t.events = s.events := by
  obtain ⟨u, hu, h⟩ := State.storeSp_next.1 h
  obtain ⟨⟨m, rfl⟩, -⟩ := State.writeSp_writes hu
  obtain ⟨-, rfl⟩ := State.advance_next.1 h
  rfl

theorem State.loadIo_sp_events {rd : RegIdx} {ea : Nat} (h : s.loadIo rd ea = .next t) :
    t.sp = s.sp ∧ ∃ e, t.events = s.events ++ [e] := by
  obtain ⟨v, u, hu, h⟩ := State.loadIo_next.1 h
  obtain ⟨l, n, e, rfl⟩ := State.readIo_writes hu
  obtain ⟨-, rfl⟩ := State.advance_next.1 h
  exact ⟨rfl, e, rfl⟩

theorem State.storeIo_events {rd : RegIdx} {ea : Nat} (h : s.storeIo rd ea = .next t) :
    ∃ e, t.events = s.events ++ [e] := by
  obtain ⟨u, hu, h⟩ := State.storeIo_next.1 h
  obtain ⟨⟨m, e, rfl⟩, -⟩ := State.writeIo_writes hu
  obtain ⟨-, rfl⟩ := State.advance_next.1 h
  exact ⟨e, rfl⟩

/-! ### The instructions -/

/-- An instruction that is neither a store nor a peripheral instruction keeps the stored bytes and the recorded
accesses (R60, R240). -/
theorem exec_keeps_sp_events (hstore : mayStore i = false) (hio : accessesIo i = false)
    (h : exec i s = .next t) : t.sp = s.sp ∧ t.events = s.events := by
  cases i with
  | add | addc | addi | addic | sub | subc | subi | subic | rolc | rorc | and | andi | or | ori | xor | xori
  | rol | ror | cmp | cmpi | test | testi | clrz | setz | clrc | setc | mov | movi | clri | seti | nop =>
    exact (State.advance_keeps h :)
  | b => exact State.branch_keeps (taken := true) h
  | bc | bnc | bnz | bz => exact State.branch_keeps h
  | call => exact State.call_keeps (taken := true) h
  | callc | callnc | callnz | callz => exact State.call_keeps h
  | ret => exact State.returnFromCall_keeps h
  | iret => exact State.returnFromInterrupt_keeps h
  | rcsr => exact execRcsr_keeps h
  | wcsr => exact execWcsr_keeps h
  | lsp | lspi => exact State.loadSp_keeps h
  | ssp | sspi | exportD | exportI => cases hstore
  | importD | importI => cases hio

/-- An instruction that is no store leaves every stored byte alone. -/
theorem exec_keeps_sp (hstore : mayStore i = false) (h : exec i s = .next t) : t.sp = s.sp := by
  cases hio : accessesIo i with
  | false => exact (exec_keeps_sp_events hstore hio h).1
  | true =>
    cases i with
    | importD | importI => exact (State.loadIo_sp_events h).1
    | exportD | exportI => cases hstore
    | _ => cases hio

/-- A peripheral instruction records one access. -/
theorem exec_records (hio : accessesIo i = true) (h : exec i s = .next t) :
    ∃ e, t.events = s.events ++ [e] := by
  cases i with
  | importD | importI => exact (State.loadIo_sp_events h).2
  | exportD | exportI => exact State.storeIo_events h
  | _ => cases hio

/-- An instruction that is no peripheral instruction records nothing. -/
theorem exec_keeps_events (hio : accessesIo i = false) (h : exec i s = .next t) : t.events = s.events := by
  cases hstore : mayStore i with
  | false => exact (exec_keeps_sp_events hstore hio h).2
  | true =>
    cases i with
    | ssp | sspi => exact State.storeSp_events h
    | exportD | exportI => cases hio
    | _ => cases hstore

/-- Settles O51: what a scratchpad address gives depends on the configuration, the PROM and the stored bytes. -/
theorem nonStoresKeepMemoryAndProm : Obligations.NonStoresKeepMemoryAndProm := by
  refine ⟨fun i s t h hstore => ?_, fun s t htake hstep => ?_, fun s t hstep => ?_⟩
  · have he := exec_effect h
    exact (State.held_congr he.cfg he.prom (exec_keeps_sp hstore h)).2
  · obtain ⟨-, e, r, -, rfl⟩ := step_entry htake hstep
    exact (State.held_congr rfl rfl rfl).2
  · rcases step_next.1 hstep with ⟨htake, -⟩ | ⟨-, w, i, -, -, h⟩
    · obtain ⟨-, e, r, -, rfl⟩ := step_entry htake hstep
      exact ⟨rfl, rfl⟩
    · have he := exec_effect h
      exact ⟨he.prom, he.cfg⟩

/-- Settles O52. -/
theorem eventsGrowOneAccessAtATime : Obligations.EventsGrowOneAccessAtATime := by
  refine ⟨fun i s t h => ⟨fun hio => exec_records hio h, fun hio => exec_keeps_events hio h⟩,
    fun s t htake hstep => ?_⟩
  obtain ⟨-, e, r, -, rfl⟩ := step_entry htake hstep
  rfl

end Sys2Proof.Machine
end

section
/-! PROOF. The opcode map read both ways: what a word decodes to and how an instruction is spelled
(spec/30_encoding.md). -/

namespace Sys2Proof

open Laws

variable {e : Enc} {r : EncRow} {w : Word} {i : Instr} {n : RegCount}

/-! ### Operand fields -/

/-- The field of a word as a bit vector of its own width. -/
theorem fieldAt_setWidth (w : Word) (lo n : Nat) :
    (fieldAt w lo n).setWidth n = w.extractLsb' lo n := by
  refine BitVec.eq_of_getLsbD_eq fun i hi => ?_
  rw [BitVec.getLsbD_setWidth, fieldAt_getLsbD, BitVec.getLsbD_extractLsb']
  simp [hi]

/-- The family `OperandFields` covers every instruction. -/
theorem operandFields (i : Instr) : OperandFields.Statement i := by
  cases i with
  | add rd rb => exact OperandFields.add rd rb
  | addc rd rb => exact OperandFields.addc rd rb
  | addi rd c => exact OperandFields.addi rd c
  | addic rd c => exact OperandFields.addic rd c
  | and rd rb => exact OperandFields.and rd rb
  | sub rd rb => exact OperandFields.sub rd rb
  | subc rd rb => exact OperandFields.subc rd rb
  | subi rd c => exact OperandFields.subi rd c
  | subic rd c => exact OperandFields.subic rd c
  | cmp rd rb => exact OperandFields.cmp rd rb
  | cmpi rd c => exact OperandFields.cmpi rd c
  | andi rd c => exact OperandFields.andi rd c
  | or rd rb => exact OperandFields.or rd rb
  | ori rd c => exact OperandFields.ori rd c
  | xor rd rb => exact OperandFields.xor rd rb
  | xori rd c => exact OperandFields.xori rd c
  | test rd rb => exact OperandFields.test rd rb
  | testi rd c => exact OperandFields.testi rd c
  | mov rd rb => exact OperandFields.mov rd rb
  | movi rd c => exact OperandFields.movi rd c
  | nop => exact OperandFields.nop
  | rol rd rb => exact OperandFields.rol rd rb
  | rolc rd rb => exact OperandFields.rolc rd rb
  | ror rd rb => exact OperandFields.ror rd rb
  | rorc rd rb => exact OperandFields.rorc rd rb
  | clrc => exact OperandFields.clrc
  | setc => exact OperandFields.setc
  | clrz => exact OperandFields.clrz
  | setz => exact OperandFields.setz
  | clri => exact OperandFields.clri
  | seti => exact OperandFields.seti
  | rcsr rd k => exact OperandFields.rcsr rd k
  | wcsr k rb => exact OperandFields.wcsr k rb
  | b d => exact OperandFields.b d
  | bc d => exact OperandFields.bc d
  | bnc d => exact OperandFields.bnc d
  | bnz d => exact OperandFields.bnz d
  | bz d => exact OperandFields.bz d
  | call d => exact OperandFields.call d
  | callc d => exact OperandFields.callc d
  | callnc d => exact OperandFields.callnc d
  | callnz d => exact OperandFields.callnz d
  | callz d => exact OperandFields.callz d
  | ret => exact OperandFields.ret
  | iret => exact OperandFields.iret
  | lsp rd f => exact OperandFields.lsp rd f
  | lspi rd rb => exact OperandFields.lspi rd rb
  | ssp rd f => exact OperandFields.ssp rd f
  | sspi rd rb => exact OperandFields.sspi rd rb
  | importD rd f => exact OperandFields.importD rd f
  | importI rd rb => exact OperandFields.importI rd rb
  | exportD rd f => exact OperandFields.exportD rd f
  | exportI rd rb => exact OperandFields.exportI rd rb

/-- The displacement a label field holds is one of its width (R106). -/
theorem labelFits_toInt {k : Nat} (hk : 1 ≤ k) (x : BitVec k) : labelFits k x.toInt = true := by
  have hlo := BitVec.le_two_mul_toInt (x := x)
  have hhi := BitVec.two_mul_toInt_lt (x := x)
  have hpow : (2 : Int) ^ k = 2 * 2 ^ (k - 1) := by
    rw [← pow_succ', Nat.sub_add_cancel hk]
  exact decide_eq_true (by omega)

/-- The instruction spelled by fields that keep their widths is well-formed. -/
theorem Instr.ofFields_wellFormed {a b : Word} (o : Op) (hlabel : 1 ≤ e.labelW)
    (ha : a.toNat < 2 ^ e.width o.kinds.1) (hb : b.toNat < 2 ^ e.width o.kinds.2) :
    (Instr.ofFields e o a b).WellFormed e = true := by
  cases o with
  | b | bc | bnc | bnz | bz | call | callc | callnc | callnz | callz => exact labelFits_toInt hlabel _
  | lsp | ssp | importD | exportD =>
    refine decide_eq_true (Nat.lt_of_le_of_lt ?_ hb)
    rw [BitVec.toNat_setWidth]
    exact Nat.mod_le _ _
  | rcsr => exact decide_eq_true hb
  | wcsr => exact decide_eq_true ha
  | _ => rfl

theorem Instr.op_ofFields (o : Op) (a b : Word) : (Instr.ofFields e o a b).op = o := by
  cases o <;> rfl

theorem EncRow.read_op : (r.read e w).op = r.op := Instr.op_ofFields _ _ _

/-- What a row reads from a word is well-formed. -/
theorem EncRow.read_wellFormed (h : e.wf = true) : (r.read e w).WellFormed e = true := by
  obtain ⟨⟨hlabel, -⟩, -⟩ := Enc.wf_iff.1 h
  exact Instr.ofFields_wellFormed _ hlabel (fieldAt_lt _ _ _) (fieldAt_lt _ _ _)

/-- The instruction of NOP's row is NOP. -/
theorem EncRow.read_of_nop (ho : r.op = .nop) : r.read e w = .nop := by
  rw [EncRow.read, ho]; rfl

/-! ### The rows of an admissible map -/

/-- A map that meets R110 has a row for each instruction, which is the one the encoder finds. -/
theorem Enc.exists_row (h : e.wf = true) (o : Op) :
    ∃ r ∈ e.table, r.op = o ∧ e.table.find? (fun r => r.op == o) = some r := by
  obtain ⟨-, -, -, hone, -⟩ := Enc.wf_iff.1 h
  obtain ⟨r, hr⟩ := List.length_eq_one_iff.1 (hone o (Op.mem_all o))
  have hfind : e.table.find? (fun r => r.op == o) = some r := by rw [← List.head?_filter, hr]; rfl
  have hop : (r.op == o) = true := List.find?_some (p := fun r : EncRow => r.op == o) hfind
  exact ⟨r, List.mem_of_find?_eq_some hfind, beq_iff_eq.1 hop, hfind⟩

/-- The CSR field of RCSR's row lies inside the word (R108). -/
theorem Enc.csrW_le (h : e.wf = true) : e.csrW ≤ 18 := by
  obtain ⟨-, -, -, -, hrows, -⟩ := Enc.wf_iff.1 h
  obtain ⟨r, hr, hop, -⟩ := Enc.exists_row h .rcsr
  obtain ⟨-, -, hfield, -⟩ := EncRow.wf_bits (hrows r hr)
  rw [hop] at hfield
  exact Nat.le_trans (Nat.le_add_left _ _) hfield

/-- At most one row claims a word that is not NOP's. -/
theorem Enc.claiming_length_le (h : e.wf = true) (hw : e.spellsNop w = false) :
    (e.table.filter (·.claims w)).length ≤ 1 := by
  obtain ⟨-, -, -, -, -, hapart⟩ := Enc.wf_iff.1 h
  refine rowsApart_filter hapart fun r hr hc => ?_
  have := List.any_eq_false.1 hw r hr
  simpa [hc] using this

/-- What R110's exception says of NOP's words: another row that claims one reads an instruction that changes
nothing but the pc. -/
theorem Enc.changesOnlyPc_of_spellsNop (hn : e.nopHarmless n = true) (hw : e.spellsNop w = true)
    (hr : r ∈ e.table) (hc : r.claims w = true) : (r.read e w).changesOnlyPc n = true := by
  obtain ⟨p, hp, hpw⟩ := List.any_eq_true.1 hw
  obtain ⟨hpnop, hpc⟩ := Bool.and_eq_true_iff.1 hpw
  simp only [Enc.nopHarmless, List.all_eq_true, Bool.or_eq_true, bne, Bool.not_eq_true'] at hn
  rcases hn p hp with hother | hharmless
  · rw [hpnop] at hother; cases hother
  · rcases hharmless r hr with (hnop | hapart) | hcommon
    · rw [EncRow.read_of_nop (beq_iff_eq.1 hnop)]; rfl
    · rw [EncRow.apart_claims hapart hpc] at hc; cases hc
    · exact hcommon w (EncRow.mem_common hpc hc)

/-! ### Decoding a word -/

theorem decode_of_spellsNop (hw : e.spellsNop w = true) : decode e w = .ok .nop := by
  simp [decode, hw]

/-- Under a map that meets R110 the ambiguity of R111 (2) does not arise. -/
theorem decode_ne_ambiguous (h : e.wf = true) : decode e w ≠ .error .ambiguous := by
  cases hw : e.spellsNop w with
  | true => simp [decode_of_spellsNop hw]
  | false =>
    have hlen := Enc.claiming_length_le h hw
    match hrows : e.table.filter (·.claims w) with
    | [] => simp [decode, hw, hrows]
    | [r] => simp [decode, hw, hrows]
    | r :: q :: rs => rw [hrows] at hlen; simp at hlen

theorem wellFormed_of_decode (h : e.wf = true) (hd : decode e w = .ok i) : i.WellFormed e = true := by
  rcases decode_ok hd with ⟨-, rfl⟩ | ⟨-, r, -, -, rfl⟩
  · rfl
  · exact EncRow.read_wellFormed h

/-- A word that decodes to an instruction other than NOP is claimed by the instruction's row. -/
theorem claims_of_decode (h : e.wf = true) (hr : r ∈ e.table) (hop : i.op = r.op) (hnop : i.op ≠ .nop)
    (hd : decode e w = .ok i) : r.claims w = true := by
  rcases decode_ok hd with ⟨-, rfl⟩ | ⟨-, q, hq, hc, rfl⟩
  · exact absurd rfl hnop
  · rw [Enc.row_unique h hr hq (by rw [← hop, EncRow.read_op])]
    exact hc

/-- Settles O56. -/
theorem decodingIsUnambiguousAndWellFormed : Obligations.DecodingIsUnambiguousAndWellFormed :=
  fun _ _ h => ⟨decode_ne_ambiguous h, fun _ => wellFormed_of_decode h⟩

/-! ### The round trip -/

/-- A well-formed instruction is read back from the word its row places it in, and the row claims that
word. -/
theorem EncRow.read_place (h : e.wf = true) (hr : r ∈ e.table) (hop : r.op = i.op)
    (hi : i.WellFormed e = true) :
    r.claims (r.place (i.field1 e) i.field2) = true ∧
      r.read e (r.place (i.field1 e) i.field2) = i := by
  obtain ⟨⟨hlabel, hlabel'⟩, -, -, -, hrows, -⟩ := Enc.wf_iff.1 h
  obtain ⟨hback, hfit1, hfit2⟩ := operandFields i e hlabel (by omega) (Enc.csrW_le h) hi
  rw [← hop] at hback hfit1 hfit2
  have hlt1 := lt_of_and_lowMask hfit1
  have hlt2 := lt_of_and_lowMask hfit2
  refine ⟨EncRow.claims_place (hrows r hr) hlt1 hlt2, ?_⟩
  rw [EncRow.read, EncRow.field1_place (hrows r hr) hlt1 hlt2,
    EncRow.field2_place (hrows r hr) hlt1 hlt2, hback]

/-- Settles O55: the instruction's row claims the word it places and reads the instruction back, so the word
decodes to it unless NOP's pattern, tried first, claims the word too. -/
theorem decodeOfEncodeIsTheInstruction : Obligations.DecodeOfEncodeIsTheInstruction := by
  intro e i h hi
  obtain ⟨r, hr, hop, hfind⟩ := Enc.exists_row h i.op
  obtain ⟨hclaims, hread⟩ := EncRow.read_place h hr hop hi
  refine ⟨r.place (i.field1 e) i.field2, by rw [encode, hfind]; rfl, ?_, fun n hn hw => ?_⟩
  · cases hw : e.spellsNop (r.place (i.field1 e) i.field2) with
    | true => exact decode_of_spellsNop hw
    | false => rw [decode_of_claims h hw hr hclaims, hread]; rfl
  · have hpc := Enc.changesOnlyPc_of_spellsNop hn hw hr hclaims
    rwa [hread] at hpc

/-! ### The five encodings of the source -/

/-- None of the five changes only the pc, so R110 leaves NOP none of their words. -/
theorem sourceRow_changesMore (hr : r ∈ sourceRows) : (r.read e w).changesOnlyPc n = false := by
  simp only [sourceRows, List.mem_cons, List.not_mem_nil, or_false] at hr
  rcases hr with rfl | rfl | rfl | rfl | rfl <;> rfl

/-- A word with the fixed bits of one of the five decodes to that instruction. -/
theorem decode_of_sourceRow_claims (h : e.wf = true) (hn : e.nopHarmless n = true)
    (hr : r ∈ sourceRows) (hc : r.claims w = true) : decode e w = .ok (r.read e w) := by
  have hmem : r ∈ e.table := List.mem_append_left _ hr
  refine decode_of_claims h ?_ hmem hc
  by_contra hw
  have hpc := Enc.changesOnlyPc_of_spellsNop hn (by simpa using hw) hmem hc
  rw [sourceRow_changesMore hr] at hpc
  cases hpc

/-- The row of each of the five says exactly which words are the instruction (R109). `mk` is its constructor and
`x`, `y` are the operands its row reads. -/
theorem sourceRow_decodes {α β : Type} {mk : α → β → Instr} {x : α} {y : β} (h : e.wf = true)
    (hn : e.nopHarmless n = true) (hr : r ∈ sourceRows) (hread : r.read e w = mk x y)
    (hop : ∀ a b, (mk a b).op = r.op) :
    (w &&& r.mask = r.pat → decode e w = .ok (mk x y)) ∧
      ((∃ a b, decode e w = .ok (mk a b)) → w &&& r.mask = r.pat) := by
  have hnop : r.op ≠ .nop := fun ho => by
    have hmore := sourceRow_changesMore (e := e) (w := w) (n := n) hr
    rw [EncRow.read_of_nop ho] at hmore
    cases hmore
  constructor
  · intro hbits
    rw [← hread]
    exact decode_of_sourceRow_claims h hn hr (beq_iff_eq.2 hbits)
  · rintro ⟨a, b, hd⟩
    have hc := claims_of_decode h (List.mem_append_left _ hr) (hop a b) (hop a b ▸ hnop) hd
    exact beq_iff_eq.1 hc

/-- Settles O54: each conjunct is one row of `sourceRows`. -/
theorem sourceEncodingsDecode : Obligations.SourceEncodingsDecode := by
  intro e n w h hn
  have reg {lo} : (fieldAt w lo 5).setWidth 5 = w.extractLsb' lo 5 := fieldAt_setWidth w lo 5
  have const : (fieldAt w 0 8).setWidth 8 = w.extractLsb' 0 8 := fieldAt_setWidth w 0 8
  have row (k : Nat) (hk : k < sourceRows.length) := List.getElem_mem hk
  exact ⟨sourceRow_decodes h hn (row 0 (by decide)) (congrArg₂ Instr.add reg reg) fun _ _ => rfl,
    sourceRow_decodes h hn (row 1 (by decide)) (congrArg₂ Instr.addc reg reg) fun _ _ => rfl,
    sourceRow_decodes h hn (row 2 (by decide)) (congrArg₂ Instr.addi reg const) fun _ _ => rfl,
    sourceRow_decodes h hn (row 3 (by decide)) (congrArg₂ Instr.addic reg const) fun _ _ => rfl,
    sourceRow_decodes h hn (row 4 (by decide)) (congrArg₂ Instr.and reg reg) fun _ _ => rfl⟩

/-! ### The candidate map -/

/-- What changes nothing but the pc with 32 registers does so with 16, where more fields name one register
(R21). -/
theorem Instr.changesOnlyPc_r16 (h : i.changesOnlyPc .r32 = true) : i.changesOnlyPc .r16 = true := by
  cases i with
  | mov rd rb =>
    have heq : rd = rb := beq_iff_eq.1 h
    rw [heq]
    exact beq_self_eq_true (rb.toNat % 16)
  | _ => exact h

/-- A map that meets R110's condition on NOP with 32 registers meets it with 16. -/
theorem Enc.nopHarmless_r16 (h : e.nopHarmless .r32 = true) : e.nopHarmless .r16 = true := by
  simp only [Enc.nopHarmless, List.all_eq_true, Bool.or_eq_true] at h ⊢
  exact fun p hp => (h p hp).imp_right fun hall q hq =>
    (hall q hq).imp_right fun hcommon w hw => Instr.changesOnlyPc_r16 (hcommon w hw)

/-- Settles O57: the preset of the instance after reset is admissible, and its map is the candidate. -/
theorem candidateMapIsAdmissible : Obligations.CandidateMapIsAdmissible := by
  obtain ⟨hlegal, hnop⟩ := Bool.and_eq_true_iff.1 Machine.preset_wf
  obtain ⟨-, henc⟩ := Bool.and_eq_true_iff.1 hlegal
  exact ⟨henc, hnop, Enc.nopHarmless_r16 hnop, by decide⟩

end Sys2Proof

namespace Sys2Proof.Machine

/-! ### Fetching a word that is no instruction -/

theorem State.fetch_unprogrammed {s : State} (hpc : s.pc < s.cfg.promSize)
    (hread : Cells.read s.prom s.pc = none) : s.fetch = .error (.unprogrammedWord s.pc) := by
  simp [State.fetch, hpc, hread]

/-- Settles O44: sampling leaves the fetch as it is, which faults or gives the word that does not decode. -/
theorem undefinedWordFaults : Obligations.UndefinedWordFaults := by
  intro s w e htake hpc
  constructor
  · intro hread hdec
    have hfetch : s.sample.fetch = .ok w := State.sample_fetch_of_read hpc hread
    simp [step, htake, hfetch, hdec]
  · intro hread
    have hfetch : s.sample.fetch = .error (.unprogrammedWord s.pc) :=
      State.fetch_unprogrammed (s := s.sample) hpc hread
    simp [step, htake, hfetch]

end Sys2Proof.Machine
end

section
/-! PROOF. Additions, subtractions and comparisons, and 16-bit chains of them (spec/40_arithmetic.md). -/

namespace Sys2Proof.Machine

open Sys2Proof.Claims

variable {s : State}

/-! ### The flag and subtraction laws -/

/-- The zero flag of a result, as the statements write it (R130). -/
theorem zeroOf_eq_decide (r : Byte) : zeroOf r = decide (r = 0) := rfl

theorem zeroOf_ofNat (n : Nat) : zeroOf (BitVec.ofNat 8 n) = decide (n % 256 = 0) := by
  rw [zeroOf_eq_decide, decide_eq_decide, ← BitVec.toNat_inj, BitVec.toNat_ofNat]
  rfl

/-- The integer difference modulo 256 is the difference of the bytes (R131). -/
theorem sub8_r (a b : Byte) (bin : Bool) : (sub8 a b bin).r = a - b - (BitVec.ofBool bin).setWidth 8 := by
  have hbin := Bool.toNat_lt bin
  rw [← BitVec.toNat_inj]
  simp only [sub8, BitVec.toNat_ofInt, BitVec.toNat_sub, BitVec.toNat_setWidth, BitVec.toNat_ofBool]
  omega

/-- The borrow: the minuend is below what is taken from it (R131). -/
theorem sub8_carry (a b : Byte) (bin : Bool) :
    (sub8 a b bin).carry = decide (a.toNat < b.toNat + bin.toNat) := by
  rw [sub8, decide_eq_decide]
  omega

theorem carryOfBorrow_eq (borrow : Bool) : carryOfBorrow s.cfg.subCarry borrow = carryAfterSub s borrow := by
  cases h : s.cfg.subCarry <;> simp [carryOfBorrow, carryAfterSub, h]

/-- Under `borrow`, C after a subtraction is the borrow (R131, D5). -/
theorem diffNext_of_borrow (h : s.cfg.subCarry = .borrow) (rd : RegIdx) (b : Byte) (bin : Bool) :
    diffNext s rd b bin = aluNext s rd (s.reg rd - b - (BitVec.ofBool bin).setWidth 8)
      (decide ((s.reg rd).toNat < b.toNat + bin.toNat))
      (decide (s.reg rd - b - (BitVec.ofBool bin).setWidth 8 = 0)) := by
  simp [diffNext, carryAfterSub, h]

/-! ### The shared shapes complete inside the PROM -/

/-- An addition (R130). -/
theorem State.addTo_inside (hfalls : Falls s) (rd : RegIdx) (b : Byte) (cin : Bool) :
    s.addTo rd b cin = .next (sumNext s rd ((s.reg rd).toNat + b.toNat + cin.toNat)) := by
  refine State.writeAlu_next.2 ⟨hfalls, ?_⟩
  rw [add8, zeroOf_ofNat]
  rfl

/-- A subtraction (R131). -/
theorem State.subFrom_inside (hfalls : Falls s) (rd : RegIdx) (b : Byte) (bin : Bool) :
    s.subFrom rd b bin = .next (diffNext s rd b bin) := by
  refine State.writeAlu_next.2 ⟨hfalls, ?_⟩
  rw [carryOfBorrow_eq, sub8_carry, sub8_r]
  rfl

/-- A comparison: the difference is 0 where the two are equal (R140). -/
theorem State.compareWith_inside (hfalls : Falls s) (rd : RegIdx) (b : Byte) :
    s.compareWith rd b = .next (compareNext s rd b) := by
  have hzero : zeroOf (sub8 (s.reg rd) b false).r = decide (s.reg rd = b) := by
    rw [zeroOf_eq_decide, decide_eq_decide, sub8_r]
    exact (sub_eq_zero (a := s.reg rd - b)).trans sub_eq_zero
  refine State.compare_next.2 ⟨hfalls, ?_⟩
  rw [carryOfBorrow_eq, sub8_carry, hzero]
  rfl

/-! ### The instructions -/

/-- Settles O1: the four are the addition of R130 with their operand and carry in. -/
theorem additionsGiveSumCarryAndZero : Obligations.AdditionsGiveSumCarryAndZero :=
  fun s rd rb c8 hfalls =>
    ⟨State.addTo_inside hfalls rd (s.reg rb) false, State.addTo_inside hfalls rd (s.reg rb) s.c,
      State.addTo_inside hfalls rd c8 false, State.addTo_inside hfalls rd c8 s.c⟩

/-- Settles O2: the four are the subtraction of R131 with their operand and borrow in. -/
theorem subtractionsGiveDifferenceBorrowAndZero : Obligations.SubtractionsGiveDifferenceBorrowAndZero :=
  fun s rd rb c8 hfalls =>
    ⟨State.subFrom_inside hfalls rd (s.reg rb) false, State.subFrom_inside hfalls rd (s.reg rb) s.c,
      State.subFrom_inside hfalls rd c8 false, State.subFrom_inside hfalls rd c8 s.c⟩

/-- Settles O3: both are the comparison of R140 with their operand. -/
theorem comparesSetFlagsAsUnsignedOrder : Obligations.ComparesSetFlagsAsUnsignedOrder :=
  fun s rd rb c8 hfalls =>
    ⟨State.compareWith_inside hfalls rd (s.reg rb), State.compareWith_inside hfalls rd c8⟩

/-! ### 16-bit chains (R142) -/

/-- The carry out of the low bytes makes the high sum the high byte of the 16-bit sum, with its carry out. -/
theorem byteSums_append (lo lo2 hi hi2 : Byte) {k : Bool} (hk : k = decide (256 ≤ lo.toNat + lo2.toNat)) :
    BitVec.ofNat 8 (hi.toNat + hi2.toNat + k.toNat) ++ BitVec.ofNat 8 (lo.toNat + lo2.toNat) =
        (hi ++ lo) + (hi2 ++ lo2) ∧
      decide (256 ≤ hi.toNat + hi2.toNat + k.toNat) =
        decide (2 ^ 16 ≤ (hi ++ lo).toNat + (hi2 ++ lo2).toNat) := by
  have hcarry : k.toNat = (lo.toNat + lo2.toNat) / 256 := by
    rw [hk, Bool.toNat, Bool.cond_decide]
    split <;> omega
  rw [← BitVec.toNat_inj, decide_eq_decide]
  simp only [BitVec.toNat_add, toNat_append_byte, BitVec.toNat_ofNat]
  omega

/-- The borrow of the low bytes makes the high difference the high byte of the 16-bit difference, with its
borrow. -/
theorem byteDifferences_append (lo lo2 hi hi2 : Byte) {k : Bool} (hk : k = decide (lo.toNat < lo2.toNat)) :
    (hi - hi2 - (BitVec.ofBool k).setWidth 8) ++ (lo - lo2) = (hi ++ lo) - (hi2 ++ lo2) ∧
      decide (hi.toNat < hi2.toNat + k.toNat) = decide ((hi ++ lo).toNat < (hi2 ++ lo2).toNat) := by
  have hborrow : lo.toNat < lo2.toNat ∧ k.toNat = 1 ∨ lo2.toNat ≤ lo.toNat ∧ k.toNat = 0 := by
    subst hk
    rcases Nat.lt_or_ge lo.toNat lo2.toNat with h | h
    · exact .inl ⟨h, by simp [h]⟩
    · exact .inr ⟨h, by simp [h]⟩
  rw [← BitVec.toNat_inj, decide_eq_decide]
  simp only [BitVec.toNat_sub, toNat_append_byte, BitVec.toNat_setWidth, BitVec.toNat_ofBool]
  omega

theorem aluNext_reg_other {rd q : RegIdx} (h : s.cfg.phys rd ≠ s.cfg.phys q) (v : Byte) (c z : Bool) :
    (aluNext s rd v c z).reg q = s.reg q :=
  (aluNext_reg rd q v c z).trans (if_neg h)

/-- Two results to different registers, one after the other: both registers hold them, and C is that of the
second. -/
theorem execs_alu_pair {i j : Instr} {lo hi : RegIdx} {v w : Byte} {c c' z z' : Bool}
    (hne : s.cfg.phys lo ≠ s.cfg.phys hi) (hlow : exec i s = .next (aluNext s lo v c z))
    (hhigh : exec j (aluNext s lo v c z) = .next (aluNext (aluNext s lo v c z) hi w c' z')) :
    ∃ t, execs [i, j] s = .next t ∧ t.reg hi ++ t.reg lo = w ++ v ∧ t.c = c' ∧ t.pc = s.pc + 2 := by
  refine ⟨_, execs_pair hlow hhigh, congrArg₂ _ ?_ ?_, rfl, rfl⟩
  · exact State.reg_setReg_same _ hi w
  · calc (aluNext (aluNext s lo v c z) hi w c' z').reg lo
      _ = (aluNext s lo v c z).reg lo := aluNext_reg_other (s := aluNext s lo v c z) hne.symm w c' z'
      _ = v := State.reg_setReg_same s lo v

/-- Settles O4: ADD leaves the operands of ADDC as they were, and its C is the carry out of the low bytes. -/
theorem addThenAddcIsSixteenBitSum : Obligations.AddThenAddcIsSixteenBitSum := by
  intro s lo lo2 hi hi2 hpc hhi hhi2
  obtain ⟨hadd, -⟩ := additionsGiveSumCarryAndZero s lo lo2 0 (by unfold Falls; omega)
  obtain ⟨-, haddc, -⟩ := additionsGiveSumCarryAndZero (sumNext s lo _) hi hi2 0 hpc
  rw [sumNext, aluNext_reg_other hhi, aluNext_reg_other hhi2] at haddc
  obtain ⟨hsum, hcarry⟩ := byteSums_append (s.reg lo) (s.reg lo2) (s.reg hi) (s.reg hi2) rfl
  obtain ⟨t, hrun, hregs, hc, hpc'⟩ := execs_alu_pair hhi hadd haddc
  exact ⟨t, hrun, hregs.trans hsum, hc.trans hcarry, hpc'⟩

/-- Settles O5: SUB leaves the operands of SUBC as they were, and its C is the borrow of the low bytes. -/
theorem subThenSubcIsSixteenBitDifference : Obligations.SubThenSubcIsSixteenBitDifference := by
  intro s lo lo2 hi hi2 hpc hborrow hhi hhi2
  obtain ⟨hsub, -⟩ := subtractionsGiveDifferenceBorrowAndZero s lo lo2 0 (by unfold Falls; omega)
  obtain ⟨-, hsubc, -⟩ :=
    subtractionsGiveDifferenceBorrowAndZero (diffNext s lo (s.reg lo2) false) hi hi2 0 hpc
  have hlow : s.reg lo - s.reg lo2 - (BitVec.ofBool false).setWidth 8 = s.reg lo - s.reg lo2 :=
    BitVec.sub_zero _
  rw [diffNext_of_borrow hborrow, hlow] at hsub
  rw [diffNext_of_borrow (s := diffNext s lo _ _) hborrow, diffNext_of_borrow hborrow, hlow,
    aluNext_reg_other hhi, aluNext_reg_other hhi2] at hsubc
  obtain ⟨hdiff, hc⟩ := byteDifferences_append (s.reg lo) (s.reg lo2) (s.reg hi) (s.reg hi2) rfl
  obtain ⟨t, hrun, hregs, hc', hpc'⟩ := execs_alu_pair hhi hsub hsubc
  exact ⟨t, hrun, hregs.trans hdiff, hc'.trans hc, hpc'⟩

end Sys2Proof.Machine
end

section
/-! PROOF. Bitwise logic, tests, moves and NOP (spec/41_logic_move.md). -/

namespace Sys2Proof.Machine

open Sys2Proof.Claims

variable {s : State}

/-! ### The shared shapes complete inside the PROM -/

/-- A logic result (R150): C is not written. -/
theorem State.writeLogic_inside (hfalls : Falls s) (rd : RegIdx) (r : Byte) :
    s.writeLogic rd r = .next (logicNext s rd r) := by
  refine State.writeLogic_next.2 ⟨hfalls, ?_⟩
  rw [zeroOf_eq_decide]
  rfl

/-- A test (R157): the result of the AND reaches Z alone. -/
theorem State.testWith_inside (hfalls : Falls s) (rd : RegIdx) (b : Byte) :
    s.testWith rd b = .next (testNext s (s.reg rd &&& b)) := by
  refine State.advance_next.2 ⟨hfalls, ?_⟩
  rw [zeroOf_eq_decide]
  rfl

/-- A copy (R159): no flag is written. -/
theorem State.setReg_advance_inside (hfalls : Falls s) (rd : RegIdx) (v : Byte) :
    (s.setReg rd v).advance = .next (aluNext s rd v s.c s.z) :=
  State.advance_next.2 ⟨hfalls, rfl⟩

/-! ### The instructions -/

/-- Settles O6: the six write the logic result of their operands. -/
theorem logicWritesResultAndZero : Obligations.LogicWritesResultAndZero :=
  fun s rd rb c8 hfalls =>
    ⟨State.writeLogic_inside hfalls rd (s.reg rd &&& s.reg rb),
      State.writeLogic_inside hfalls rd (s.reg rd &&& c8),
      State.writeLogic_inside hfalls rd (s.reg rd ||| s.reg rb),
      State.writeLogic_inside hfalls rd (s.reg rd ||| c8),
      State.writeLogic_inside hfalls rd (s.reg rd ^^^ s.reg rb),
      State.writeLogic_inside hfalls rd (s.reg rd ^^^ c8)⟩

/-- Settles O7: both are the test of R157 with their operand. -/
theorem testsWriteZeroAlone : Obligations.TestsWriteZeroAlone :=
  fun s rd rb c8 hfalls =>
    ⟨State.testWith_inside hfalls rd (s.reg rb), State.testWith_inside hfalls rd c8⟩

/-- Settles O8: both copy their operand. -/
theorem movesCopyAndWriteNoFlag : Obligations.MovesCopyAndWriteNoFlag :=
  fun s rd rb c8 hfalls =>
    ⟨State.setReg_advance_inside hfalls rd (s.reg rb), State.setReg_advance_inside hfalls rd c8⟩

/-- Settles O9: NOP is the advance of the pc. -/
theorem nopOnlyAdvances : Obligations.NopOnlyAdvances :=
  fun _ hfalls => State.advance_inside hfalls

end Sys2Proof.Machine
end

section
/-! PROOF. Rotates by one position, and what a run of them gives (spec/42_rotate.md). -/

namespace Sys2Proof.Machine

open Sys2Proof.Claims

variable {s : State}

/-! ### The rotation laws, bit by bit -/

/-- R171, with the low bit of D6. -/
theorem rotateLeft_eq (b : Byte) : rotateLeft b = b.rotateLeft 1 := by
  refine BitVec.eq_of_getLsbD_eq fun i hi => ?_
  simp only [rotateLeft, BitVec.getLsbD_append, BitVec.getLsbD_rotateLeft, BitVec.getLsbD_extractLsb']
  cases i with
  | zero => simp
  | succ i => simp [hi, Nat.lt_of_succ_lt_succ hi]

/-- R173. -/
theorem rotateRight_eq (b : Byte) : rotateRight b = b.rotateRight 1 := by
  refine BitVec.eq_of_getLsbD_eq fun i hi => ?_
  simp only [rotateRight, BitVec.getLsbD_append, BitVec.getLsbD_rotateRight, BitVec.getLsbD_extractLsb']
  rcases Nat.lt_or_ge i 7 with h | h
  · simp [h]
  · simp [show i = 7 by omega]

/-- R172: the carry in reaches bit 0, and bit 7 the carry. -/
theorem rotateLeftCarry_append (b : Byte) (cin : Bool) :
    BitVec.ofBool (rotateLeftCarry b cin).carry ++ (rotateLeftCarry b cin).r =
      (BitVec.ofBool cin ++ b).rotateLeft 1 := by
  refine BitVec.eq_of_getLsbD_eq fun i hi => ?_
  simp only [rotateLeftCarry, BitVec.getLsbD_append, BitVec.getLsbD_rotateLeft, BitVec.getLsbD_extractLsb',
    BitVec.getLsbD_ofBool]
  obtain rfl | ⟨h0, h8⟩ | rfl : i = 0 ∨ (0 < i ∧ i < 8) ∨ i = 8 := by omega
  · simp
  · simp [h8, Nat.ne_of_gt h0, show i - 1 < 7 by omega, show i < 9 by omega, show i - 1 < 8 by omega]
  · simp

/-- R174: the carry in reaches bit 7, and bit 0 the carry. -/
theorem rotateRightCarry_append (b : Byte) (cin : Bool) :
    (rotateRightCarry b cin).r ++ BitVec.ofBool (rotateRightCarry b cin).carry =
      (b ++ BitVec.ofBool cin).rotateRight 1 := by
  refine BitVec.eq_of_getLsbD_eq fun i hi => ?_
  simp only [rotateRightCarry, BitVec.getLsbD_append, BitVec.getLsbD_rotateRight, BitVec.getLsbD_extractLsb',
    BitVec.getLsbD_ofBool]
  obtain rfl | ⟨h0, h8⟩ | rfl : i = 0 ∨ (0 < i ∧ i < 8) ∨ i = 8 := by omega
  · simp
  · simp [h8, Nat.ne_of_gt h0, show i - 1 < 7 by omega, show 1 + (i - 1) = i by omega]
  · simp

/-! ### Full circles of rotations -/

/-- A rotation to the left by one moves bit `k` to the next place. -/
theorem getLsbD_rotateLeft_one {w : Nat} (x : BitVec w) {k : Nat} (hk : k < w) :
    (x.rotateLeft 1).getLsbD ((k + 1) % w) = x.getLsbD k := by
  rw [BitVec.getLsbD_rotateLeft]
  rcases Nat.lt_or_ge (k + 1) w with h | h
  · simp [Nat.mod_eq_of_lt h, Nat.mod_eq_of_lt (show 1 < w by omega), h]
  · obtain rfl : w = k + 1 := by omega
    cases k with
    | zero => simp
    | succ k => simp

theorem getLsbD_rotateLeft_iterate {w : Nat} (x : BitVec w) (n : Nat) {j : Nat} (hj : j < w) :
    ((·.rotateLeft 1)^[n] x).getLsbD ((j + n) % w) = x.getLsbD j := by
  induction n with
  | zero => simp [Nat.mod_eq_of_lt hj]
  | succ n ih =>
    rw [Function.iterate_succ_apply', ← ih, ← getLsbD_rotateLeft_one _ (Nat.mod_lt (j + n) (by omega)),
      Nat.mod_add_mod, Nat.add_assoc]

/-- After as many rotations as there are bits, every bit is at its own place. -/
theorem rotateLeft_iterate_width {w : Nat} (x : BitVec w) : (·.rotateLeft 1)^[w] x = x := by
  refine BitVec.eq_of_getLsbD_eq fun j hj => ?_
  simpa [Nat.mod_eq_of_lt hj] using getLsbD_rotateLeft_iterate x w hj

theorem rotateRight_rotateLeft {w : Nat} (x : BitVec w) (n : Nat) : (x.rotateLeft n).rotateRight n = x := by
  refine BitVec.eq_of_getLsbD_eq fun i hi => ?_
  have hn : n % w < w := Nat.mod_lt n (by omega)
  rw [BitVec.getLsbD_rotateRight, BitVec.getLsbD_rotateLeft, BitVec.getLsbD_rotateLeft]
  rcases Nat.lt_or_ge i (w - n % w) with h | h
  · simp [h, show n % w + i < w by omega]
  · simp [show ¬ i < w - n % w by omega, show i - (w - n % w) < n % w by omega, hi,
      show w - n % w + (i - (w - n % w)) = i by omega]

/-- The rotations to the right undo a full circle to the left, which changes nothing. -/
theorem rotateRight_iterate_width {w : Nat} (x : BitVec w) : (·.rotateRight 1)^[w] x = x := by
  have hundo : Function.LeftInverse (fun y : BitVec w => y.rotateRight 1) (·.rotateLeft 1) :=
    fun y => rotateRight_rotateLeft y 1
  calc (·.rotateRight 1)^[w] x
    _ = (·.rotateRight 1)^[w] ((·.rotateLeft 1)^[w] x) := by rw [rotateLeft_iterate_width]
    _ = x := hundo.iterate w x

/-- A concatenation determines its two parts. -/
theorem append_inj {v w : Nat} {a a' : BitVec v} {b b' : BitVec w} (h : a ++ b = a' ++ b') :
    a = a' ∧ b = b' := by
  have hb : b = b' := by
    simpa only [BitVec.setWidth_append_eq_right] using congrArg (BitVec.setWidth w) h
  subst hb
  exact ⟨(BitVec.append_left_inj b).1 h, rfl⟩

/-! ### The shared shape completes inside the PROM -/

/-- A result with a carry inside the PROM. -/
theorem State.writeAlu_inside (hfalls : Falls s) (rd : RegIdx) (r : Byte) (carry : Bool) :
    s.writeAlu rd r carry = .next (aluNext s rd r carry (decide (r = 0))) := by
  refine State.writeAlu_next.2 ⟨hfalls, ?_⟩
  rw [zeroOf_eq_decide]
  rfl

/-! ### The instructions -/

/-- Settles O10: both are the logic shape of R150 with the rotated operand. -/
theorem rotatesMoveOneBit : Obligations.RotatesMoveOneBit := by
  intro s rd rb hfalls
  rw [← rotateLeft_eq, ← rotateRight_eq]
  exact ⟨State.writeLogic_inside hfalls rd _, State.writeLogic_inside hfalls rd _⟩

/-- Settles O11: the result and the carry of the model's two laws are the witnesses. -/
theorem carryRotatesAreNineBitRotations : Obligations.CarryRotatesAreNineBitRotations :=
  fun s rd rb hfalls =>
    ⟨⟨_, _, State.writeAlu_inside hfalls rd _ _, rotateLeftCarry_append (s.reg rb) s.c⟩,
      ⟨_, _, State.writeAlu_inside hfalls rd _ _, rotateRightCarry_append (s.reg rb) s.c⟩⟩

/-! ### Runs of one rotate -/

/-- Where an instruction writes a result and falls through, and acts on a part of the state as `f`, a run of `n`
of it acts as the `n`-th iterate. -/
theorem execs_replicate {α : Type} {i : Instr} {rd : RegIdx} {view : State → α} {f : α → α}
    (hstep : ∀ s, Falls s → ∃ r c z, exec i s = .next (aluNext s rd r c z) ∧
      view (aluNext s rd r c z) = f (view s)) (n : Nat) :
    ∀ s, s.pc + n < s.cfg.promSize → ∃ t, execs (List.replicate n i) s = .next t ∧ view t = f^[n] (view s) := by
  induction n with
  | zero => exact fun s _ => ⟨s, rfl, rfl⟩
  | succ n ih =>
    intro s hpc
    obtain ⟨r, c, z, hexec, hview⟩ := hstep s (by unfold Falls; omega)
    obtain ⟨t, hrun, ht⟩ := ih (aluNext s rd r c z) (by simp only [aluNext]; omega)
    refine ⟨t, ?_, ?_⟩
    · simp only [List.replicate_succ, execs, hexec, hrun]
    · rw [ht, hview, Function.iterate_succ_apply]

theorem aluNext_reg_same (rd : RegIdx) (v : Byte) (c z : Bool) : (aluNext s rd v c z).reg rd = v :=
  (aluNext_reg rd rd v c z).trans (if_pos rfl)

/-- ROL onto itself rotates the register. -/
theorem execs_rol (r : RegIdx) (n : Nat) (hpc : s.pc + n < s.cfg.promSize) :
    ∃ t, execs (List.replicate n (.rol r r)) s = .next t ∧ t.reg r = (·.rotateLeft 1)^[n] (s.reg r) := by
  refine execs_replicate (rd := r) (view := (·.reg r)) (f := (·.rotateLeft 1)) (fun u hfalls => ?_) n s hpc
  exact ⟨_, _, _, (rotatesMoveOneBit u r r hfalls).1, aluNext_reg_same r _ _ _⟩

/-- ROLC onto itself rotates the nine bits of the carry and the register (R172). -/
theorem execs_rolc (r : RegIdx) (n : Nat) (hpc : s.pc + n < s.cfg.promSize) :
    ∃ t, execs (List.replicate n (.rolc r r)) s = .next t ∧
      BitVec.ofBool t.c ++ t.reg r = (·.rotateLeft 1)^[n] (BitVec.ofBool s.c ++ s.reg r) := by
  refine execs_replicate (rd := r) (view := fun u => BitVec.ofBool u.c ++ u.reg r) (f := (·.rotateLeft 1))
    (fun u hfalls => ?_) n s hpc
  obtain ⟨⟨v, c, hexec, hbits⟩, -⟩ := carryRotatesAreNineBitRotations u r r hfalls
  refine ⟨v, c, _, hexec, ?_⟩
  rw [aluNext_reg_same, ← hbits]
  rfl

/-- RORC onto itself rotates the nine bits of the register and the carry (R174). -/
theorem execs_rorc (r : RegIdx) (n : Nat) (hpc : s.pc + n < s.cfg.promSize) :
    ∃ t, execs (List.replicate n (.rorc r r)) s = .next t ∧
      t.reg r ++ BitVec.ofBool t.c = (·.rotateRight 1)^[n] (s.reg r ++ BitVec.ofBool s.c) := by
  refine execs_replicate (rd := r) (view := fun u => u.reg r ++ BitVec.ofBool u.c) (f := (·.rotateRight 1))
    (fun u hfalls => ?_) n s hpc
  obtain ⟨-, v, c, hexec, hbits⟩ := carryRotatesAreNineBitRotations u r r hfalls
  refine ⟨v, c, _, hexec, ?_⟩
  rw [aluNext_reg_same, ← hbits]
  rfl

theorem execs_rol_ror (r q : RegIdx) (hpc : s.pc + 2 < s.cfg.promSize) :
    ∃ t, execs [.rol q r, .ror q q] s = .next t ∧ t.reg q = s.reg r := by
  obtain ⟨hrol, -⟩ := rotatesMoveOneBit s q r (by unfold Falls; omega)
  obtain ⟨-, hror⟩ := rotatesMoveOneBit (logicNext s q _) q q hpc
  refine ⟨_, execs_pair hrol hror, ?_⟩
  rw [logicNext, aluNext_reg_same, logicNext, aluNext_reg_same, rotateRight_rotateLeft]

/-- Settles O12: ROL turns a circle of eight bits, ROLC and RORC one of nine, which is the register and the
carry. -/
theorem rotatesComeFullCircle : Obligations.RotatesComeFullCircle := by
  intro s r q hpc
  refine ⟨execs_rol_ror r q (by omega), ?_, ?_, ?_⟩
  · obtain ⟨t, hrun, ht⟩ := execs_rol (s := s) r 8 (by omega)
    exact ⟨t, hrun, ht.trans (rotateLeft_iterate_width _)⟩
  · obtain ⟨t, hrun, ht⟩ := execs_rolc (s := s) r 9 hpc
    obtain ⟨hc, hr⟩ := append_inj (ht.trans (rotateLeft_iterate_width _))
    exact ⟨t, hrun, hr, BitVec.ofBool_eq_iff_eq.1 hc⟩
  · obtain ⟨t, hrun, ht⟩ := execs_rorc (s := s) r 9 hpc
    obtain ⟨hr, hc⟩ := append_inj (ht.trans (rotateRight_iterate_width _))
    exact ⟨t, hrun, hr, BitVec.ofBool_eq_iff_eq.1 hc⟩

end Sys2Proof.Machine
end

section
/-! PROOF. Flag and control-register instructions (spec/43_flag_csr.md). -/

namespace Sys2Proof

/-- With 8 lines every bit of IP and IM is defined (R36). -/
theorem Config.lineMask_of_eight {g : Config} (h : g.interrupts = 8) : g.lineMask = 255#8 := by
  rw [Config.lineMask, h]; rfl

end Sys2Proof

namespace Sys2Proof.Machine

open Sys2Proof.Claims

variable {s : State}

/-! ### The bits RCSR reads (R36, R186) -/

/-- With 8 lines nothing of IP and IM is undetermined. -/
theorem State.csrBits_lineMask_of_eight (h : s.cfg.interrupts = 8) (v : Byte) :
    s.csrBits s.cfg.lineMask v = v := if_pos (Config.lineMask_of_eight h)

/-- Bit 0, the one bit of IE that is defined, reads as IE (R35). -/
theorem State.csrBits_ie_getLsbD_zero (b : Bool) :
    (s.csrBits 1#8 ((BitVec.ofBool b).setWidth 8)).getLsbD 0 = b := by
  have hbit := congrArg (·.getLsbD 0) (s.csrBits_and 1#8 ((BitVec.ofBool b).setWidth 8))
  simpa using hbit

/-! ### The shared shapes complete inside the PROM -/

theorem State.setC_advance_inside (hfalls : Falls s) (b : Bool) :
    (s.setC b).advance = .next { s with c := b, pc := s.pc + 1 } :=
  State.advance_next.2 ⟨hfalls, rfl⟩

theorem State.setZ_advance_inside (hfalls : Falls s) (b : Bool) :
    (s.setZ b).advance = .next { s with z := b, pc := s.pc + 1 } :=
  State.advance_next.2 ⟨hfalls, rfl⟩

theorem State.setIe_advance_inside (hfalls : Falls s) (b : Bool) :
    (s.setIe b).advance = .next { s with ie := b, pc := s.pc + 1 } :=
  State.advance_next.2 ⟨hfalls, rfl⟩

/-- RCSR of an index that names a CSR (R186). -/
theorem execRcsr_inside {n : Nat} {v : Byte} (hfalls : Falls s) (rd : RegIdx) (h : s.readCsr n = some v) :
    execRcsr rd n s = .next { aluNext s rd v s.c s.z with draws := s.draws + 1 } := by
  rw [execRcsr, h]
  exact State.advance_next.2 ⟨hfalls, rfl⟩

/-- WCSR of an index that names a CSR (R187): the write moves neither the pc nor the end of the PROM. -/
theorem execWcsr_inside {n : Nat} {rb : RegIdx} {t : State} (hfalls : Falls s)
    (h : s.writeCsr n (s.reg rb) = some t) :
    execWcsr n rb s =
      .next { t with z := Config.freeBit s.draws, pc := s.pc + 1, draws := s.draws + 1 } := by
  rw [execWcsr, h]
  rcases State.writeCsr_some.1 h with ⟨-, rfl⟩ | ⟨-, rfl⟩ | ⟨-, rfl⟩ <;>
    exact State.advance_next.2 ⟨hfalls, rfl⟩

/-! ### The instructions -/

/-- Settles O15: the byte read is `csrBits` of the CSR, which keeps the defined bits. -/
theorem rcsrReadsDefinedBits : Obligations.RcsrReadsDefinedBits := by
  intro s rd hfalls n hn
  obtain ⟨v, hread⟩ := Option.ne_none_iff_exists'.1 (mt State.readCsr_none.1 (not_le.2 hn))
  refine ⟨v, execRcsr_inside hfalls rd hread, ?_, ?_, ?_⟩ <;> rintro rfl <;>
    obtain rfl := Option.some.inj hread
  · exact ⟨s.csrBits_and _ _, fun h8 => State.csrBits_lineMask_of_eight h8 s.ip⟩
  · exact ⟨s.csrBits_and _ _, fun h8 => State.csrBits_lineMask_of_eight h8 s.im⟩
  · exact State.csrBits_ie_getLsbD_zero s.ie

/-- Settles O13: C by the first two, Z by the others. -/
theorem flagInstructionsSetOneFlag : Obligations.FlagInstructionsSetOneFlag :=
  fun _ hfalls =>
    ⟨State.setC_advance_inside hfalls false, State.setC_advance_inside hfalls true,
      State.setZ_advance_inside hfalls false, State.setZ_advance_inside hfalls true⟩

/-- Settles O14. -/
theorem cliSetiWriteInterruptEnable : Obligations.CliSetiWriteInterruptEnable :=
  fun _ hfalls => ⟨State.setIe_advance_inside hfalls false, State.setIe_advance_inside hfalls true⟩

/-- Settles O16: Z is the free bit of the draw, the same for the three indices. -/
theorem wcsrWritesOneRegister : Obligations.WcsrWritesOneRegister :=
  fun s rb hfalls =>
    ⟨Config.freeBit s.draws,
      execWcsr_inside (n := 0) (rb := rb) (t := s.setIp _) hfalls rfl,
      execWcsr_inside (n := 1) (rb := rb) (t := s.setIm _) hfalls rfl,
      execWcsr_inside (n := 2) (rb := rb) (t := s.setIe _) hfalls rfl⟩

end Sys2Proof.Machine
end

section
/-! PROOF. Branches, calls and returns that complete (spec/44_branch_call.md). -/

namespace Sys2Proof.Machine

open Sys2Proof.Claims

variable {s : State} {f : Frame} {k : List Frame} {taken : Bool} {d : Int}

/-! ### The shared operations complete inside the PROM -/

/-- A taken branch (R200). -/
theorem State.branch_inside (hin : InProm s (s.pc + d)) (ht : taken = true) :
    s.branch taken d = .next (jumpNext s (s.pc + d)) :=
  State.branch_next.2 (.inl ⟨ht, State.goto_inside hin.1 hin.2⟩)

theorem State.branch_untaken (hfalls : Falls s) (ht : taken = false) :
    s.branch taken d = .next { s with pc := s.pc + 1 } :=
  State.branch_next.2 (.inr ⟨ht, State.advance_inside hfalls⟩)

/-- A taken call pushes the next instruction's address with the two bits it draws (R206, D12). -/
theorem State.call_inside (hroom : HasRoom s) (hin : InProm s (s.pc + d)) (ht : taken = true) :
    s.call taken d =
      .next (callNext s d (Config.freeBit s.draws) (Config.freeBit (s.draws + 1))) :=
  State.call_next.2 (.inl ⟨ht, hroom, State.goto_inside hin.1 hin.2⟩)

theorem State.call_untaken (hfalls : Falls s) (ht : taken = false) :
    s.call taken d = .next { s with pc := s.pc + 1 } :=
  State.call_next.2 (.inr ⟨ht, State.advance_inside hfalls⟩)

theorem State.unblockEntry_of_auto (h : s.cfg.irqPolicy = .auto) : s.unblockEntry = s.setIe true := by
  rw [State.unblockEntry, h]

theorem State.unblockEntry_of_inService (h : s.cfg.irqPolicy = .inService) :
    s.unblockEntry = s.setIsr false := by
  rw [State.unblockEntry, h]

/-- A return from an interrupt, up to what it does to IE or ISR (R212). -/
theorem State.returnFromInterrupt_inside (hk : s.stack = f :: k) (haddr : f.addr < s.cfg.promSize) :
    s.returnFromInterrupt =
      .next ((((s.setStack k).setC f.c).setZ f.z).unblockEntry.setPc f.addr) :=
  State.returnFromInterrupt_next.2 ⟨f, k, hk, haddr, rfl⟩

/-! ### The instructions -/

/-- Settles O20: each is the branch of R200 with its condition. -/
theorem takenBranchesGoToTarget : Obligations.TakenBranchesGoToTarget :=
  fun _ _ hin =>
    ⟨State.branch_inside hin rfl,
      fun hc => State.branch_inside hin hc,
      fun hc => State.branch_inside hin (by simp [hc]),
      fun hz => State.branch_inside hin (by simp [hz]),
      fun hz => State.branch_inside hin hz⟩

/-- Settles O21: a condition that does not hold leaves the advance of the pc. -/
theorem untakenBranchesAndCallsFallThrough : Obligations.UntakenBranchesAndCallsFallThrough :=
  fun _ _ hfalls =>
    have both {taken : Bool} (ht : taken = false) :=
      And.intro (State.branch_untaken hfalls ht) (State.call_untaken hfalls ht)
    ⟨fun hc => both hc, fun hc => both (by simp [hc]),
      fun hz => both (by simp [hz]), fun hz => both hz⟩

/-- Settles O22: the flag slots are the next two free bits, the same for the five calls. -/
theorem takenCallsPushReturnAddress : Obligations.TakenCallsPushReturnAddress :=
  fun _ _ hroom hin =>
    ⟨_, _, State.call_inside hroom hin rfl,
      fun hc => State.call_inside hroom hin hc,
      fun hc => State.call_inside hroom hin (by simp [hc]),
      fun hz => State.call_inside hroom hin (by simp [hz]),
      fun hz => State.call_inside hroom hin hz⟩

/-- Settles O24: neither flag of the entry is restored. -/
theorem retContinuesAtTopOfStack : Obligations.RetContinuesAtTopOfStack :=
  fun _ f k hk haddr => State.returnFromCall_next.2 ⟨f, k, hk, haddr, rfl⟩

/-- Settles O25: the two policies differ in `unblockEntry` alone, and the pop and the flags leave the policy as
it is. -/
theorem iretRestoresPcFlagsAndUnblocks : Obligations.IretRestoresPcFlagsAndUnblocks := by
  intro s f k hk haddr
  have hiret : exec .iret s = _ := State.returnFromInterrupt_inside hk haddr
  refine ⟨fun hauto => ?_, fun hservice => ?_⟩
  · rw [hiret, State.unblockEntry_of_auto (s := ((s.setStack k).setC f.c).setZ f.z) hauto]
    rfl
  · rw [hiret, State.unblockEntry_of_inService (s := ((s.setStack k).setC f.c).setZ f.z) hservice]
    rfl

end Sys2Proof.Machine
end

section
/-! PROOF. The address of a direct form, and scratchpad and port accesses that complete
(spec/45_memory_io.md). -/

namespace Sys2Proof.Machine

open Sys2Proof.Claims

variable {s : State} {rd : RegIdx} {ea l n : Nat}

/-! ### The address of a direct form (R230) -/

theorem State.directAddr_page_zero (h : s.cfg.directPaged = false) (f : Byte) : s.directAddr f = f.toNat :=
  if_neg (by simp [h])

theorem State.directAddr_paged (h : s.cfg.directPaged = true) (f : Byte) :
    s.directAddr f = (s.paged f).toNat := if_pos h

/-- Settles O29: in small mode the page pointer adds nothing, so both readings of D16 give page 0. -/
theorem directAddressByPagingAndMode : Obligations.DirectAddressByPagingAndMode := by
  intro s f
  refine ⟨fun h => ?_, fun hpaged hmode => ?_, fun hpaged hmode => ?_⟩
  · cases hpaged : s.cfg.directPaged with
    | false => exact State.directAddr_page_zero hpaged f
    | true =>
      have hmode : s.cfg.memMode = .small := h.resolve_left (by simp [hpaged])
      rw [State.directAddr_paged hpaged, State.paged_small hmode]
  · rw [State.directAddr_paged hpaged, State.paged_medium hmode]
  · rw [State.directAddr_paged hpaged, State.paged_large hmode]

/-! ### Scratchpad stores -/

/-- A store through any address form: the byte stored is what the address then gives, every other cell keeps
its byte, and the storage and the pc are all that changes (R73). -/
theorem storeSp_completes (hfalls : Falls s) (hprom : s.cfg.isProm (.sp l) = false)
    (hl : s.cfg.locateSp ea = some l) :
    ∃ t, s.storeSp rd ea = .next t ∧
      (s.cfg.isShared (.sp l) = false → t.spByte ea = some (s.reg rd)) ∧
      KeepsOtherBytes s t (s.cfg.spCell l) ∧ t = { s with sp := t.sp, pc := s.pc + 1 } :=
  ⟨_, State.storeSp_inside hfalls hl hprom, fun hshared => State.spByte_write_same hl hprom hshared _,
    keepsOtherBytes_write _ _, rfl⟩

/-- Settles O31: both forms are the store at their address. -/
theorem scratchpadStoresComplete : Obligations.ScratchpadStoresComplete :=
  fun _ _ _ _ _ hfalls hprom => ⟨storeSp_completes hfalls hprom, storeSp_completes hfalls hprom⟩

/-! ### Reads that the environment answers (R72, R82) -/

/-- An answer takes the environment's next byte off its list, or draws one where the list is empty. -/
theorem State.answer_spec (s : State) :
    Answers s s.answer.1 ∧ ∃ n, s.answer.2 = (s.setAnswers s.answers.tail).drawn n := by
  rcases State.answer_eq (s := s) with ⟨hnone, hanswer⟩ | ⟨v, as, hsome, hanswer⟩
  · refine ⟨fun a as h => ?_, 1, ?_⟩
    · rw [hnone] at h
      cases h
    · rw [hanswer, hnone, List.tail_nil, ← hnone]
      rfl
  · refine ⟨fun a bs h => ?_, 0, ?_⟩
    · obtain ⟨rfl, -⟩ := List.cons.inj (hsome.symm.trans h)
      rw [hanswer]
    · rw [hanswer, hsome]
      rfl

/-- A load from storage that another master shares (R82). -/
theorem State.loadSp_shared (hfalls : Falls s) (hanswer : s.answer.2 = (s.setAnswers s.answers.tail).drawn n)
    (hshared : s.cfg.isShared (.sp l) = true) (hl : s.cfg.locateSp ea = some l) :
    s.loadSp rd ea = .next (answeredNext s rd s.answer.1 n) :=
  State.loadSp_next.2 ⟨_, (s.setAnswers s.answers.tail).drawn n,
    State.readSp_ok.2 ⟨l, hl, .inr ⟨hshared, rfl, hanswer.symm⟩⟩,
    State.advance_next.2 ⟨hfalls, rfl⟩⟩

/-- A port read of a location that holds no byte (R72, R76). -/
theorem State.loadIo_answered (hfalls : Falls s)
    (hanswer : s.answer.2 = (s.setAnswers s.answers.tail).drawn n)
    (hheld : s.held (.io l) = none) (hl : s.cfg.locateIo ea = some l) : s.loadIo rd ea =
      .next { answeredNext s rd s.answer.1 n with events := s.events ++ [.read ea l] } :=
  State.loadIo_next.2 ⟨_, ((s.setAnswers s.answers.tail).drawn n).record (.read ea l),
    State.readIo_ok.2 ⟨l, hl, .inr ⟨hheld, rfl, by rw [hanswer]⟩⟩,
    State.advance_next.2 ⟨hfalls, rfl⟩⟩

/-! ### Scratchpad loads -/

/-- A load from an address that is sure to give a byte (R72). -/
theorem State.loadSp_of_spByte {v : Byte} (hfalls : Falls s) (hv : s.spByte ea = some v) :
    s.loadSp rd ea = .next (aluNext s rd v s.c s.z) := by
  obtain ⟨l, hl, hheld⟩ := Option.bind_eq_some_iff.1 hv
  exact State.loadSp_held hfalls hl hheld

/-- Settles O30: shared storage gives the environment's answer, the same byte for both forms. -/
theorem scratchpadLoadsComplete : Obligations.ScratchpadLoadsComplete := by
  intro s rd rb f hfalls
  obtain ⟨hanswers, n, hanswer⟩ := s.answer_spec
  exact ⟨fun _ => State.loadSp_of_spByte hfalls, fun _ => State.loadSp_of_spByte hfalls,
    s.answer.1, n, hanswers, fun _ hshared =>
      ⟨State.loadSp_shared hfalls hanswer hshared, State.loadSp_shared hfalls hanswer hshared⟩⟩

/-! ### Ports -/

/-- Settles O34: a byte held by overlap is read as it stands, otherwise the environment answers. -/
theorem portReadsComplete : Obligations.PortReadsComplete := by
  intro s rd rb f l hfalls
  obtain ⟨hanswers, n, hanswer⟩ := s.answer_spec
  refine ⟨fun v hheld => ?_, fun hnone => ⟨s.answer.1, n, hanswers, ?_⟩⟩
  · exact ⟨fun hl => State.loadIo_held hfalls hl hheld, fun hl => State.loadIo_held hfalls hl hheld⟩
  · exact ⟨State.loadIo_answered hfalls hanswer hnone, State.loadIo_answered hfalls hanswer hnone⟩

/-- A port write to a location that is a device's alone (R73, R76). -/
theorem State.storeIo_device (hfalls : Falls s) (hprom : s.cfg.isProm (.io l) = false)
    (hkey : s.cfg.spKey (.io l) = none) (hl : s.cfg.locateIo ea = some l) : s.storeIo rd ea =
      .next { s with events := s.events ++ [.write ea l (s.reg rd)], pc := s.pc + 1 } :=
  State.storeIo_next.2 ⟨_, State.writeIo_ok.2 ⟨l, hl, hprom, .inl ⟨hkey, rfl⟩⟩,
    State.advance_next.2 ⟨hfalls, rfl⟩⟩

/-- Settles O35: both forms are the write at their address. -/
theorem portWritesComplete : Obligations.PortWritesComplete :=
  fun _ _ _ _ _ hfalls hprom hkey =>
    ⟨State.storeIo_device hfalls hprom hkey, State.storeIo_device hfalls hprom hkey⟩

end Sys2Proof.Machine
end

section
/-! PROOF. When an interrupt is taken, what entry saves and what IRET restores, and how a second entry is kept
away (spec/60_exceptions.md). -/

namespace Sys2Proof.Machine

open Sys2Proof.Claims

variable {s t : State} {i : Instr}

/-! ### The interrupt condition at a boundary (R256, R257) -/

theorem State.takesInterrupt_iff :
    s.takesInterrupt = true ↔ s.sample.interruptDue = true ∧ s.tick.defer = false := by
  simp only [State.takesInterrupt, Bool.and_eq_true, Bool.not_eq_true']

/-- Without an input of the environment the lines stay as they are and no entry is deferred (log 25). -/
theorem State.tick_of_no_ticks (h : s.ticks = []) : s.tick = { lines := s.lines, defer := false } := by
  simp only [State.tick, h, List.head?_nil, Option.getD_none]

/-- The in-service bit blocks every entry (R262). -/
theorem State.takesInterrupt_of_inService (hservice : s.cfg.irqPolicy = .inService) (hisr : s.isr = true) :
    s.takesInterrupt = false := by
  rw [Bool.eq_false_iff, ne_eq, State.takesInterrupt_iff, State.interruptDue_iff]
  rintro ⟨⟨-, -, hfree⟩, -⟩
  exact hfree ⟨hservice, hisr⟩

/-- The interrupt branch of the step (R258). -/
theorem step_of_takesInterrupt (htake : s.takesInterrupt = true) : step s = s.sample.takeInterrupt :=
  if_pos htake

/-! ### No instruction touches the environment's inputs (R257) -/

theorem State.goto_keeps_ticks {d : Int} (h : s.goto d = .next t) : t.ticks = s.ticks := by
  obtain ⟨-, -, rfl⟩ := State.goto_next.1 h
  rfl

theorem State.advance_keeps_ticks (h : s.advance = .next t) : t.ticks = s.ticks :=
  State.goto_keeps_ticks h

theorem State.branch_keeps_ticks {taken : Bool} {d : Int} (h : s.branch taken d = .next t) :
    t.ticks = s.ticks := by
  rcases State.branch_next.1 h with ⟨-, h⟩ | ⟨-, h⟩
  · exact State.goto_keeps_ticks h
  · exact State.advance_keeps_ticks h

theorem State.call_keeps_ticks {taken : Bool} {d : Int} (h : s.call taken d = .next t) :
    t.ticks = s.ticks := by
  rcases State.call_next.1 h with ⟨-, -, h⟩ | ⟨-, h⟩
  · exact (State.goto_keeps_ticks h :)
  · exact State.advance_keeps_ticks h

theorem State.returnFromInterrupt_keeps_ticks (h : s.returnFromInterrupt = .next t) :
    t.ticks = s.ticks := by
  obtain ⟨f, k, -, -, rfl⟩ := State.returnFromInterrupt_next.1 h
  obtain ⟨e, r, hu, -⟩ := State.unblockEntry_writes (s := ((s.setStack k).setC f.c).setZ f.z)
  rw [hu]
  rfl

theorem execRcsr_keeps_ticks {rd : RegIdx} {n : Nat} (h : execRcsr rd n s = .next t) :
    t.ticks = s.ticks := by
  unfold execRcsr at h
  split at h
  · cases h
  · exact (State.advance_keeps_ticks h :)

theorem execWcsr_keeps_ticks {n : Nat} {rb : RegIdx} (h : execWcsr n rb s = .next t) :
    t.ticks = s.ticks := by
  unfold execWcsr at h
  split at h
  · cases h
  · rename_i u hu
    rw [State.advance_keeps_ticks h]
    rcases State.writeCsr_some.1 hu with ⟨-, rfl⟩ | ⟨-, rfl⟩ | ⟨-, rfl⟩ <;> rfl

/-- Every shape of an instruction's meaning leaves the environment's inputs alone: sampling has used up the
step's own (R255). -/
theorem Shape.keeps_ticks {o : Out} (hshape : Shape s i o) (h : o = .next t) : t.ticks = s.ticks := by
  cases hshape with
  | alu | logic | compare | zero | carry | move | enable | nop => exact (State.advance_keeps_ticks h :)
  | branch => exact State.branch_keeps_ticks h
  | call => exact State.call_keeps_ticks h
  | ret =>
    obtain ⟨f, k, -, -, rfl⟩ := State.returnFromCall_next.1 h
    rfl
  | iret => exact State.returnFromInterrupt_keeps_ticks h
  | rcsr => exact execRcsr_keeps_ticks h
  | wcsr => exact execWcsr_keeps_ticks h
  | loadSp =>
    obtain ⟨v, u, hu, h⟩ := State.loadSp_next.1 h
    obtain ⟨l, n, rfl⟩ := State.readSp_writes hu
    exact (State.advance_keeps_ticks h :)
  | storeSp =>
    obtain ⟨u, hu, h⟩ := State.storeSp_next.1 h
    obtain ⟨⟨m, rfl⟩, -⟩ := State.writeSp_writes hu
    exact (State.advance_keeps_ticks h :)
  | loadIo =>
    obtain ⟨v, u, hu, h⟩ := State.loadIo_next.1 h
    obtain ⟨l, n, e, rfl⟩ := State.readIo_writes hu
    exact (State.advance_keeps_ticks h :)
  | storeIo =>
    obtain ⟨u, hu, h⟩ := State.storeIo_next.1 h
    obtain ⟨⟨m, e, rfl⟩, -⟩ := State.writeIo_writes hu
    exact (State.advance_keeps_ticks h :)

/-- Settles O45: sampling uses up one input of the environment, and entry and the instructions none; without an
input nothing defers an entry. -/
theorem deferralsRunOut : Obligations.DeferralsRunOut := by
  refine ⟨fun s t hstep => ?_, fun s hnone hdue => ?_⟩
  · rcases step_next.1 hstep with ⟨htake, -⟩ | ⟨-, w, i, -, -, hexec⟩
    · obtain ⟨-, e, r, -, rfl⟩ := step_entry htake hstep
      rfl
    · exact (exec_shape i s.sample).keeps_ticks hexec
  · exact State.takesInterrupt_iff.2 ⟨hdue, by rw [State.tick_of_no_ticks hnone]⟩

/-! ### Entry and return (R258, R260, R262) -/

theorem State.blockEntry_of_auto (h : s.cfg.irqPolicy = .auto) : s.blockEntry = s.setIe false := by
  rw [State.blockEntry, h]

theorem State.blockEntry_of_inService (h : s.cfg.irqPolicy = .inService) : s.blockEntry = s.setIsr true := by
  rw [State.blockEntry, h]

/-- The frame interrupt entry pushes: the pc of the instruction that would have run and both flags (R258). -/
theorem State.takeInterrupt_of_hasRoom (hroom : HasRoom s) : s.takeInterrupt =
    .next ((s.setStack ({ addr := s.pc, c := s.c, z := s.z } :: s.stack)).blockEntry.setPc 0) :=
  State.takeInterrupt_next.2 ⟨hroom, rfl⟩

/-- Settles O46: the entry's frame is the first of the stack IRET pops, and it holds an index inside the PROM. -/
theorem iretAfterEntryResumesProgram : Obligations.IretAfterEntryResumesProgram := by
  intro s t h hpc htake hstep hstack hcfg
  obtain ⟨-, e, r, -, rfl⟩ := step_entry htake hstep
  have hcfg : h.cfg = s.cfg := hcfg
  obtain ⟨hauto, hservice⟩ := iretRestoresPcFlagsAndUnblocks h { addr := s.pc, c := s.c, z := s.z } s.stack
    hstack (by rw [hcfg]; exact hpc)
  rw [hcfg] at hauto hservice
  cases hpolicy : s.cfg.irqPolicy with
  | auto => exact ⟨_, hauto hpolicy, rfl, rfl, rfl, rfl, rfl, rfl⟩
  | inService => exact ⟨_, hservice hpolicy, rfl, rfl, rfl, rfl, rfl, rfl⟩

/-- Settles O47: with entry blocked the step runs an instruction, and IRET alone of these writes ISR. -/
theorem inServiceBlocksEntryUntilIret : Obligations.InServiceBlocksEntryUntilIret := by
  intro s t hservice hisr hstep
  have hblocked := State.takesInterrupt_of_inService hservice hisr
  refine ⟨hblocked, ?_⟩
  rcases step_next.1 hstep with ⟨htake, -⟩ | ⟨-, w, i, hfetch, hdec, hexec⟩
  · rw [hblocked] at htake
    cases htake
  · rcases (exec_effect hexec).isr with hkept | ⟨rfl, -⟩
    · exact .inl (hkept.trans hisr)
    · exact .inr ⟨w, hfetch, hdec⟩

/-! ### The condition and the entry in full (R256 to R258) -/

/-- Settles O41: sampling changes nothing of the condition but IP. -/
theorem interruptTakenExactlyWhenDueAndNotDeferred :
    Obligations.InterruptTakenExactlyWhenDueAndNotDeferred := by
  intro s
  rw [State.takesInterrupt_iff, State.interruptDue_iff, and_assoc, and_assoc]
  rfl

/-- Settles O42: the two policies differ in `blockEntry` alone, and neither sampling nor the push changes the
policy. -/
theorem interruptEntrySavesPcAndFlags : Obligations.InterruptEntrySavesPcAndFlags := by
  intro s htake hroom
  have hentry := (step_of_takesInterrupt htake).trans (State.takeInterrupt_of_hasRoom (s := s.sample) hroom)
  refine ⟨fun hauto => ?_, fun hservice => ?_⟩
  · rw [hentry, State.blockEntry_of_auto]
    · rfl
    · exact hauto
  · rw [hentry, State.blockEntry_of_inService]
    · rfl
    · exact hservice

end Sys2Proof.Machine
end

section
/-! PROOF. The end of a run: sampling keeps it, and the branch to itself changes nothing
(spec/70_reset_and_hazards.md R294). -/

namespace Sys2Proof.Machine

open Sys2Proof.Claims

variable {s : State}

/-! ### No interrupt can be taken (R294) -/

theorem State.interruptsQuiet_iff : s.interruptsQuiet = true ↔ s.ie = false ∨
    s.ip &&& s.im = 0 ∧ s.lines &&& s.cfg.lineMask &&& s.im = 0 ∧
      ∀ t ∈ s.ticks, t.lines &&& s.cfg.lineMask &&& s.im = 0 := by
  simp only [State.interruptsQuiet, Bool.or_eq_true, Bool.not_eq_true', Bool.and_eq_true, beq_iff_eq,
    List.all_eq_true, and_assoc]

/-- The input of a step is the next one of the environment, or the lines as they stand (R255, log 25). -/
theorem State.tick_mem_or : s.tick ∈ s.ticks ∨ s.tick = { lines := s.lines, defer := false } := by
  cases hticks : s.ticks with
  | nil => exact .inr (State.tick_of_no_ticks hticks)
  | cons t ts => exact .inl (by simp [State.tick, hticks])

/-- The lines a step samples are quiet when those that stand and those to come are. -/
theorem State.tick_quiet (hlines : s.lines &&& s.cfg.lineMask &&& s.im = 0)
    (hticks : ∀ t ∈ s.ticks, t.lines &&& s.cfg.lineMask &&& s.im = 0) :
    s.tick.lines &&& s.cfg.lineMask &&& s.im = 0 := by
  rcases State.tick_mem_or (s := s) with hmem | hstand
  · exact hticks _ hmem
  · rw [hstand]
    exact hlines

/-- Quiet lines add no enabled request to IP, so sampling leaves the state quiet (R255). -/
theorem State.sample_interruptsQuiet (h : s.interruptsQuiet = true) : s.sample.interruptsQuiet = true := by
  rw [State.interruptsQuiet_iff] at h ⊢
  rcases h with hie | ⟨hip, hlines, hticks⟩
  · exact .inl hie
  · have htick := State.tick_quiet hlines hticks
    have hsampled : (s.ip ||| (s.tick.lines &&& s.cfg.lineMask)) &&& s.im = 0 := by
      rw [BitVec.and_or_distrib_right, hip, htick]
      exact BitVec.or_zero
    exact .inr ⟨hsampled, htick, fun t ht => hticks t (List.mem_of_mem_tail ht)⟩

theorem State.interruptDue_of_quiet (h : s.interruptsQuiet = true) : s.interruptDue = false := by
  rw [Bool.eq_false_iff, ne_eq, State.interruptDue_iff]
  rintro ⟨hie, henabled, -⟩
  rcases State.interruptsQuiet_iff.1 h with hoff | ⟨hip, -, -⟩
  · exact absurd (hie.symm.trans hoff) Bool.noConfusion
  · exact henabled hip

theorem State.takesInterrupt_of_quiet (h : s.interruptsQuiet = true) : s.takesInterrupt = false := by
  rw [State.takesInterrupt, State.interruptDue_of_quiet (State.sample_interruptsQuiet h), Bool.false_and]

/-! ### The end of a run (R294, D24) -/

theorem State.nextInstr_eq_some {i : Instr} :
    s.nextInstr = some i ↔ ∃ w, s.fetch = .ok w ∧ decode s.cfg.enc w = .ok i := by
  cases hfetch : s.fetch with
  | error e => simp [State.nextInstr, hfetch]
  | ok w => cases hdec : decode s.cfg.enc w <;> simp [State.nextInstr, hfetch, hdec, Except.toOption]

theorem State.ended_iff : s.ended = true ↔
    s.cfg.haltPc = some s.pc ∧ s.nextInstr = some (.b 0) ∧ s.interruptsQuiet = true := by
  simp only [State.ended, Bool.and_eq_true, beq_iff_eq, and_assoc]

/-- Sampling changes neither what the next step fetches nor, once quiet, whether an interrupt can come. -/
theorem State.sample_ended (h : s.ended = true) : s.sample.ended = true := by
  obtain ⟨hhalt, hinstr, hquiet⟩ := State.ended_iff.1 h
  exact State.ended_iff.2 ⟨hhalt, hinstr, State.sample_interruptsQuiet hquiet⟩

/-- The branch to itself, from a word of the PROM, changes nothing (R200, R201). -/
theorem exec_b_zero (hpc : s.pc < s.cfg.promSize) : exec (.b 0) s = .next s := by
  have hin : InProm s (s.pc + 0) := by unfold InProm; omega
  rw [(takenBranchesGoToTarget s 0 hin).1, jumpNext, Int.add_zero, Int.toNat_natCast]

theorem step_of_ended (h : s.ended = true) : step s = .next s.sample := by
  obtain ⟨-, hinstr, hquiet⟩ := State.ended_iff.1 h
  obtain ⟨w, hfetch, hdec⟩ := State.nextInstr_eq_some.1 hinstr
  obtain ⟨hpc, hread⟩ := State.fetch_ok.1 hfetch
  rw [step_of_decode (State.takesInterrupt_of_quiet hquiet) (State.sample_fetch_of_read hpc hread) hdec]
  exact exec_b_zero hpc

/-- Settles O53: the step is sampling alone, and sampling keeps the end. -/
theorem endedRunStaysEnded : Obligations.EndedRunStaysEnded := by
  intro s h
  refine ⟨step_of_ended h, fun t hstep => ?_⟩
  rw [step_of_ended h] at hstep
  cases hstep
  exact State.sample_ended h

end Sys2Proof.Machine
end
